-- ==== Sys2Proof/Word.lean ====
section
/-!
DEFINITION. The machine word (spec/00_scope.md R10). The engine has one width: 64 bits, unsigned, no bytes (R40, R76).
-/

namespace Sys2Proof

/-- A word is a 64-bit unsigned integer (R10). -/
abbrev Word := BitVec 64

end Sys2Proof
end

