-- ==== Sys2Proof/Config.lean ====
section
/-!
DEFINITION. The parameters of the engine (spec/00_scope.md R7): the constants the spec fixes, and the record of what an
implementation fixes. The OPEN entries have no value in any source, so `Config.platform`, from which the reset state takes
them, is a constant without a body (log 5).
-/

namespace Sys2Proof

/-- The base field's prime P = 2^64 − 2^32 + 1 (R4, R7). -/
abbrev P : Nat := 0xFFFFFFFF00000001

/-- EPS = 2^32 − 1 = 2^64 mod P (R7). -/
abbrev EPS : Nat := 0xFFFFFFFF

/-- The extension is Fp[X]/(X^5 − EXT_W) (R7, R190). -/
abbrev EXT_W : Nat := 3

/-- γ = 3^((P−1)/5) mod P, with X^P = γ·X (R192). -/
abbrev GAMMA : Nat := 0x0E736627A0AEB983

/-- Width of the permutation state (R7, R230). -/
abbrev PERM_W : Nat := 12

/-- Rate of the sponge (R7, R260). -/
abbrev SPONGE_RATE : Nat := 8

/-- The state element that a partial round's S-box acts on (R7, R233). -/
abbrev PERM_PARTIAL_INDEX : Nat := 0

/-- Words of a hash digest (R7, R263). -/
abbrev DIGEST_LEN : Nat := 4

/-- Elements squeezed by the hash to the extension field (R7, R263). -/
abbrev H2Q_LEN : Nat := 5

/-- Words of a scalar (R7, R106). -/
abbrev SCALAR_WORDS : Nat := 5

/-- Bits of a scalar (R7, R295). -/
abbrev SCALAR_BITS : Nat := 320

/-- Words of a point (R7, R105). -/
abbrev POINT_WORDS : Nat := 11

/-- Words of a signature (R7, R107). -/
abbrev SIG_WORDS : Nat := 16

/-- Leading element of the nonce hash (R7, R343). -/
abbrev TAG_NONCE : Nat := 1

/-- Leading element of the challenge hash (R7, R344). -/
abbrev TAG_CHAL : Nat := 2

/-- Bound of the nonce retries, 2^32 (R7, R343). -/
abbrev NONCE_MAX_TRIES : Nat := 0x100000000

/-- CFG.VER (R7, R36). -/
abbrev CFG_VERSION : Nat := 1

/-- An element of Fp5: c0 + c1·X + c2·X^2 + c3·X^3 + c4·X^4 (R12, R190). A base-field element is a number, in [0, P) when canonical. -/
structure Ext where
  c0 : Nat
  c1 : Nat
  c2 : Nat
  c3 : Nat
  c4 : Nat
  deriving DecidableEq, Repr, Inhabited

/-- A member of the group set of R292: the identity O, or an affine point. -/
inductive Point where
  | identity
  | affine (x y : Ext)
  deriving DecidableEq, Repr, Inhabited

/-- The two readings of the sponge's permutation schedule (R262, N9). -/
inductive PermPolicy where
  | literal
  | ceil
  deriving DecidableEq, Repr, Inhabited

/-- Byte order of a word on a byte-addressed platform bus (R76, D43). DESIGN CHOICE (log 23): the spec leaves HOST_BYTE_ORDER OPEN and
names no value set; that it is one of these two orders, and no mixed one, is the model's choice. -/
inductive ByteOrder where
  | little
  | big
  deriving DecidableEq, Repr, Inhabited

/-- The parameters an implementation fixes (R7), constant for the life of the engine (R9, R42). Rule R8's laws are
`Config.Lawful` (Safety.lean). -/
structure Config where
  /-- WMEM_AW, legal 1..16. -/
  wmemAw : Nat
  /-- SPONGE_PERM_POLICY (R262). -/
  spongePolicy : PermPolicy
  /-- PERM_RF, the number of full rounds. -/
  permRf : Nat
  /-- PERM_RP, the number of partial rounds. -/
  permRp : Nat
  /-- PERM_MDS, the rows of the linear layer's matrix (R234). -/
  permMds : List (List Nat)
  /-- PERM_RC, one row of round constants per round (R235). -/
  permRc : List (List Nat)
  /-- CURVE_A2, CURVE_A4 and CURVE_A6 of the curve equation (R290). -/
  curveA2 : Ext
  curveA4 : Ext
  curveA6 : Ext
  /-- GEN, the fixed generator. -/
  gen : Point
  /-- GROUP_N, the group order. -/
  groupN : Nat
  /-- HOST_BYTE_ORDER, a parameter of the platform's bus (R76). -/
  hostByteOrder : ByteOrder
  deriving DecidableEq, Repr, Inhabited

/-- FREE VALUE (log 5): the OPEN parameters, to which no source gives a value (R7, D15 to D17, D23, D43). It has no body. -/
opaque Config.platform : Config

/-- The configuration the reset state takes: the spec's defaults WMEM_AW = 16 and LITERAL (R7, D3, D19), the OPEN entries free. -/
def Config.build : Config :=
  { Config.platform with wmemAw := 16, spongePolicy := .literal }

/-- WMEM_WORDS = 2^WMEM_AW (R7, R40). -/
def Config.wmemWords (c : Config) : Nat := 2 ^ c.wmemAw

end Sys2Proof
end

