-- ==== Sys2Proof/Machine/Fp.lean ====
section
/-!
DEFINITION. The base field Fp = GF(P) (spec/40_base_field.md R141 to R146). An element is a number in [0, P); every function
here is exact on numbers and gives a number in [0, P) when its arguments are.
-/

namespace Sys2Proof.Machine

/-- ADD of modular_adder_sub_64b (R141). -/
def fpAdd (a b : Nat) : Nat :=
  let s := a + b
  if P ≤ s then s - P else s

/-- SUB of modular_adder_sub_64b (R141). -/
def fpSub (a b : Nat) : Nat := if b ≤ a then a - b else a + P - b

/-- NEG of modular_adder_sub_64b (R141). -/
def fpNeg (a : Nat) : Nat := if a = 0 then 0 else P - a

/-- The contract of barrett_reducer_64b: the residue modulo P (R146, C5). -/
def reduce128 (x : Nat) : Nat := x % P

/-- modular_multiplier_64b: the exact product, then the reducer (R143). -/
def fpMul (a b : Nat) : Nat := reduce128 (a * b)

/-- The S-box power a^7 by its fixed chain of four multiplications (R144, R233). -/
def pow7 (a : Nat) : Nat :=
  let x2 := fpMul a a
  let x3 := fpMul x2 a
  let x4 := fpMul x2 x2
  fpMul x4 x3

/-- a^e mod P for e < 2^bits, by square and multiply. -/
def fpPow (bits a e : Nat) : Nat :=
  match bits with
  | 0 => 1
  | k + 1 =>
    let r := fpPow k (fpMul a a) (e / 2)
    if e % 2 = 1 then fpMul r a else r

/-- The inverse of a nonzero element as a^(P−2) (R145). The caller checks a ≠ 0. -/
def fpInv (a : Nat) : Nat := fpPow 64 a (P - 2)

end Sys2Proof.Machine
end

