-- ==== Sys2Proof/Machine/Fp5.lean ====
section
/-!
DEFINITION. The extension field Fp5 = Fp[X]/(X^5 − 3) (spec/41_extension_field.md R190 to R194).
-/

namespace Sys2Proof.Machine

/-- The zero element (R190). -/
def extZero : Ext := ⟨0, 0, 0, 0, 0⟩

/-- The one (R190). -/
def extOne : Ext := ⟨1, 0, 0, 0, 0⟩

/-- Embedding of a base-field element via the constant term (R194, R204). -/
def extEmbed (x : Nat) : Ext := ⟨x, 0, 0, 0, 0⟩

/-- Every coefficient is canonical (R104). -/
abbrev extCanonical (a : Ext) : Prop := a.c0 < P ∧ a.c1 < P ∧ a.c2 < P ∧ a.c3 < P ∧ a.c4 < P

/-- Addition, componentwise (R200). -/
def extAdd (a b : Ext) : Ext :=
  ⟨fpAdd a.c0 b.c0, fpAdd a.c1 b.c1, fpAdd a.c2 b.c2, fpAdd a.c3 b.c3, fpAdd a.c4 b.c4⟩

/-- Subtraction, componentwise (R201). -/
def extSub (a b : Ext) : Ext :=
  ⟨fpSub a.c0 b.c0, fpSub a.c1 b.c1, fpSub a.c2 b.c2, fpSub a.c3 b.c3, fpSub a.c4 b.c4⟩

/-- Negation, componentwise (R292). -/
def extNeg (a : Ext) : Ext := ⟨fpNeg a.c0, fpNeg a.c1, fpNeg a.c2, fpNeg a.c3, fpNeg a.c4⟩

/-- Multiplication: the schoolbook product with X^(5+k) = W·X^k (R191). Each coefficient is computed exactly and reduced once. -/
def extMul (a b : Ext) : Ext where
  c0 := (a.c0 * b.c0 + EXT_W * (a.c1 * b.c4 + a.c2 * b.c3 + a.c3 * b.c2 + a.c4 * b.c1)) % P
  c1 := (a.c0 * b.c1 + a.c1 * b.c0 + EXT_W * (a.c2 * b.c4 + a.c3 * b.c3 + a.c4 * b.c2)) % P
  c2 := (a.c0 * b.c2 + a.c1 * b.c1 + a.c2 * b.c0 + EXT_W * (a.c3 * b.c4 + a.c4 * b.c3)) % P
  c3 := (a.c0 * b.c3 + a.c1 * b.c2 + a.c2 * b.c1 + a.c3 * b.c0 + EXT_W * (a.c4 * b.c4)) % P
  c4 := (a.c0 * b.c4 + a.c1 * b.c3 + a.c2 * b.c2 + a.c3 * b.c1 + a.c4 * b.c0) % P

/-- The Frobenius map φ^k: coefficient j is multiplied by γ^(j·k) (R192). -/
def extFrob (k : Nat) (a : Ext) : Ext :=
  ⟨a.c0, fpMul (GAMMA ^ k % P) a.c1, fpMul (GAMMA ^ (2 * k) % P) a.c2, fpMul (GAMMA ^ (3 * k) % P) a.c3,
    fpMul (GAMMA ^ (4 * k) % P) a.c4⟩

/-- The conjugate product C = φ(a)·φ²(a)·φ³(a)·φ⁴(a) (R192). -/
def extConj (a : Ext) : Ext :=
  extMul (extMul (extFrob 1 a) (extFrob 2 a)) (extMul (extFrob 3 a) (extFrob 4 a))

/-- The norm n of a: a·C has coefficients (n, 0, 0, 0, 0) (R192). -/
def extNorm (a : Ext) : Nat := (extMul a (extConj a)).c0

/-- Scaling by a base-field element. -/
def extScale (k : Nat) (a : Ext) : Ext :=
  ⟨fpMul k a.c0, fpMul k a.c1, fpMul k a.c2, fpMul k a.c3, fpMul k a.c4⟩

/-- The inverse of a nonzero element: invert the norm in the base field, then scale the conjugate product (R192). The caller
checks a ≠ 0. -/
def extInv (a : Ext) : Ext := extScale (fpInv (extNorm a)) (extConj a)

/-- The coefficients in the order of the words of R104. -/
def extList (a : Ext) : List Nat := [a.c0, a.c1, a.c2, a.c3, a.c4]

end Sys2Proof.Machine
end

