-- ==== Sys2Proof/Machine/Curve.lean ====
section
/-!
DEFINITION. The curve group (spec/44_group.md R290 to R298).
-/

namespace Sys2Proof.Machine

/-- x^3 + CURVE_A2·x^2 + CURVE_A4·x + CURVE_A6 (R290). -/
def curveRhs (c : Config) (x : Ext) : Ext :=
  let x2 := extMul x x
  extAdd (extAdd (extMul x2 x) (extMul c.curveA2 x2)) (extAdd (extMul c.curveA4 x) c.curveA6)

/-- OnCurve(x, y) (R290). -/
def onCurve (c : Config) (x y : Ext) : Bool := decide (extMul y y = curveRhs c x)

/-- Negation: −O = O, −(x, y) = (x, −y) (R292). -/
def pointNeg : Point → Point
  | .identity => .identity
  | .affine x y => .affine x (extNeg y)

/-- The tangent slope (3·x^2 + 2·CURVE_A2·x + CURVE_A4) / (2·y) (R293). -/
def tangentSlope (c : Config) (x y : Ext) : Ext :=
  extMul
    (extAdd (extAdd (extMul (extEmbed 3) (extMul x x)) (extMul (extMul (extEmbed 2) c.curveA2) x)) c.curveA4)
    (extInv (extMul (extEmbed 2) y))

/-- The chord slope (y2 − y1) / (x2 − x1) (R293). -/
def chordSlope (x1 y1 x2 y2 : Ext) : Ext := extMul (extSub y2 y1) (extInv (extSub x2 x1))

/-- The third point of a line of slope λ through (x1, y1) and a point with coordinate x2, negated (R293). -/
def lineSum (c : Config) (l x1 y1 x2 : Ext) : Point :=
  let x3 := extSub (extSub (extSub (extMul l l) c.curveA2) x1) x2
  .affine x3 (extSub (extMul l (extSub x1 x3)) y1)

/-- PointAdd, the chord-and-tangent law with its special cases (R293). -/
def pointAdd (c : Config) : Point → Point → Point
  | .identity, q2 => q2
  | .affine x1 y1, .identity => .affine x1 y1
  | .affine x1 y1, .affine x2 y2 =>
    if x1 = x2 then
      if extAdd y1 y2 = extZero then .identity
      else lineSum c (tangentSlope c x1 y1) x1 y1 x2
    else lineSum c (chordSlope x1 y1 x2 y2) x1 y1 x2

/-- PointDbl(Q) = PointAdd(Q, Q) (R293). -/
def pointDbl (c : Config) (q : Point) : Point := pointAdd c q q

/-- Bits n−1 down to 0 of the reference loop (R295): double, add, select. -/
def scalarLoop (c : Config) (k : Nat) (q : Point) (n : Nat) (acc : Point) : Point :=
  match n with
  | 0 => acc
  | n + 1 =>
    let dbl := pointDbl c acc
    let sum := pointAdd c dbl q
    scalarLoop c k q n (if k.testBit n then sum else dbl)

/-- ScalarMul(k, Q) = (k mod GROUP_N)·Q, by the reference loop of SCALAR_BITS iterations (R295). -/
def scalarMul (c : Config) (k : Nat) (q : Point) : Point := scalarLoop c (k % c.groupN) q SCALAR_BITS .identity

/-- Enc(Q), the 11 words of a point (R105, R291). -/
def encPoint : Point → List Nat
  | .identity => List.replicate 10 0 ++ [1]
  | .affine x y => extList x ++ extList y ++ [0]

end Sys2Proof.Machine
end

