-- ==== Sys2Proof/Syntax.lean ====
section
/-!
DEFINITION. The command set PCE-1 (spec/30_encoding.md R108): one constructor per row of spec/opcode_table.json, with the
WMEM word addresses the command uses, destination first as in the syntax of R117. An address field the command ignores
(R101, R109) is no argument (log 14). Addresses are numbers here; `Instr.wf` (WellFormed.lean) says they fit their 16-bit fields.
-/

namespace Sys2Proof

/-- A decoded command. `d` is DA, `a` is SA, `b` is SB (R100). -/
inductive Instr where
  | fadd (d a b : Nat)
  | fsub (d a b : Nat)
  | fneg (d a : Nat)
  | fmul (d a b : Nat)
  | finv (d a : Nat)
  | fpow7 (d a : Nat)
  | fred (d a : Nat)
  | fcanon (d a : Nat)
  | eadd (d a b : Nat)
  | esub (d a b : Nat)
  | emul (d a b : Nat)
  | einv (d a : Nat)
  | eembed (d a : Nat)
  | eeq (d a b : Nat)
  | perm (d a : Nat)
  | hashnp (d a : Nat)
  | hashn (d a : Nat)
  | h2q (d a : Nat)
  | padd (d a b : Nat)
  | pdbl (d a : Nat)
  | pvalid (d a : Nat)
  | pmul (d a b : Nat)
  | pkgen (d a : Nat)
  | sign (d a b : Nat)
  | verify (d a b : Nat)
  deriving DecidableEq, Repr

/-- The DA field. -/
def Instr.da : Instr → Nat
  | .fadd d _ _ | .fsub d _ _ | .fneg d _ | .fmul d _ _ | .finv d _ | .fpow7 d _ | .fred d _ | .fcanon d _
  | .eadd d _ _ | .esub d _ _ | .emul d _ _ | .einv d _ | .eembed d _ | .eeq d _ _
  | .perm d _ | .hashnp d _ | .hashn d _ | .h2q d _
  | .padd d _ _ | .pdbl d _ | .pvalid d _ | .pmul d _ _ | .pkgen d _ | .sign d _ _ | .verify d _ _ => d

/-- The SA field. -/
def Instr.sa : Instr → Nat
  | .fadd _ a _ | .fsub _ a _ | .fneg _ a | .fmul _ a _ | .finv _ a | .fpow7 _ a | .fred _ a | .fcanon _ a
  | .eadd _ a _ | .esub _ a _ | .emul _ a _ | .einv _ a | .eembed _ a | .eeq _ a _
  | .perm _ a | .hashnp _ a | .hashn _ a | .h2q _ a
  | .padd _ a _ | .pdbl _ a | .pvalid _ a | .pmul _ a _ | .pkgen _ a | .sign _ a _ | .verify _ a _ => a

/-- The SB field, for the commands that use it; 0 for those that ignore it (R101). -/
def Instr.sb : Instr → Nat
  | .fadd _ _ b | .fsub _ _ b | .fmul _ _ b | .eadd _ _ b | .esub _ _ b | .emul _ _ b | .eeq _ _ b
  | .padd _ _ b | .pmul _ _ b | .sign _ _ b | .verify _ _ b => b
  | .fneg _ _ | .finv _ _ | .fpow7 _ _ | .fred _ _ | .fcanon _ _ | .einv _ _ | .eembed _ _
  | .perm _ _ | .hashnp _ _ | .hashn _ _ | .h2q _ _ | .pdbl _ _ | .pvalid _ _ | .pkgen _ _ => 0

end Sys2Proof
end

