-- ==== Sys2Proof/WellFormed.lean ====
section
/-!
DEFINITION. Well-formed commands: every address fits its 16-bit field of the command word (spec/30_encoding.md R100).
Whether a range lies inside WMEM is no question of form: it is the run-time check ADDR_RANGE (R112).
-/

namespace Sys2Proof

/-- DA, SA and SB are 16-bit fields (R100). -/
def Instr.wf (i : Instr) : Bool :=
  decide (i.da < 2 ^ 16) && decide (i.sa < 2 ^ 16) && decide (i.sb < 2 ^ 16)

end Sys2Proof
end

