-- ==== Sys2Proof/Decode.lean ====
section
/-!
DEFINITION. The decoder and the encoder of the command word (spec/30_encoding.md R100, R108, R113, R119). A command is one
64-bit word (R116), so the decoder reads a word, not bytes: the engine has no bytes and no byte order (R76).
-/

namespace Sys2Proof

/-- OP, bits 7:0 (R100). -/
def fieldOP (w : Word) : Nat := (w.extractLsb' 0 8).toNat

/-- SA, bits 23:8 (R100), zero-extended (R101). -/
def fieldSA (w : Word) : Nat := (w.extractLsb' 8 16).toNat

/-- SB, bits 39:24 (R100). -/
def fieldSB (w : Word) : Nat := (w.extractLsb' 24 16).toNat

/-- DA, bits 55:40 (R100). -/
def fieldDA (w : Word) : Nat := (w.extractLsb' 40 16).toNat

/-- RSV, bits 63:56 (R100). -/
def fieldRSV (w : Word) : Nat := (w.extractLsb' 56 8).toNat

/-- Why a command word is illegal (R113). -/
inductive DecodeError where
  /-- CMD[63:56] ≠ 0. -/
  | reservedBits (rsv : Nat)
  /-- CMD[7:0] is not an opcode of R108. -/
  | unassignedOpcode (op : Nat)
  deriving DecidableEq, Repr

/-- The opcode map of R108. Every value not listed is unassigned. -/
def decodeOpcode (op sa sb da : Nat) : Except DecodeError Instr :=
  match op with
  | 0x01 => .ok (.fadd da sa sb)
  | 0x02 => .ok (.fsub da sa sb)
  | 0x03 => .ok (.fneg da sa)
  | 0x04 => .ok (.fmul da sa sb)
  | 0x05 => .ok (.finv da sa)
  | 0x06 => .ok (.fpow7 da sa)
  | 0x07 => .ok (.fred da sa)
  | 0x08 => .ok (.fcanon da sa)
  | 0x10 => .ok (.eadd da sa sb)
  | 0x11 => .ok (.esub da sa sb)
  | 0x12 => .ok (.emul da sa sb)
  | 0x13 => .ok (.einv da sa)
  | 0x14 => .ok (.eembed da sa)
  | 0x15 => .ok (.eeq da sa sb)
  | 0x20 => .ok (.perm da sa)
  | 0x21 => .ok (.hashnp da sa)
  | 0x22 => .ok (.hashn da sa)
  | 0x23 => .ok (.h2q da sa)
  | 0x30 => .ok (.padd da sa sb)
  | 0x31 => .ok (.pdbl da sa)
  | 0x32 => .ok (.pvalid da sa)
  | 0x33 => .ok (.pmul da sa sb)
  | 0x34 => .ok (.pkgen da sa)
  | 0x40 => .ok (.sign da sa sb)
  | 0x41 => .ok (.verify da sa sb)
  | op => .error (.unassignedOpcode op)

/-- The total decoder (R119). It reads the command word alone, never LEN or WMEM. -/
def decode (w : Word) : Except DecodeError Instr :=
  if fieldRSV w = 0 then decodeOpcode (fieldOP w) (fieldSA w) (fieldSB w) (fieldDA w)
  else .error (.reservedBits (fieldRSV w))

/-- The opcode of a command (R108). -/
def opcode : Instr → Nat
  | .fadd _ _ _ => 0x01
  | .fsub _ _ _ => 0x02
  | .fneg _ _ => 0x03
  | .fmul _ _ _ => 0x04
  | .finv _ _ => 0x05
  | .fpow7 _ _ => 0x06
  | .fred _ _ => 0x07
  | .fcanon _ _ => 0x08
  | .eadd _ _ _ => 0x10
  | .esub _ _ _ => 0x11
  | .emul _ _ _ => 0x12
  | .einv _ _ => 0x13
  | .eembed _ _ => 0x14
  | .eeq _ _ _ => 0x15
  | .perm _ _ => 0x20
  | .hashnp _ _ => 0x21
  | .hashn _ _ => 0x22
  | .h2q _ _ => 0x23
  | .padd _ _ _ => 0x30
  | .pdbl _ _ => 0x31
  | .pvalid _ _ => 0x32
  | .pmul _ _ _ => 0x33
  | .pkgen _ _ => 0x34
  | .sign _ _ _ => 0x40
  | .verify _ _ _ => 0x41

/-- enc(OP, SA, SB, DA) = OP | (SA << 8) | (SB << 24) | (DA << 40) (R100). -/
def enc (op sa sb da : Nat) : Word :=
  BitVec.ofNat 64 (op ||| (sa <<< 8) ||| (sb <<< 24) ||| (da <<< 40))

/-- The command word of a command; a field the command ignores is 0. -/
def encode (i : Instr) : Word := enc (opcode i) i.sa i.sb i.da

/-- The host's view of the decoder: the word numbered as spec/opcode_table.json numbers it, every bit above `nbits` zero. -/
def decodeTableWord (nbits w : Nat) : Option Instr :=
  match decode (BitVec.ofNat 64 (w % 2 ^ nbits)) with
  | .ok i => some i
  | .error _ => none

end Sys2Proof
end

