-- ==== Sys2Proof/Machine/State.lean ====
section
/-!
DEFINITION. The machine's state as plain data (spec/10_state.md), its model faults (spec/60_exceptions.md R388), and the
state after hardware reset (R45). CTRL has no storage (R37), CFG is a constant of the configuration (R36), and CSR indices 5
to 7 have no storage (R38): they are not fields.
-/

namespace Sys2Proof.Machine

/-- The error codes of STATUS.ERRCODE (R380). Codes 8 to 255 are never produced, so they are no values here. -/
inductive ErrCode where
  /-- 0: completed without error. -/
  | none
  /-- 1: CMD[63:56] ≠ 0, or CMD[7:0] is not an opcode. -/
  | illegalCmd
  /-- 2: PLEN out of the command's range. -/
  | badLength
  /-- 3: a used operand or destination range passes WMEM_WORDS. -/
  | addrRange
  /-- 4: a base-field operand word is not below P. -/
  | noncanonical
  /-- 5: a point operand is not well-formed. -/
  | malformedPoint
  /-- 6: inverse of zero. -/
  | nonInvertible
  /-- 7: a secret key ≡ 0 (mod GROUP_N), or nonce exhaustion. -/
  | degenerateScalar
  deriving DecidableEq, Repr

/-- STATUS (R35). The host cannot write it, and its reserved bits have no storage and read 0: it is held by its fields,
and `Status.word` (Flags.lean) is the 64-bit register the host reads. -/
structure Status where
  busy : Bool
  done : Bool
  err : Bool
  ovr : Bool
  errCode : ErrCode
  deriving DecidableEq, Repr

/-- STATUS after hardware reset (R45). -/
def Status.zero : Status :=
  { busy := false, done := false, err := false, ovr := false, errCode := .none }

/-- WMEM: the written words as (address, word) pairs, addresses strictly rising (`Memory.wf`, Ops.lean). An address that is not
listed is an unspecified word (R41): it has no value, so no entry can equal what an unlisted address reads as (log 1, log 2). -/
abbrev Memory := List (Nat × Word)

/-- One host action (R70), or the poll of the `wait` pseudo-command (R118). A CSR index is 3 bits wide. -/
inductive HostOp where
  | csrRead (index : BitVec 3)
  | csrWrite (index : BitVec 3) (value : Word)
  | memRead (addr : Nat)
  | memWrite (addr : Nat) (value : Word)
  | wait
  deriving DecidableEq, Repr

/-- Who acts in a step: the two agents of R47, or the platform's hardware reset (R420). -/
inductive Turn where
  | host
  | engine
  | hardwareReset
  deriving DecidableEq, Repr

/-- The state of one engine instance, and of the host that drives it. -/
structure State where
  /-- CMD (R33): the command word of the last accepted command. -/
  cmd : Word
  /-- LEN (R34). -/
  len : Word
  /-- STATUS (R35). -/
  status : Status
  /-- PLEN (R39): LEN as latched at acceptance. -/
  plen : Word
  /-- WMEM (R40, R41). -/
  wmem : Memory
  /-- The read-only storage of R42 and the build parameters of R7. No step changes it (R9, R422; log 5). -/
  config : Config
  /-- MODEL'S OWN (log 3): the host actions still to come, oldest first. -/
  program : List HostOp
  /-- MODEL'S OWN (log 3): who acts in the next steps. When none is listed, a busy engine acts first (R88). -/
  turns : List Turn
  /-- MODEL'S OWN (log 4): the words the host port has returned, newest first. -/
  replies : List Word
  deriving DecidableEq, Repr

/-- The model faults (R388), after which the machine is stuck, and one of the host port's form. -/
inductive Fault where
  /-- Raised by a host MemRead1, or by a command's read phase, at an unspecified WMEM word (R41, R71, R388). Safe: the machine
  stops where the hardware returns a value the spec does not fix. -/
  | uninitRead (addr : Nat)
  /-- Raised by a host MemRead1 or MemWrite1 while STATUS.BUSY = 1 (R73, R388). Safe: the spec gives the access no meaning. -/
  | hostBusyAccess (addr : Nat)
  /-- Raised by a host access at an address of more than WMEM_AW bits, which cannot be presented (R70; log 8). Safe: no such
  access exists. -/
  | hostAddrRange (addr : Nat)
  deriving DecidableEq, Repr

/-- The refusals. No meaning of this model refuses. -/
inductive Refusal where
  /-- Raised by a dispatch arm whose instruction has no meaning yet. Safe: the machine stops. -/
  | notModelled (mnemonic : String)
  deriving DecidableEq, Repr

/-- A step's outcome. -/
abbrev Outcome := Host.Outcome State Fault Refusal

/-- The state after hardware reset of an engine with configuration `c` (R45, R420): CMD, LEN, STATUS and PLEN are 0, every WMEM
word is unspecified, the constants keep their configured values, and no command is in flight. -/
def State.resetWith (c : Config) : State :=
  { cmd := 0, len := 0, status := Status.zero, plen := 0, wmem := [], config := c, program := [], turns := [], replies := [] }

/-- The machine right after reset: the OPEN parameters are free (log 5), the others have the spec's defaults. -/
def State.reset : State := State.resetWith Config.build

end Sys2Proof.Machine
end

