-- ==== Sys2Proof/Machine/Flags.lean ====
section
/-!
DEFINITION. STATUS as a register, and its transitions (spec/10_state.md R35, R44). These are all the flags the engine has: no
command computes a carry, overflow, sign or zero flag (R148), and no command writes a flag but through its completion (R44).
-/

namespace Sys2Proof.Machine

/-- The numbers of the error codes (R380). -/
def ErrCode.code : ErrCode → BitVec 8
  | .none => 0
  | .illegalCmd => 1
  | .badLength => 2
  | .addrRange => 3
  | .noncanonical => 4
  | .malformedPoint => 5
  | .nonInvertible => 6
  | .degenerateScalar => 7

/-- STATUS as the host reads it (R35): BUSY, DONE, ERR and OVR in bits 0 to 3, ERRCODE in bits 15:8, every other bit 0. -/
def Status.word (t : Status) : Word :=
  (0#48 ++ t.errCode.code) ++ (0#4 ++ BitVec.ofBool t.ovr ++ BitVec.ofBool t.err ++ BitVec.ofBool t.done ++ BitVec.ofBool t.busy)

/-- R44, CMD write accepted. -/
def Status.accepted (t : Status) : Status :=
  { busy := true, done := false, err := false, ovr := t.ovr, errCode := .none }

/-- R44, CMD write dropped because BUSY = 1. -/
def Status.dropped (t : Status) : Status := { t with ovr := true }

/-- R44, completion without error. -/
def Status.completedOk (t : Status) : Status :=
  { busy := false, done := true, err := false, ovr := t.ovr, errCode := .none }

/-- R44, completion with error code `c`. -/
def Status.completedError (t : Status) (c : ErrCode) : Status :=
  { busy := false, done := true, err := true, ovr := t.ovr, errCode := c }

/-- R44, CTRL.CLR written as 1 with SRST as 0: all but BUSY is cleared. -/
def Status.cleared (t : Status) : Status :=
  { busy := t.busy, done := false, err := false, ovr := false, errCode := .none }

end Sys2Proof.Machine
end

