-- ==== Sys2Proof/Machine/Ops.lean ====
section
/-!
DEFINITION. The named operations over WMEM, the operand shapes (spec/30_encoding.md R109), the completions of a command
(R115; spec/60_exceptions.md R381), and the execution frame every command runs in (R115).
-/

namespace Sys2Proof.Machine

namespace Memory

/-- The canonical form: addresses strictly rising. -/
abbrev wf (m : Memory) : Prop := m.Pairwise (fun x y => x.1 < y.1)

/-- WMEM[a]: its value when the word is written, nothing when it is unspecified (R41). -/
def read (m : Memory) (a : Nat) : Option Word :=
  match m with
  | [] => none
  | (b, v) :: m => if b = a then some v else read m a

/-- WMEM[a] <- v: the word becomes written (R41). -/
def write (m : Memory) (a : Nat) (v : Word) : Memory :=
  match m with
  | [] => [(a, v)]
  | (b, w) :: m =>
    if a < b then (a, v) :: (b, w) :: m
    else if a = b then (a, v) :: m
    else (b, w) :: write m a v

/-- MemRead(a, n) (R13): the words in ascending address order, or the first unspecified address (log 9). -/
def readRange (m : Memory) (a n : Nat) : Except Nat (List Word) :=
  match n with
  | 0 => .ok []
  | n + 1 =>
    match m.read a with
    | none => .error a
    | some v =>
      match m.readRange (a + 1) n with
      | .error b => .error b
      | .ok vs => .ok (v :: vs)

/-- MemWrite(a, n, v) (R13). -/
def writeRange (m : Memory) (a : Nat) (vs : List Word) : Memory :=
  match vs with
  | [] => m
  | v :: vs => writeRange (m.write a v) (a + 1) vs

/-- Words a .. a+n−1 become unspecified (R41, R421). -/
def eraseRange (m : Memory) (a n : Nat) : Memory :=
  m.filter (fun x => !(decide (a ≤ x.1) && decide (x.1 < a + n)))

end Memory

/-- Consecutive words: a base address and a length. A field the command ignores has length 0. -/
structure Range where
  base : Nat
  len : Nat
  deriving DecidableEq, Repr

/-- The operand ranges of a command: source A, source B, destination (R101). -/
structure Shape where
  a : Range
  b : Range
  d : Range
  deriving DecidableEq, Repr

/-- The table of operand shapes (R109); `L` is PLEN. -/
def shapeOf (L : Nat) : Instr → Shape
  | .fadd d a b => ⟨⟨a, 1⟩, ⟨b, 1⟩, ⟨d, 1⟩⟩
  | .fsub d a b => ⟨⟨a, 1⟩, ⟨b, 1⟩, ⟨d, 1⟩⟩
  | .fneg d a => ⟨⟨a, 1⟩, ⟨0, 0⟩, ⟨d, 1⟩⟩
  | .fmul d a b => ⟨⟨a, 1⟩, ⟨b, 1⟩, ⟨d, 1⟩⟩
  | .finv d a => ⟨⟨a, 1⟩, ⟨0, 0⟩, ⟨d, 1⟩⟩
  | .fpow7 d a => ⟨⟨a, 1⟩, ⟨0, 0⟩, ⟨d, 1⟩⟩
  | .fred d a => ⟨⟨a, 2⟩, ⟨0, 0⟩, ⟨d, 1⟩⟩
  | .fcanon d a => ⟨⟨a, 1⟩, ⟨0, 0⟩, ⟨d, 1⟩⟩
  | .eadd d a b => ⟨⟨a, 5⟩, ⟨b, 5⟩, ⟨d, 5⟩⟩
  | .esub d a b => ⟨⟨a, 5⟩, ⟨b, 5⟩, ⟨d, 5⟩⟩
  | .emul d a b => ⟨⟨a, 5⟩, ⟨b, 5⟩, ⟨d, 5⟩⟩
  | .einv d a => ⟨⟨a, 5⟩, ⟨0, 0⟩, ⟨d, 5⟩⟩
  | .eembed d a => ⟨⟨a, 1⟩, ⟨0, 0⟩, ⟨d, 5⟩⟩
  | .eeq d a b => ⟨⟨a, 5⟩, ⟨b, 5⟩, ⟨d, 1⟩⟩
  | .perm d a => ⟨⟨a, PERM_W⟩, ⟨0, 0⟩, ⟨d, PERM_W⟩⟩
  | .hashnp d a => ⟨⟨a, L⟩, ⟨0, 0⟩, ⟨d, DIGEST_LEN⟩⟩
  | .hashn d a => ⟨⟨a, L⟩, ⟨0, 0⟩, ⟨d, DIGEST_LEN⟩⟩
  | .h2q d a => ⟨⟨a, L⟩, ⟨0, 0⟩, ⟨d, H2Q_LEN⟩⟩
  | .padd d a b => ⟨⟨a, POINT_WORDS⟩, ⟨b, POINT_WORDS⟩, ⟨d, POINT_WORDS⟩⟩
  | .pdbl d a => ⟨⟨a, POINT_WORDS⟩, ⟨0, 0⟩, ⟨d, POINT_WORDS⟩⟩
  | .pvalid d a => ⟨⟨a, POINT_WORDS⟩, ⟨0, 0⟩, ⟨d, 1⟩⟩
  | .pmul d a b => ⟨⟨a, POINT_WORDS⟩, ⟨b, SCALAR_WORDS⟩, ⟨d, POINT_WORDS⟩⟩
  | .pkgen d a => ⟨⟨a, SCALAR_WORDS⟩, ⟨0, 0⟩, ⟨d, POINT_WORDS⟩⟩
  | .sign d a b => ⟨⟨a, L⟩, ⟨b, SCALAR_WORDS⟩, ⟨d, SIG_WORDS⟩⟩
  | .verify d a b => ⟨⟨a, L⟩, ⟨b, POINT_WORDS + SIG_WORDS⟩, ⟨d, 1⟩⟩

/-- The LEN operand's legal values (R102): 0..WMEM_WORDS for the hash commands, 1..WMEM_WORDS for SIGN and VERIFY, any value for a
command that ignores LEN. -/
def lengthLegal (words L : Nat) : Instr → Bool
  | .hashnp _ _ | .hashn _ _ | .h2q _ _ => decide (L ≤ words)
  | .sign _ _ _ | .verify _ _ _ => decide (1 ≤ L) && decide (L ≤ words)
  | .fadd _ _ _ | .fsub _ _ _ | .fneg _ _ | .fmul _ _ _ | .finv _ _ | .fpow7 _ _ | .fred _ _ | .fcanon _ _
  | .eadd _ _ _ | .esub _ _ _ | .emul _ _ _ | .einv _ _ | .eembed _ _ | .eeq _ _ _ | .perm _ _
  | .padd _ _ _ | .pdbl _ _ | .pvalid _ _ | .pmul _ _ _ | .pkgen _ _ => true

/-- A used range lies inside WMEM, without wrapping; an unused one is not checked (R112). -/
def Range.inside (words : Nat) (r : Range) : Bool :=
  r.len == 0 || decide (r.base + r.len ≤ words)

/-- Every used range lies inside WMEM (R112). -/
def Shape.inside (words : Nat) (sh : Shape) : Bool :=
  sh.a.inside words && sh.b.inside words && sh.d.inside words

/-- CompleteOk (R115). -/
def State.completeOk (s : State) : State := { s with status := s.status.completedOk }

/-- CompleteError (R381), the engine's whole reaction to an exceptional condition: STATUS records the code, nothing else changes.
There is no trap entry: no saved state, no mode, no handler (R384). -/
def State.completeError (s : State) (c : ErrCode) : State := { s with status := s.status.completedError c }

/-- The end of an error condition at the host's request, CTRL.CLR (R37, R385): there is no return instruction. -/
def State.clearStatus (s : State) : State := { s with status := s.status.cleared }

/-- Acceptance of the command word `v` (R75). -/
def State.accept (s : State) (v : Word) : State :=
  { s with cmd := v, plen := s.len, status := s.status.accepted }

/-- The execution frame (R115) of a legal command: length and range checks (R112), then the read phase, then the command's rule,
which gives the result words or an error code, then the write phase and completion. Every read comes before any write (R14). -/
def runCommand (i : Instr) (s : State) (rule : List Word → List Word → Except ErrCode (List Word)) : Outcome :=
  let words := s.config.wmemWords
  let L := s.plen.toNat
  let sh := shapeOf L i
  if !lengthLegal words L i then .next (s.completeError .badLength)
  else if !sh.inside words then .next (s.completeError .addrRange)
  else
    match s.wmem.readRange sh.a.base sh.a.len with
    | .error a => .fault (.uninitRead a)
    | .ok va =>
      match s.wmem.readRange sh.b.base sh.b.len with
      | .error a => .fault (.uninitRead a)
      | .ok vb =>
        match rule va vb with
        | .error c => .next (s.completeError c)
        | .ok r => .next { s with wmem := s.wmem.writeRange sh.d.base r }.completeOk

end Sys2Proof.Machine
end

