-- ==== Sys2Proof/Machine/Operands.lean ====
section
/-!
DEFINITION. The operand forms (spec/30_encoding.md R103 to R107, R110, R111): how a command reads its source words as field
elements, extension elements, scalars and points, and how a result becomes words. The checks are Boolean functions, so that a
command applies them in the order of spec/60_exceptions.md R382: every NONCANONICAL check before any MALFORMED_POINT check.
-/

namespace Sys2Proof.Machine

/-- Every word is canonical, below P (R12, R103). -/
def canonical (v : List Word) : Bool := v.all fun w => decide (w.toNat < P)

/-- The words as numbers: base-field elements once they are canonical (R103). -/
def numbers (v : List Word) : List Nat := v.map BitVec.toNat

/-- The words of a result (R111). -/
def words (v : List Nat) : List Word := v.map (BitVec.ofNat 64)

/-- The base-field element in word k (R103). -/
def feAt (v : List Word) (k : Nat) : Nat := (v.getD k 0).toNat

/-- The extension element in words k .. k+4, coefficients in ascending address order (R104). -/
def extAt (v : List Word) (k : Nat) : Ext :=
  ⟨feAt v k, feAt v (k + 1), feAt v (k + 2), feAt v (k + 3), feAt v (k + 4)⟩

/-- Σ_i v[i]·2^(64·i), least significant limb first (R106, R341). -/
def scalarOf (v : List Nat) : Nat :=
  match v with
  | [] => 0
  | w :: v => w + 2 ^ 64 * scalarOf v

/-- ReadScalar: any 5 words are a scalar (R106, R110). -/
def scalarAt (v : List Word) : Nat := scalarOf (numbers v)

/-- ScalarWords(s): the 5 limbs (s >> 64·i) mod 2^64 (R111, R341). -/
def scalarWords (s : Nat) : List Nat := (List.range SCALAR_WORDS).map fun i => (s >>> (64 * i)) % 2 ^ 64

/-- The ten coordinate words of a point are canonical (R110). -/
def pointCanonical (v : List Word) : Bool := canonical (v.take 10)

/-- WellFormed(v) (R291), for words with canonical coordinates: an identity flag with zero coordinates, or a flag 0 with a point on
the curve. -/
def pointWellFormed (c : Config) (v : List Word) : Bool :=
  if feAt v 10 = 1 then (v.take 10).all fun w => decide (w = 0)
  else if feAt v 10 = 0 then onCurve c (extAt v 0) (extAt v 5)
  else false

/-- Decode(v) (R291). -/
def pointAt (v : List Word) : Point :=
  if feAt v 10 = 1 then .identity else .affine (extAt v 0) (extAt v 5)

end Sys2Proof.Machine
end

