-- ==== Sys2Proof/Machine/BaseField.lean ====
section
/-!
DEFINITION. The base-field commands (spec/40_base_field.md R150 to R157).
-/

namespace Sys2Proof.Machine

/-- `FADD d, a, b` (R150). -/
def execFadd (d a b : Nat) (s : State) : Outcome :=
  runCommand (.fadd d a b) s fun va vb =>
    if !(canonical va && canonical vb) then .error .noncanonical
    else .ok (words [fpAdd (feAt va 0) (feAt vb 0)])

/-- `FSUB d, a, b` (R151). -/
def execFsub (d a b : Nat) (s : State) : Outcome :=
  runCommand (.fsub d a b) s fun va vb =>
    if !(canonical va && canonical vb) then .error .noncanonical
    else .ok (words [fpSub (feAt va 0) (feAt vb 0)])

/-- `FNEG d, a` (R152). -/
def execFneg (d a : Nat) (s : State) : Outcome :=
  runCommand (.fneg d a) s fun va _ =>
    if !canonical va then .error .noncanonical
    else .ok (words [fpNeg (feAt va 0)])

/-- `FMUL d, a, b` (R153). -/
def execFmul (d a b : Nat) (s : State) : Outcome :=
  runCommand (.fmul d a b) s fun va vb =>
    if !(canonical va && canonical vb) then .error .noncanonical
    else .ok (words [fpMul (feAt va 0) (feAt vb 0)])

/-- `FINV d, a` (R154). -/
def execFinv (d a : Nat) (s : State) : Outcome :=
  runCommand (.finv d a) s fun va _ =>
    if !canonical va then .error .noncanonical
    else if feAt va 0 = 0 then .error .nonInvertible
    else .ok (words [fpInv (feAt va 0)])

/-- `FPOW7 d, a` (R155). -/
def execFpow7 (d a : Nat) (s : State) : Outcome :=
  runCommand (.fpow7 d a) s fun va _ =>
    if !canonical va then .error .noncanonical
    else .ok (words [pow7 (feAt va 0)])

/-- `FRED d, a` (R156): low word first, no canonicality check. -/
def execFred (d a : Nat) (s : State) : Outcome :=
  runCommand (.fred d a) s fun va _ =>
    .ok (words [reduce128 (2 ^ 64 * feAt va 1 + feAt va 0)])

/-- `FCANON d, a` (R157): no canonicality check. -/
def execFcanon (d a : Nat) (s : State) : Outcome :=
  runCommand (.fcanon d a) s fun va _ =>
    .ok (words [reduce128 (feAt va 0)])

end Sys2Proof.Machine
end

