-- ==== Sys2Proof/Machine/Extension.lean ====
section
/-!
DEFINITION. The extension-field commands (spec/41_extension_field.md R200 to R205).
-/

namespace Sys2Proof.Machine

/-- `EADD d, a, b` (R200). -/
def execEadd (d a b : Nat) (s : State) : Outcome :=
  runCommand (.eadd d a b) s fun va vb =>
    if !(canonical va && canonical vb) then .error .noncanonical
    else .ok (words (extList (extAdd (extAt va 0) (extAt vb 0))))

/-- `ESUB d, a, b` (R201). -/
def execEsub (d a b : Nat) (s : State) : Outcome :=
  runCommand (.esub d a b) s fun va vb =>
    if !(canonical va && canonical vb) then .error .noncanonical
    else .ok (words (extList (extSub (extAt va 0) (extAt vb 0))))

/-- `EMUL d, a, b` (R202). -/
def execEmul (d a b : Nat) (s : State) : Outcome :=
  runCommand (.emul d a b) s fun va vb =>
    if !(canonical va && canonical vb) then .error .noncanonical
    else .ok (words (extList (extMul (extAt va 0) (extAt vb 0))))

/-- `EINV d, a` (R203). -/
def execEinv (d a : Nat) (s : State) : Outcome :=
  runCommand (.einv d a) s fun va _ =>
    if !canonical va then .error .noncanonical
    else if extAt va 0 = extZero then .error .nonInvertible
    else .ok (words (extList (extInv (extAt va 0))))

/-- `EEMBED d, a` (R204). -/
def execEembed (d a : Nat) (s : State) : Outcome :=
  runCommand (.eembed d a) s fun va _ =>
    if !canonical va then .error .noncanonical
    else .ok (words (extList (extEmbed (feAt va 0))))

/-- `EEQ d, a, b` (R205): the verdict is a word, not a flag. -/
def execEeq (d a b : Nat) (s : State) : Outcome :=
  runCommand (.eeq d a b) s fun va vb =>
    if !(canonical va && canonical vb) then .error .noncanonical
    else .ok (words [if extAt va 0 = extAt vb 0 then 1 else 0])

end Sys2Proof.Machine
end

