-- ==== Sys2Proof/Machine/Group.lean ====
section
/-!
DEFINITION. The group commands (spec/44_group.md R310 to R314). A command never computes on a point that is not well-formed
(R291); no subgroup check is made (R297).
-/

namespace Sys2Proof.Machine

/-- `PADD d, a, b` (R310). Both operands' canonicality comes before both operands' form (R382). -/
def execPadd (d a b : Nat) (s : State) : Outcome :=
  runCommand (.padd d a b) s fun va vb =>
    if !(pointCanonical va && pointCanonical vb) then .error .noncanonical
    else if !(pointWellFormed s.config va && pointWellFormed s.config vb) then .error .malformedPoint
    else .ok (words (encPoint (pointAdd s.config (pointAt va) (pointAt vb))))

/-- `PDBL d, a` (R311). -/
def execPdbl (d a : Nat) (s : State) : Outcome :=
  runCommand (.pdbl d a) s fun va _ =>
    if !pointCanonical va then .error .noncanonical
    else if !pointWellFormed s.config va then .error .malformedPoint
    else .ok (words (encPoint (pointDbl s.config (pointAt va))))

/-- `PVALID d, a` (R312): a bad encoding is the answer 0, not an error. -/
def execPvalid (d a : Nat) (s : State) : Outcome :=
  runCommand (.pvalid d a) s fun va _ =>
    .ok (words [if pointCanonical va && pointWellFormed s.config va then 1 else 0])

/-- `PMUL d, pt, k` (R313): the point at SA, the scalar at SB; every scalar is legal. -/
def execPmul (d a b : Nat) (s : State) : Outcome :=
  runCommand (.pmul d a b) s fun va vb =>
    if !pointCanonical va then .error .noncanonical
    else if !pointWellFormed s.config va then .error .malformedPoint
    else .ok (words (encPoint (scalarMul s.config (scalarAt vb) (pointAt va))))

/-- `PKGEN d, sk` (R298, R314). -/
def execPkgen (d a : Nat) (s : State) : Outcome :=
  runCommand (.pkgen d a) s fun va _ =>
    if scalarAt va % s.config.groupN = 0 then .error .degenerateScalar
    else .ok (words (encPoint (scalarMul s.config (scalarAt va) s.config.gen)))

end Sys2Proof.Machine
end

