-- ==== Sys2Proof/Machine/Perm.lean ====
section
/-!
DEFINITION. The permutation (spec/42_permutation.md R230 to R236). A table entry that a configuration outside R8 leaves out
counts as 0 (log 10).
-/

namespace Sys2Proof.Machine

/-- Step 1 of a round: add round r's constants to every element (R232, R235). -/
def addConstants (c : Config) (r : Nat) (s : List Nat) : List Nat :=
  (List.range PERM_W).map fun i => fpAdd (s.getD i 0) ((c.permRc.getD r []).getD i 0)

/-- Round r is a full round (R231). -/
def fullRound (c : Config) (r : Nat) : Bool :=
  decide (r < c.permRf / 2) || decide (c.permRf / 2 + c.permRp ≤ r)

/-- Step 2 of a round: the S-box on every element of a full round, on the designated element of a partial one (R232, R233). -/
def sboxLayer (c : Config) (r : Nat) (s : List Nat) : List Nat :=
  if fullRound c r then s.map pow7
  else s.set PERM_PARTIAL_INDEX (pow7 (s.getD PERM_PARTIAL_INDEX 0))

/-- One row of the linear layer: Σ_j M[i][j]·s[j] (R234). -/
def dotRow : List Nat → List Nat → Nat
  | m :: ms, x :: xs => m * x + dotRow ms xs
  | _, _ => 0

/-- Step 3 of a round: s <- PERM_MDS · s, from the whole old s (R234). -/
def linearLayer (c : Config) (s : List Nat) : List Nat :=
  (List.range PERM_W).map fun i => dotRow (c.permMds.getD i []) s % P

/-- Round r (R232). -/
def permRound (c : Config) (r : Nat) (s : List Nat) : List Nat :=
  linearLayer c (sboxLayer c r (addConstants c r s))

/-- Rounds r, r+1, .. , r+n−1. -/
def permRounds (c : Config) (n r : Nat) (s : List Nat) : List Nat :=
  match n with
  | 0 => s
  | n + 1 => permRounds c n (r + 1) (permRound c r s)

/-- Perm (R236): rounds 0 to PERM_RF + PERM_RP − 1. -/
def permute (c : Config) (s : List Nat) : List Nat := permRounds c (c.permRf + c.permRp) 0 s

end Sys2Proof.Machine
end

