-- ==== Sys2Proof/Machine/Sponge.lean ====
section
/-!
DEFINITION. The sponge and the hash to the extension field (spec/43_sponge.md R260 to R267).
-/

namespace Sys2Proof.Machine

/-- The fresh sponge state: all zero (R260). -/
def spongeInit : List Nat := List.replicate PERM_W 0

/-- Absorption adds the supplied elements into the leading slots and injects no padding (R261). -/
def absorbChunk (s xs : List Nat) : List Nat :=
  match s, xs with
  | s :: ss, x :: xs => fpAdd s x :: absorbChunk ss xs
  | ss, [] => ss
  | [], _ => []

/-- The q full chunks of SPONGE_RATE elements, Perm after each (R262). -/
def absorbFull (c : Config) (q : Nat) (s xs : List Nat) : List Nat :=
  match q with
  | 0 => s
  | q + 1 => absorbFull c q (permute c (absorbChunk s (xs.take SPONGE_RATE))) (xs.drop SPONGE_RATE)

/-- The t leftover elements, then the last permutation: always under LITERAL, only for t > 0 under CEIL (R262). -/
def absorbTail (c : Config) (s xs : List Nat) : List Nat :=
  let s := absorbChunk s xs
  if c.spongePolicy = .literal ∨ 0 < xs.length then permute c s else s

/-- Sponge(in, nout) (R264): the state after absorption, of which the first nout elements of the rate are squeezed (R263). -/
def sponge (c : Config) (xs : List Nat) (nout : Nat) : List Nat :=
  let q := xs.length / SPONGE_RATE
  (absorbTail c (absorbFull c q spongeInit xs) (xs.drop (q * SPONGE_RATE))).take nout

/-- hash_no_pad (R270), which hash_n_to_hash_no_pad equals (R271). -/
def hashNoPad (c : Config) (xs : List Nat) : List Nat := sponge c xs DIGEST_LEN

/-- HashToQuintic (R267), as the list of coefficients c0..c4. -/
def hashToQuintic (c : Config) (xs : List Nat) : List Nat := sponge c xs H2Q_LEN

end Sys2Proof.Machine
end

