-- ==== Sys2Proof/Machine/Hash.lean ====
section
/-!
DEFINITION. The hash commands (spec/43_sponge.md R270 to R272). The input is the L = PLEN words at SA.
-/

namespace Sys2Proof.Machine

/-- `HASHNP d, a` (R270). -/
def execHashnp (d a : Nat) (s : State) : Outcome :=
  runCommand (.hashnp d a) s fun va _ =>
    if !canonical va then .error .noncanonical
    else .ok (words (hashNoPad s.config (numbers va)))

/-- `HASHN d, a` (R271). -/
def execHashn (d a : Nat) (s : State) : Outcome :=
  runCommand (.hashn d a) s fun va _ =>
    if !canonical va then .error .noncanonical
    else .ok (words (hashNoPad s.config (numbers va)))

/-- `H2Q d, a` (R272). -/
def execH2q (d a : Nat) (s : State) : Outcome :=
  runCommand (.h2q d a) s fun va _ =>
    if !canonical va then .error .noncanonical
    else .ok (words (hashToQuintic s.config (numbers va)))

end Sys2Proof.Machine
end

