-- ==== Sys2Proof/Machine/Permutation.lean ====
section
/-!
DEFINITION. The permutation command (spec/42_permutation.md R240).
-/

namespace Sys2Proof.Machine

/-- `PERM d, a` (R240). -/
def execPerm (d a : Nat) (s : State) : Outcome :=
  runCommand (.perm d a) s fun va _ =>
    if !canonical va then .error .noncanonical
    else .ok (words (permute s.config (numbers va)))

end Sys2Proof.Machine
end

