-- ==== Sys2Proof/Machine/Schnorr.lean ====
section
/-!
DEFINITION. Schnorr signing and verification as functions (spec/45_schnorr.md R341 to R346).
-/

namespace Sys2Proof.Machine

/-- Limbs32(x): ten limbs of 32 bits, least significant first (R341). -/
def limbs32 (x : Nat) : List Nat := (List.range 10).map fun i => (x >>> (32 * i)) % 2 ^ 32

/-- The hash input of nonce try j: [TAG_NONCE] ‖ Limbs32(sk') ‖ [len(m)] ‖ m ‖ [j] (R343). -/
def nonceInput (sk : Nat) (m : List Nat) (j : Nat) : List Nat :=
  [TAG_NONCE] ++ limbs32 sk ++ [m.length] ++ m ++ [j]

/-- The nonce candidate of try j: the 320-bit hash output modulo GROUP_N (R343). -/
def nonceAt (c : Config) (sk : Nat) (m : List Nat) (j : Nat) : Nat :=
  scalarOf (hashToQuintic c (nonceInput sk m j)) % c.groupN

/-- Tries j, j+1, .. of which `tries` are left: the first with k ≠ 0 and k·GEN ≠ O gives (k, R) (R343). -/
def nonceFrom (c : Config) (sk : Nat) (m : List Nat) (tries j : Nat) : Option (Nat × Point) :=
  match tries with
  | 0 => none
  | tries + 1 =>
    let k := nonceAt c sk m j
    if k = 0 then nonceFrom c sk m tries (j + 1)
    else
      let r := scalarMul c k c.gen
      if r = .identity then nonceFrom c sk m tries (j + 1) else some (k, r)

/-- Nonce(sk', m) (R343). -/
def nonce (c : Config) (sk : Nat) (m : List Nat) : Option (Nat × Point) := nonceFrom c sk m NONCE_MAX_TRIES 0

/-- Challenge(R, pk, m) (R344): the hash of [TAG_CHAL] ‖ Enc(R) ‖ Enc(pk) ‖ [len(m)] ‖ m modulo GROUP_N. -/
def challenge (c : Config) (r pk : Point) (m : List Nat) : Nat :=
  scalarOf (hashNoPad c ([TAG_CHAL] ++ encPoint r ++ encPoint pk ++ [m.length] ++ m)) % c.groupN

/-- Sign(m, sk) (R345): the 16 words Enc(R) ‖ ScalarWords(s), or DEGENERATE_SCALAR. -/
def signMessage (c : Config) (m : List Nat) (sk : Nat) : Except ErrCode (List Nat) :=
  let sk' := sk % c.groupN
  if sk' = 0 then .error .degenerateScalar
  else
    match nonce c sk' m with
    | none => .error .degenerateScalar
    | some (k, r) =>
      let e := challenge c r (scalarMul c sk' c.gen) m
      .ok (encPoint r ++ scalarWords ((k + e * sk') % c.groupN))

/-- The verdict on a well-formed public key (R346): 1 accept, 0 reject. -/
def verdict (c : Config) (m : List Word) (pk : Point) (sig : List Word) : Nat :=
  let rv := sig.take POINT_WORDS
  let s := scalarAt (sig.drop POINT_WORDS)
  if pk = .identity then 0
  else if !canonical m then 0
  else if !(pointCanonical rv && pointWellFormed c rv) then 0
  else if pointAt rv = .identity then 0
  else if c.groupN ≤ s then 0
  else
    let r := pointAt rv
    let e := challenge c r pk (numbers m)
    if scalarMul c s c.gen = pointAdd c r (scalarMul c e pk) then 1 else 0

/-- Verify(m, pkv, sig) (R346): the public key is checked as an operand; everything else is part of the verdict. -/
def verifyMessage (c : Config) (m pkv sig : List Word) : Except ErrCode Nat :=
  if !pointCanonical pkv then .error .noncanonical
  else if !pointWellFormed c pkv then .error .malformedPoint
  else .ok (verdict c m (pointAt pkv) sig)

end Sys2Proof.Machine
end

