-- ==== Sys2Proof/Machine/Signature.lean ====
section
/-!
DEFINITION. The signature commands (spec/45_schnorr.md R350, R351). The message is the L = PLEN words at SA.
-/

namespace Sys2Proof.Machine

/-- `SIGN d, m, sk` (R350). -/
def execSign (d a b : Nat) (s : State) : Outcome :=
  runCommand (.sign d a b) s fun va vb =>
    if !canonical va then .error .noncanonical
    else
      match signMessage s.config (numbers va) (scalarAt vb) with
      | .error c => .error c
      | .ok sig => .ok (words sig)

/-- `VERIFY d, m, pksig` (R351): 27 words at SB, the public key, then the signature. -/
def execVerify (d a b : Nat) (s : State) : Outcome :=
  runCommand (.verify d a b) s fun va vb =>
    match verifyMessage s.config va (vb.take POINT_WORDS) (vb.drop POINT_WORDS) with
    | .error c => .error c
    | .ok v => .ok (words [v])

end Sys2Proof.Machine
end

