-- ==== Sys2Proof/Machine/Dispatch.lean ====
section
/-!
DEFINITION. The dispatch: one arm per command (spec/30_encoding.md R108), each one direct call of its meaning.
-/

namespace Sys2Proof.Machine

def exec (i : Instr) (s : State) : Host.Outcome State Fault Refusal :=
  match i with
  | .fadd d a b => Sys2Proof.Machine.execFadd d a b s
  | .fsub d a b => Sys2Proof.Machine.execFsub d a b s
  | .fneg d a => Sys2Proof.Machine.execFneg d a s
  | .fmul d a b => Sys2Proof.Machine.execFmul d a b s
  | .finv d a => Sys2Proof.Machine.execFinv d a s
  | .fpow7 d a => Sys2Proof.Machine.execFpow7 d a s
  | .fred d a => Sys2Proof.Machine.execFred d a s
  | .fcanon d a => Sys2Proof.Machine.execFcanon d a s
  | .eadd d a b => Sys2Proof.Machine.execEadd d a b s
  | .esub d a b => Sys2Proof.Machine.execEsub d a b s
  | .emul d a b => Sys2Proof.Machine.execEmul d a b s
  | .einv d a => Sys2Proof.Machine.execEinv d a s
  | .eembed d a => Sys2Proof.Machine.execEembed d a s
  | .eeq d a b => Sys2Proof.Machine.execEeq d a b s
  | .perm d a => Sys2Proof.Machine.execPerm d a s
  | .hashnp d a => Sys2Proof.Machine.execHashnp d a s
  | .hashn d a => Sys2Proof.Machine.execHashn d a s
  | .h2q d a => Sys2Proof.Machine.execH2q d a s
  | .padd d a b => Sys2Proof.Machine.execPadd d a b s
  | .pdbl d a => Sys2Proof.Machine.execPdbl d a s
  | .pvalid d a => Sys2Proof.Machine.execPvalid d a s
  | .pmul d a b => Sys2Proof.Machine.execPmul d a b s
  | .pkgen d a => Sys2Proof.Machine.execPkgen d a s
  | .sign d a b => Sys2Proof.Machine.execSign d a b s
  | .verify d a b => Sys2Proof.Machine.execVerify d a b s

end Sys2Proof.Machine
end

