-- ==== Sys2Proof/Machine/HostPort.lean ====
section
/-!
DEFINITION. The host port (spec/20_memory.md R70 to R76; spec/10_state.md R32 to R38), the two resets
(spec/70_reset_and_hazards.md R420, R421), and the pseudo-commands (spec/30_encoding.md R118).
-/

namespace Sys2Proof.Machine

/-- CFG (R36): AW in 7:0, W in 15:8, RATE in 23:16, SW in 31:24, VER in 39:32, 63:40 zero. -/
def cfgWord (c : Config) : Word :=
  0#24 ++ BitVec.ofNat 8 CFG_VERSION ++ BitVec.ofNat 8 SCALAR_WORDS ++ BitVec.ofNat 8 SPONGE_RATE ++ BitVec.ofNat 8 PERM_W
    ++ BitVec.ofNat 8 c.wmemAw

/-- The value of CSR `i` (R32): CTRL and the reserved indices read 0 (R37, R38). -/
def csrValue (s : State) (i : BitVec 3) : Word :=
  match i.toNat with
  | 0 => s.cmd
  | 1 => s.len
  | 2 => s.status.word
  | 4 => cfgWord s.config
  | _ => 0

/-- CsrRead (R72): the value is returned, no register changes. -/
def hostCsrRead (s : State) (i : BitVec 3) : State := { s with replies := csrValue s i :: s.replies }

/-- Hardware reset (R420): every piece of state at its reset value; a command in flight is abandoned. The host's program, the order
of turns and the words already returned are outside the engine and stay (log 3, log 4). -/
def hardwareReset (s : State) : State :=
  { State.resetWith s.config with program := s.program, turns := s.turns, replies := s.replies }

/-- The destination words of the command in flight, from CMD and PLEN (R421). An illegal command word has none. -/
def abandonedRange (s : State) : Range :=
  match decode s.cmd with
  | .ok i => (shapeOf s.plen.toNat i).d
  | .error _ => ⟨0, 0⟩

/-- Soft reset (R421): CMD, LEN, STATUS and PLEN take their reset values; WMEM is kept, but the destination words of a command in
flight become unspecified. -/
def softReset (s : State) : State :=
  { s with
    cmd := 0
    len := 0
    status := Status.zero
    plen := 0
    wmem := if s.status.busy then s.wmem.eraseRange (abandonedRange s).base (abandonedRange s).len else s.wmem }

/-- A CTRL write (R37): SRST dominates CLR, the other bits are ignored. -/
def writeCtrl (s : State) (v : Word) : State :=
  if v.getLsbD 1 then softReset s
  else if v.getLsbD 0 then s.clearStatus
  else s

/-- A CMD write (R75): accepted when idle, whatever the word; dropped with OVR set when busy. -/
def writeCmd (s : State) (v : Word) : State :=
  if s.status.busy then { s with status := s.status.dropped } else s.accept v

/-- CsrWrite (R70): STATUS, CFG and the reserved indices ignore the write (R72). -/
def hostCsrWrite (s : State) (i : BitVec 3) (v : Word) : State :=
  match i.toNat with
  | 0 => writeCmd s v
  | 1 => { s with len := v }
  | 3 => writeCtrl s v
  | _ => s

/-- MemRead1 (R71, R73). An address of more than WMEM_AW bits cannot be presented (R70; log 8). -/
def hostMemRead (s : State) (a : Nat) : Outcome :=
  if s.config.wmemWords ≤ a then .fault (.hostAddrRange a)
  else if s.status.busy then .fault (.hostBusyAccess a)
  else
    match s.wmem.read a with
    | none => .fault (.uninitRead a)
    | some v => .next { s with replies := v :: s.replies }

/-- MemWrite1 (R71, R73). -/
def hostMemWrite (s : State) (a : Nat) (v : Word) : Outcome :=
  if s.config.wmemWords ≤ a then .fault (.hostAddrRange a)
  else if s.status.busy then .fault (.hostBusyAccess a)
  else .next { s with wmem := s.wmem.write a v }

/-- One poll of `wait` (R118): a CsrRead of STATUS; the host polls again until BUSY reads 0. -/
def hostWait (s : State) : State :=
  let polled := hostCsrRead s 2
  if s.status.busy then { polled with program := .wait :: s.program } else polled

/-- One host action (R70). -/
def hostAct (op : HostOp) (s : State) : Outcome :=
  match op with
  | .csrRead i => .next (hostCsrRead s i)
  | .csrWrite i v => .next (hostCsrWrite s i v)
  | .memRead a => hostMemRead s a
  | .memWrite a v => hostMemWrite s a v
  | .wait => .next (hostWait s)

/-- The host's turn: its next action; a host with nothing left to do leaves the machine as it is. -/
def hostTurn (s : State) : Outcome :=
  match s.program with
  | [] => .next s
  | op :: rest => hostAct op { s with program := rest }

/-! The pseudo-commands of R117 and R118, as host actions. -/

/-- `cmd …` is a CMD write of the command's word (R117). -/
def hostCmd (i : Instr) : HostOp := .csrWrite 0 (encode i)

/-- `FSQR d, a`. -/
def pseudoFsqr (d a : Nat) : List HostOp := [hostCmd (.fmul d a a)]

/-- `FDBL d, a`. -/
def pseudoFdbl (d a : Nat) : List HostOp := [hostCmd (.fadd d a a)]

/-- `ESQR d, a`. -/
def pseudoEsqr (d a : Nat) : List HostOp := [hostCmd (.emul d a a)]

/-- `HASHNP d, a, #n`, `HASHN d, a, #n`, `H2Q d, a, #n`, `SIGN d, m, sk, #n` and `VERIFY d, m, pksig, #n`: the LEN write, then the
command. -/
def pseudoWithLen (i : Instr) (n : Word) : List HostOp := [.csrWrite 1 n, hostCmd i]

/-- `clr`. -/
def pseudoClr : List HostOp := [.csrWrite 3 1]

/-- `srst`. -/
def pseudoSrst : List HostOp := [.csrWrite 3 2]

/-- The bytes of a word on a byte-addressed platform bus, lowest address first, in the platform's HOST_BYTE_ORDER (R76). The engine
itself has no byte order: no step uses this (log 16). -/
def busBytes (c : Config) (w : Word) : List (BitVec 8) :=
  let little := (List.range 8).map (fun k => w.extractLsb' (8 * k) 8)
  match c.hostByteOrder with
  | .little => little
  | .big => little.reverse

/-- The word that such a bus's bytes carry. -/
def busWord (c : Config) (bytes : List (BitVec 8)) : Word :=
  let little := match c.hostByteOrder with
    | .little => bytes
    | .big => bytes.reverse
  BitVec.ofNat 64 (little.foldr (fun b acc => b.toNat + 256 * acc) 0)

end Sys2Proof.Machine
end

