-- ==== Sys2Proof/Machine/Engine.lean ====
section
/-!
DEFINITION. The engine step (spec/30_encoding.md R115), whose turn it is (spec/20_memory.md R81, R88), and how a command word
reaches the engine outside a host program.
-/

namespace Sys2Proof.Machine

/-- The engine step (R115) of a busy engine: the word in CMD is decoded and executed; an illegal one completes with ILLEGAL_CMD,
reading and writing nothing (R113). -/
def engineStep (s : State) : Outcome :=
  match decode s.cmd with
  | .error _ => .next (s.completeError .illegalCmd)
  | .ok i => exec i s

/-- The engine's turn: its step is enabled only while BUSY = 1 (R115, R398). -/
def engineTurn (s : State) : Outcome :=
  if s.status.busy then engineStep s else .next s

/-- One turn (R81). -/
def takeTurn (t : Turn) (s : State) : Outcome :=
  match t with
  | .host => hostTurn s
  | .engine => engineTurn s
  | .hardwareReset => .next (hardwareReset s)

/-- With no turn listed, a busy engine acts (R88), else the host (log 12). -/
def freeTurn (s : State) : Outcome :=
  if s.status.busy then engineStep s else hostTurn s

/-- The command word `w` accepted (R75) with LEN as it stands, and the next turn given to the engine. -/
def State.withCommand (s : State) (w : Word) : State :=
  { s.accept w with turns := .engine :: s.turns }

end Sys2Proof.Machine
end

