-- ==== Sys2Proof/Machine/Step.lean ====
section
/-!
DEFINITION. One step of the machine: one atomic action of the agent whose turn it is (spec/20_memory.md R81).
-/

namespace Sys2Proof.Machine

/-- One step: the next listed turn, or the free turn when none is listed. -/
def step (s : State) : Host.Outcome State Fault Refusal :=
  match s.turns with
  | [] => freeTurn s
  | t :: rest => takeTurn t { s with turns := rest }

/-- The engine fetches nothing (R31): the command word `w`, numbered as spec/opcode_table.json numbers it, is accepted (R75)
and the next step executes it (log 7). -/
def State.withFetchWord (s : State) (nbits w : Nat) : State :=
  s.withCommand (BitVec.ofNat 64 (w % 2 ^ nbits))

end Sys2Proof.Machine
end

