-- ==== Sys2Proof/Machine/Units.lean ====
section
/-!
DEFINITION. The engine's eleven units (spec/00_scope.md R2) as functions of their ports. They are internal: a program reaches
them only through the commands, which use the same functions. An output the spec leaves unspecified carries no value (`none`,
log 15), and the engine never stores it.
-/

namespace Sys2Proof.Machine

/-- The operations of modular_adder_sub_64b (R140). -/
inductive AdderOp where
  | add
  | sub
  | neg
  | reserved
  deriving DecidableEq, Repr

/-- The code of an operation on the 2-bit `op` port (R140). -/
def AdderOp.code : AdderOp → BitVec 2
  | .add => 0b00
  | .sub => 0b01
  | .neg => 0b10
  | .reserved => 0b11

/-- The operation that a code on the `op` port selects (R140). -/
def AdderOp.ofCode (c : BitVec 2) : AdderOp :=
  match c.toNat with
  | 0 => .add
  | 1 => .sub
  | 2 => .neg
  | _ => .reserved

/-- The ports `y` and `nc` of a unit with one 64-bit result. -/
structure WordPorts where
  y : Option Word
  nc : Bool
  deriving DecidableEq, Repr

/-- modular_adder_sub_64b (R140, R141), with its 2-bit `op` port. The operand `b` is not used by NEG. -/
def adderUnit (op : BitVec 2) (a b : Word) : WordPorts :=
  match AdderOp.ofCode op with
  | .add =>
    if P ≤ a.toNat ∨ P ≤ b.toNat then ⟨none, true⟩ else ⟨some (BitVec.ofNat 64 (fpAdd a.toNat b.toNat)), false⟩
  | .sub =>
    if P ≤ a.toNat ∨ P ≤ b.toNat then ⟨none, true⟩ else ⟨some (BitVec.ofNat 64 (fpSub a.toNat b.toNat)), false⟩
  | .neg => if P ≤ a.toNat then ⟨none, true⟩ else ⟨some (BitVec.ofNat 64 (fpNeg a.toNat)), false⟩
  | .reserved => ⟨none, decide (P ≤ a.toNat)⟩

/-- ADD on a datapath that keeps only 64 bits (R142, informative). -/
def adderAdd64 (a b : Word) : Word :=
  let t := a + b
  if t.ult a then t + BitVec.ofNat 64 EPS
  else if (BitVec.ofNat 64 P).ule t then t - BitVec.ofNat 64 P
  else t

/-- SUB on a datapath that keeps only 64 bits (R142, informative). -/
def adderSub64 (a b : Word) : Word :=
  if a.ult b then a - b - BitVec.ofNat 64 EPS else a - b

/-- barrett_reducer_64b (R146). -/
def reducerUnit (x : BitVec 128) : Word := BitVec.ofNat 64 (reduce128 x.toNat)

/-- Solinas reduction (R147, informative): one algorithm that meets R146. -/
def solinas (x : BitVec 128) : Word :=
  let lo := x.extractLsb' 0 64
  let hiLo := (x.extractLsb' 64 32).setWidth 64
  let hiHi := (x.extractLsb' 96 32).setWidth 64
  let eps := BitVec.ofNat 64 EPS
  let t0 := if lo.ult hiHi then lo - hiHi - eps else lo - hiHi
  let t1 := hiLo * eps
  let t2 := if (t0 + t1).ult t0 then t0 + t1 + eps else t0 + t1
  if (BitVec.ofNat 64 P).ule t2 then t2 - BitVec.ofNat 64 P else t2

/-- modular_multiplier_64b (R143): the 128-bit product through the reducer. -/
def multiplierUnit (a b : Word) : WordPorts :=
  if P ≤ a.toNat ∨ P ≤ b.toNat then ⟨none, true⟩
  else ⟨some (reducerUnit (a.setWidth 128 * b.setWidth 128)), false⟩

/-- The ports of a unit with a result of several words. -/
structure WordsPorts where
  y : Option (List Word)
  nc : Bool
  deriving DecidableEq, Repr

/-- gf_extension_5_multiplier (R193): inputs and output of 5 words, coefficient k first to last. -/
def extensionUnit (a b : List Word) : WordsPorts :=
  if canonical a && canonical b then ⟨some (words (extList (extMul (extAt a 0) (extAt b 0)))), false⟩ else ⟨none, true⟩

/-- permutation_engine (R238). -/
def permutationUnit (c : Config) (s : List Word) : List Word := words (permute c (numbers s))

/-- sponge_absorb_squeeze (R268); nout is 4 or 5. -/
def spongeUnit (c : Config) (xs : List Word) (nout : Nat) : List Word := words (sponge c (numbers xs) nout)

/-- hash_to_curve_map (R268, C4): the sponge with nout = 5. -/
def hashToCurveUnit (c : Config) (xs : List Word) : List Word := spongeUnit c xs H2Q_LEN

/-- The operations of ecc_point_add (R299): add, double q1, validate q1. -/
inductive PointOp where
  | add
  | dbl
  | validate
  deriving DecidableEq, Repr

/-- The code of an operation on the `op` port (R299). -/
def PointOp.code : PointOp → BitVec 2
  | .add => 0b00
  | .dbl => 0b01
  | .validate => 0b10

/-- The operation that a code on the `op` port selects. R299 gives the code 0b11 no operation. -/
def PointOp.ofCode (c : BitVec 2) : Option PointOp :=
  match c.toNat with
  | 0 => some .add
  | 1 => some .dbl
  | 2 => some .validate
  | _ => none

/-- The output ports of ecc_point_add (R299). `q3` and `valid` are `none` where they carry no value. -/
structure PointPorts where
  q3 : Option (List Word)
  valid : Option Bool
  nc : Bool
  deriving DecidableEq, Repr

/-- The operands that an operation of ecc_point_add uses: both for add, q1 alone for double and validate. -/
def PointOp.operands (op : PointOp) (q1 q2 : List Word) : List (List Word) :=
  match op with
  | .add => [q1, q2]
  | .dbl => [q1]
  | .validate => [q1]

/-- ecc_point_add (R299), for an operation. `valid` and `nc` cover the operands of the operation. DESIGN CHOICE (log 25): R299 does not say
which operands `nc` covers for double and validate; it is q1 alone here, as for `valid`. DESIGN CHOICE (log 24): R299 does not say what
`valid` is when `nc` = 1, since WellFormed is defined on canonical coordinates only (R291); it carries no value here. q3 has no value
for validate, or when an operand is not valid (log 15). -/
def pointFunction (c : Config) (op : PointOp) (q1 q2 : List Word) : PointPorts :=
  let nc := !(op.operands q1 q2).all pointCanonical
  let ok := (op.operands q1 q2).all (pointWellFormed c)
  { q3 :=
      if nc || !ok then none
      else
        match op with
        | .add => some (words (encPoint (pointAdd c (pointAt q1) (pointAt q2))))
        | .dbl => some (words (encPoint (pointDbl c (pointAt q1))))
        | .validate => none
    valid := if nc then none else some ok
    nc := nc }

/-- ecc_point_add (R299), with its 2-bit `op` port; for the code 0b11 the spec gives no output (log 15). -/
def pointUnit (c : Config) (op : BitVec 2) (q1 q2 : List Word) : Option PointPorts :=
  (PointOp.ofCode op).map fun op => pointFunction c op q1 q2

/-- ecc_scalar_mult (R299), on a well-formed point. -/
def scalarUnit (c : Config) (q k : List Word) : List Word := words (encPoint (scalarMul c (scalarAt k) (pointAt q)))

/-- schnorr_sig_gen (R349): the signature, or the status `degenerate`. -/
def signUnit (c : Config) (m sk : List Word) : Option (List Word) :=
  match signMessage c (numbers m) (scalarAt sk) with
  | .error _ => none
  | .ok sig => some (words sig)

/-- The output ports of schnorr_sig_verify (R349): `accept` has no value when pk_bad. -/
structure VerifyPorts where
  accept : Option Bool
  pkBad : Option ErrCode
  deriving DecidableEq, Repr

/-- schnorr_sig_verify (R349). -/
def verifyUnit (c : Config) (m pk sig : List Word) : VerifyPorts :=
  match verifyMessage c m pk sig with
  | .error e => ⟨none, some e⟩
  | .ok v => ⟨some (v == 1), none⟩

end Sys2Proof.Machine
end

