-- ==== Sys2Proof/Safety.lean ====
section
/-!
DEFINITION. The terms claims about the machine are stated in: the laws of a configuration (spec/00_scope.md R8), the invariant
of the state (spec/10_state.md R44), operands and results in WMEM, and safe runs.
-/

namespace Sys2Proof

open Machine

/-- m·Q: Q added to itself m times, 0·Q = O (R295). -/
def pointTimes (c : Config) (m : Nat) (q : Point) : Point :=
  match m with
  | 0 => .identity
  | m + 1 => pointAdd c (pointTimes c m q) q

/-- Membership of the group set E (R292), with canonical coordinates. -/
abbrev InGroup (c : Config) : Point → Prop
  | .identity => True
  | .affine x y => extCanonical x ∧ extCanonical y ∧ onCurve c x y = true

/-- The derivative 3·x^2 + 2·CURVE_A2·x + CURVE_A4 of the curve's cubic. -/
def curveRhsDeriv (c : Config) (x : Ext) : Ext :=
  extAdd (extAdd (extMul (extEmbed 3) (extMul x x)) (extMul (extMul (extEmbed 2) c.curveA2) x)) c.curveA4

/-- The configuration laws L1 to L9 (R8), with the bounds of WMEM_AW (R7). -/
structure Config.Lawful (c : Config) : Prop where
  wmemAw : 1 ≤ c.wmemAw ∧ c.wmemAw ≤ 16
  l1 : c.permRf % 2 = 0
  l2 : c.permRc.length = c.permRf + c.permRp ∧ ∀ row ∈ c.permRc, row.length = PERM_W ∧ ∀ x ∈ row, x < P
  l3 : c.permMds.length = PERM_W ∧ ∀ row ∈ c.permMds, row.length = PERM_W ∧ ∀ x ∈ row, x < P
  l4 : extCanonical c.curveA2 ∧ extCanonical c.curveA4 ∧ extCanonical c.curveA6
  l5 : InGroup c c.gen ∧ c.gen ≠ .identity
  l6 : 2 ≤ c.groupN ∧ c.groupN < 2 ^ SCALAR_BITS
  l7 : pointTimes c c.groupN c.gen = .identity
  l8 : c.groupN.Prime
  l9 : ∀ x : Ext, extCanonical x → ¬(curveRhs c x = extZero ∧ curveRhsDeriv c x = extZero)

/-- The multiples of Q add as integers do: what associativity of the group law (R294, general knowledge) gives for one point. -/
def MultiplesAdd (c : Config) (q : Point) : Prop :=
  ∀ a b : Nat, pointAdd c (pointTimes c a q) (pointTimes c b q) = pointTimes c (a + b) q

/-- Every multiple of Q is in the group set: what closure of the group law (R293) gives for one point. -/
def MultiplesInGroup (c : Config) (q : Point) : Prop := ∀ a : Nat, InGroup c (pointTimes c a q)

/-- The invariants of STATUS that R44 derives. -/
abbrev StatusConsistent (t : Status) : Prop :=
  (t.busy = true → t.done = false ∧ t.err = false ∧ t.errCode = .none) ∧
  (t.err = true ↔ t.errCode ≠ .none) ∧
  (t.err = true → t.done = true)

/-- Every written word lies inside WMEM (R40). -/
abbrev MemoryInside (n : Nat) (m : Memory) : Prop := ∀ x ∈ m, x.1 < n

/-- The invariant of the state: WMEM in its canonical form and inside its bounds, STATUS consistent. -/
structure StateInv (s : Machine.State) : Prop where
  wf : s.wmem.wf
  inside : MemoryInside s.config.wmemWords s.wmem
  status : StatusConsistent s.status

/-- A source operand: the words `v` stand at address `a`, each written, and a nonempty range lies inside WMEM (R101, R112). -/
abbrev Operand (s : Machine.State) (a : Nat) (v : List Word) : Prop :=
  (v = [] ∨ a + v.length ≤ s.config.wmemWords) ∧ ∀ k, k < v.length → s.wmem.read (a + k) = some (v.getD k 0)

/-- A destination of `n` words at `d` lies inside WMEM (R112). -/
abbrev Room (s : Machine.State) (d n : Nat) : Prop := d + n ≤ s.config.wmemWords

/-- The state a command completes in with result words `r` at `d` (R115): the words are stored and STATUS reports completion. -/
def finish (s : Machine.State) (d : Nat) (r : List Nat) : Machine.State :=
  State.completeOk { s with wmem := s.wmem.writeRange d (words r) }

/-- A word of one of the command's source ranges is unspecified (R41). -/
def SourceUnspecified (s : Machine.State) (i : Instr) (x : Nat) : Prop :=
  s.wmem.read x = none ∧
    (((shapeOf s.plen.toNat i).a.base ≤ x ∧ x < (shapeOf s.plen.toNat i).a.base + (shapeOf s.plen.toNat i).a.len) ∨
      ((shapeOf s.plen.toNat i).b.base ≤ x ∧ x < (shapeOf s.plen.toNat i).b.base + (shapeOf s.plen.toNat i).b.len))

/-- Every WMEM word is written (the premise of R389). -/
def FullyWritten (s : Machine.State) : Prop := ∀ a, a < s.config.wmemWords → ∃ v, s.wmem.read a = some v

/-- The words `v` are the encoding of the member `q` of the group set (R105, R291). -/
def EncodesPoint (c : Config) (v : List Word) (q : Point) : Prop := InGroup c q ∧ v = words (encPoint q)

/-- The ten coordinate words of a point operand are below P (R110). -/
abbrev CanonicalCoords (v : List Word) : Prop := ∀ k, k < 10 → feAt v k < P

/-- Every word is below P (R103). -/
abbrev AllCanonical (v : List Word) : Prop := ∀ w ∈ v, w.toNat < P

/-- The value of a scalar operand (R106): Σ_i w_i·2^(64·i) over its five words. -/
def scalarValue (v : List Word) : Nat := ((List.range SCALAR_WORDS).map fun i => 2 ^ (64 * i) * feAt v i).sum

/-- The opcodes of PCE-1 (R108). -/
def assignedOpcodes : List Nat :=
  [0x01, 0x02, 0x03, 0x04, 0x05, 0x06, 0x07, 0x08] ++ [0x10, 0x11, 0x12, 0x13, 0x14, 0x15] ++ [0x20, 0x21, 0x22, 0x23] ++
    [0x30, 0x31, 0x32, 0x33, 0x34] ++ [0x40, 0x41]

/-- Every 16-bit SA, SB and DA with opcode `op` decode to the command `mk DA SA SB` (R100, R108). -/
def EncodedAs (op : Nat) (mk : Nat → Nat → Nat → Instr) : Prop :=
  ∀ da sa sb, da < 2 ^ 16 → sa < 2 ^ 16 → sb < 2 ^ 16 → decode (enc op sa sb da) = .ok (mk da sa sb)

/-- A safe run: no number of steps ends in a model fault (R388) or a refusal. -/
def RunsSafely (s : Machine.State) : Prop := ∀ n, ∃ t, core.run n s = .next t

end Sys2Proof
end

