-- ==== Sys2Proof/Certificates/Slice0/Obligations.lean ====
section
/-!
DEFINITION. The statements about the model, each formalising what a rule of spec/ says a command or the machine does.
-/

open Sys2Proof Sys2Proof.Machine

/-! Encoding -/

/-- Command words written out in the spec (R100's example and the programs of 95_test_vectors.md §9 and §10) decode as it says. -/
def Obligations.DecodesWordsOfTheSpec : Prop :=
  decode 0x0000020001000001 = .ok (.fadd 2 0 1) ∧ decode 0x0000040001000002 = .ok (.fsub 4 0 1) ∧
    decode 0x0000030002000204 = .ok (.fmul 3 2 2) ∧ decode 0x0000050000000405 = .ok (.finv 5 4) ∧
    decode 0x0000020000000208 = .ok (.fcanon 2 2) ∧ decode 0x00000A0005000012 = .ok (.emul 10 0 5) ∧
    decode 0x0000150010000A15 = .ok (.eeq 21 10 16) ∧ decode 0x0000280000FFFF21 = .ok (.hashnp 40 65535) ∧
    decode 0x0000280000000134 = .ok (.pkgen 40 1) ∧ decode 0x0000330001000040 = .ok (.sign 51 0 1) ∧
    decode 0x0000460028000041 = .ok (.verify 70 0 40) ∧ decode 0x0100020001000001 = .error (.reservedBits 1) ∧
    decode 0x0000000000000000 = .error (.unassignedOpcode 0)

/-- Decoding the word of a well-formed command gives the command back, with every operand at every value (R100, R108). -/
def Obligations.DecodeInvertsEncode : Prop := ∀ i : Instr, i.wf = true → decode (encode i) = .ok i

/-- R119: every 64-bit word decodes either to exactly one command of R108, with its SA, SB and DA fields (SB where the command uses
it, R100's bits), or to "illegal"; the decoder is a function of the word alone. That a command which ignores SB (R101, R109) drops the field is log 14
(DEDUCED). -/
def Obligations.DecoderIsTotal : Prop :=
  ∀ w : Word,
    (fieldOP w = (w.extractLsb' 0 8).toNat ∧ fieldSA w = (w.extractLsb' 8 16).toNat ∧ fieldSB w = (w.extractLsb' 24 16).toNat ∧
      fieldDA w = (w.extractLsb' 40 16).toNat ∧ fieldRSV w = (w.extractLsb' 56 8).toNat) ∧
    ((∃ e, decode w = .error e) ↔ fieldRSV w ≠ 0 ∨ fieldOP w ∉ assignedOpcodes) ∧
    ∀ i, decode w = .ok i →
      fieldRSV w = 0 ∧ fieldOP w = opcode i ∧ i.da = fieldDA w ∧ i.sa = fieldSA w ∧
        i.sb = if 0 < (shapeOf 0 i).b.len then fieldSB w else 0

/-! Reset and the invariant -/

/-- R45: what hardware reset leaves, for every configuration; the reset state is that of one configuration. -/
def Obligations.ResetLeavesTheSpecValues : Prop :=
  (∀ c : Config,
    (State.resetWith c).cmd = 0 ∧ (State.resetWith c).len = 0 ∧ (State.resetWith c).status.word = 0 ∧
      (State.resetWith c).plen = 0 ∧ csrValue (State.resetWith c) 4 = cfgWord c ∧ csrValue (State.resetWith c) 3 = 0 ∧
      (∀ a, (State.resetWith c).wmem.read a = none) ∧ (State.resetWith c).config = c ∧
      (State.resetWith c).status.busy = false) ∧
    ∃ c, State.reset = State.resetWith c

/-- The invariant holds right after reset; its canonical form of WMEM is that the listed addresses rise strictly (log 1). -/
def Obligations.ResetSatisfiesInvariant : Prop :=
  StateInv State.reset ∧ ∀ m : Memory, m.wf ↔ m.Pairwise (fun x y => x.1 < y.1)

/-- Every step of either agent, and every reset, keeps WMEM in canonical form and inside its bounds and keeps the STATUS
invariants that R44 derives: BUSY excludes DONE, ERR and a code; ERR iff ERRCODE ≠ 0; ERR implies DONE. -/
def Obligations.StepKeepsInvariant : Prop := ∀ s t : State, StateInv s → step s = .next t → StateInv t

/-- R9: the constants and parameters never change. -/
def Obligations.StepKeepsConfiguration : Prop := ∀ s t : State, step s = .next t → t.config = s.config

/-! The host port -/

/-- R72 (with R38): a CSR read returns the register and changes none, at any time; writes to STATUS, CFG and the reserved indices are
ignored. The list `replies` is the model's record of the words returned (log 4). -/
def Obligations.CsrReadHasNoSideEffect : Prop :=
  (∀ (s : State) (i : BitVec 3), hostAct (.csrRead i) s = .next { s with replies := csrValue s i :: s.replies }) ∧
    (∀ s : State,
      csrValue s 0 = s.cmd ∧ csrValue s 1 = s.len ∧ csrValue s 2 = s.status.word ∧ csrValue s 3 = 0 ∧
        csrValue s 4 = cfgWord s.config ∧ csrValue s 5 = 0 ∧ csrValue s 6 = 0 ∧ csrValue s 7 = 0) ∧
    ∀ (s : State) (i : BitVec 3) (v : Word), (i = 2 ∨ i = 4 ∨ i = 5 ∨ i = 6 ∨ i = 7) →
      hostAct (.csrWrite i v) s = .next s

/-- R35 and R380: the bits of STATUS, its reset value, the numbers of the error codes, and that the host's writes to it are ignored. -/
def Obligations.StatusRegisterBits : Prop :=
  (∀ t : Status,
    t.word.getLsbD 0 = t.busy ∧ t.word.getLsbD 1 = t.done ∧ t.word.getLsbD 2 = t.err ∧ t.word.getLsbD 3 = t.ovr ∧
      (∀ k, 4 ≤ k → k < 8 → t.word.getLsbD k = false) ∧ t.word.extractLsb' 8 8 = t.errCode.code ∧
      ∀ k, 16 ≤ k → t.word.getLsbD k = false) ∧
    (ErrCode.none.code = 0 ∧ ErrCode.illegalCmd.code = 1 ∧ ErrCode.badLength.code = 2 ∧ ErrCode.addrRange.code = 3 ∧
      ErrCode.noncanonical.code = 4 ∧ ErrCode.malformedPoint.code = 5 ∧ ErrCode.nonInvertible.code = 6 ∧
      ErrCode.degenerateScalar.code = 7) ∧
    Status.zero.word = 0 ∧ ∀ (s : State) (v : Word), hostAct (.csrWrite 2 v) s = .next s

/-- R36: the fields of CFG; 0x0000000105080C10 with the default parameters; writes are ignored. -/
def Obligations.CfgRegisterFields : Prop :=
  (∀ c : Config,
    (cfgWord c).extractLsb' 0 8 = BitVec.ofNat 8 c.wmemAw ∧ (cfgWord c).extractLsb' 8 8 = 12 ∧
      (cfgWord c).extractLsb' 16 8 = 8 ∧ (cfgWord c).extractLsb' 24 8 = 5 ∧ (cfgWord c).extractLsb' 32 8 = 1 ∧
      (cfgWord c).extractLsb' 40 24 = 0 ∧ (c.wmemAw = 16 → cfgWord c = 0x0000000105080C10)) ∧
    ∀ (s : State) (v : Word), hostAct (.csrWrite 4 v) s = .next s

/-- R75: a CMD write is accepted when idle, whatever the word, and dropped with OVR set when busy. -/
def Obligations.CmdWriteAcceptedOrDropped : Prop :=
  ∀ (s : State) (v : Word),
    (s.status.busy = false →
      hostAct (.csrWrite 0 v) s = .next { s with
        cmd := v
        plen := s.len
        status := { busy := true, done := false, err := false, ovr := s.status.ovr, errCode := .none } }) ∧
    (s.status.busy = true → hostAct (.csrWrite 0 v) s = .next { s with status := { s.status with ovr := true } })

/-- R434: LEN may be written at any time; it is latched into PLEN at acceptance, so a later write does not touch the command in
flight; completion does not clear it. -/
def Obligations.LenIsLatchedAtAcceptance : Prop :=
  (∀ (s : State) (v : Word), hostAct (.csrWrite 1 v) s = .next { s with len := v }) ∧
    (∀ (s : State) (v : Word), s.status.busy = false →
      ∃ t, hostAct (.csrWrite 0 v) s = .next t ∧ t.plen = s.len ∧ t.len = s.len) ∧
    (∀ (i : Instr) (s t : State) (v : Word), exec i s = .next t → exec i { s with len := v } = .next { t with len := v }) ∧
    ∀ (i : Instr) (s t : State), exec i s = .next t → t.len = s.len

/-- R37: a CTRL write clears the status (CLR) or performs the soft reset (SRST); SRST dominates, other bits are ignored, a write of 0
does nothing, and CTRL reads 0. -/
def Obligations.CtrlWriteClearsOrResets : Prop :=
  ∀ (s : State) (v : Word),
    (v.getLsbD 1 = true → hostAct (.csrWrite 3 v) s = .next (softReset s)) ∧
    (v.getLsbD 1 = false → v.getLsbD 0 = true →
      hostAct (.csrWrite 3 v) s = .next { s with
        status := { busy := s.status.busy, done := false, err := false, ovr := false, errCode := .none } }) ∧
    (v.getLsbD 1 = false → v.getLsbD 0 = false → hostAct (.csrWrite 3 v) s = .next s) ∧
    csrValue s 3 = 0

/-- R421: the soft reset. CMD, LEN, STATUS and PLEN take their reset values; WMEM is kept, but the destination words of a legal
command in flight become unspecified. -/
def Obligations.SoftResetAbandonsTheCommandInFlight : Prop :=
  ∀ s : State,
    (softReset s).cmd = 0 ∧ (softReset s).len = 0 ∧ (softReset s).plen = 0 ∧ (softReset s).status.word = 0 ∧
      (softReset s).config = s.config ∧
      (s.status.busy = false → ∀ x, (softReset s).wmem.read x = s.wmem.read x) ∧
      (∀ e, s.status.busy = true → decode s.cmd = .error e → ∀ x, (softReset s).wmem.read x = s.wmem.read x) ∧
      ∀ i, s.status.busy = true → decode s.cmd = .ok i → ∀ x, (softReset s).wmem.read x =
        if (shapeOf s.plen.toNat i).d.base ≤ x ∧ x < (shapeOf s.plen.toNat i).d.base + (shapeOf s.plen.toNat i).d.len
        then none else s.wmem.read x

/-- R420: hardware reset, from any state; a command in flight neither completes nor writes. -/
def Obligations.HardwareResetFromAnyState : Prop :=
  ∀ s : State, ∃ t, takeTurn .hardwareReset s = .next t ∧ hardwareReset s = t ∧
    t.cmd = 0 ∧ t.len = 0 ∧ t.status.word = 0 ∧ t.plen = 0 ∧ csrValue t 4 = csrValue s 4 ∧
      (∀ a, t.wmem.read a = none) ∧ t.config = s.config ∧
      ∀ v, ∃ u, hostAct (.csrWrite 0 v) t = .next u ∧ u.status.busy = true ∧ u.cmd = v

/-- R71 and R73: the host's one-word accesses to WMEM (of R40's 2^WMEM_AW words), and the model faults of an unspecified word and of a busy engine.
The list `replies` is the model's record of the words returned (log 4). -/
def Obligations.HostMemoryAccess : Prop :=
  (∀ c : Config, c.wmemWords = 2 ^ c.wmemAw) ∧ ∀ (s : State) (a : Nat) (v : Word), a < s.config.wmemWords →
    (s.status.busy = false → ∃ m, hostAct (.memWrite a v) s = .next { s with wmem := m } ∧
      m.read a = some v ∧ ∀ b, b ≠ a → m.read b = s.wmem.read b) ∧
    (s.status.busy = false → s.wmem.read a = some v →
      hostAct (.memRead a) s = .next { s with replies := v :: s.replies }) ∧
    (s.status.busy = false → s.wmem.read a = none → hostAct (.memRead a) s = .fault (.uninitRead a)) ∧
    (s.status.busy = true → hostAct (.memRead a) s = .fault (.hostBusyAccess a) ∧
      hostAct (.memWrite a v) s = .fault (.hostBusyAccess a))

/-- R118: the pseudo-commands expand as the table says; `wait` reads STATUS and is repeated until BUSY reads 0.
That a poll is one host action is the model's choice (log 22), and `replies` is its record of the words returned (log 4). -/
def Obligations.PseudoCommandsExpand : Prop :=
  (∀ d a : Nat, pseudoFsqr d a = [.csrWrite 0 (encode (.fmul d a a))] ∧ pseudoFdbl d a = [.csrWrite 0 (encode (.fadd d a a))] ∧
    pseudoEsqr d a = [.csrWrite 0 (encode (.emul d a a))]) ∧
    (∀ (i : Instr) (n : Word), pseudoWithLen i n = [.csrWrite 1 n, .csrWrite 0 (encode i)]) ∧
    pseudoClr = [.csrWrite 3 1] ∧ pseudoSrst = [.csrWrite 3 2] ∧
    (∀ (s : State), s.status.busy = false →
      hostAct .wait s = .next { s with replies := s.status.word :: s.replies }) ∧
    ∀ (s : State), s.status.busy = true →
      hostAct .wait s = .next { s with replies := s.status.word :: s.replies, program := .wait :: s.program }

/-! The engine step -/

/-- R70, R81, R115 and R420: a step is the action of the agent whose turn it is. The listed turn, or with no turn listed the engine
when it is busy and else the host, acts on the state with the turn, and for the host the action, taken off: the engine's turn
executes the command in CMD, the host's turn its next action, the platform's turn the hardware reset; an agent with nothing to do
changes nothing else; and `withFetchWord` makes the next step execute the given word. The lists of turns and of host actions, their
order and `withFetchWord` are the model's choices (logs 3, 7, 12 and 13). -/
def Obligations.StepExecutesTheCommandInFlight : Prop :=
  (∀ (s : State) (i : Instr) (rest : List Turn), s.turns = .engine :: rest → s.status.busy = true → decode s.cmd = .ok i →
    step s = exec i { s with turns := rest }) ∧
    (∀ (s : State) (i : Instr), s.turns = [] → s.status.busy = true → decode s.cmd = .ok i → step s = exec i s) ∧
    (∀ (s : State) (rest : List Turn), s.turns = .engine :: rest → step s = engineTurn { s with turns := rest }) ∧
    (∀ s : State, s.turns = [] → s.status.busy = true → step s = engineTurn s) ∧
    (∀ (s : State) (rest : List Turn) (op : HostOp) (ops : List HostOp), s.turns = .host :: rest → s.program = op :: ops →
      step s = hostAct op { s with turns := rest, program := ops }) ∧
    (∀ (s : State) (op : HostOp) (ops : List HostOp), s.turns = [] → s.status.busy = false → s.program = op :: ops →
      step s = hostAct op { s with program := ops }) ∧
    (∀ (s : State) (rest : List Turn), s.turns = .hardwareReset :: rest →
      step s = .next (hardwareReset { s with turns := rest })) ∧
    (∀ (s : State) (rest : List Turn),
      (s.turns = .engine :: rest ∧ s.status.busy = false ∨ s.turns = .host :: rest ∧ s.program = []) →
      step s = .next { s with turns := rest }) ∧
    (∀ s : State, s.turns = [] → s.status.busy = false → s.program = [] → step s = .next s) ∧
    ∀ (s : State) (w : Word) (i : Instr), decode w = .ok i → step (s.withFetchWord 64 w.toNat) = exec i { s with
      cmd := w
      plen := s.len
      status := { busy := true, done := false, err := false, ovr := s.status.ovr, errCode := .none } }

/-- R113: an illegal command word (reserved bits, or an unassigned opcode) is accepted, and completes with ILLEGAL_CMD, reading and
writing nothing. -/
def Obligations.IllegalCommandCompletesWithIllegalCmd : Prop :=
  (∀ (s : State) (w : Word), s.status.busy = false → ∃ t, hostAct (.csrWrite 0 w) s = .next t ∧ t.cmd = w ∧ t.status.busy = true) ∧
    (∀ s : State, s.status.busy = true → (fieldRSV s.cmd ≠ 0 ∨ fieldOP s.cmd ∉ assignedOpcodes) →
      engineTurn s = .next { s with
        status := { busy := false, done := true, err := true, ovr := s.status.ovr, errCode := .illegalCmd } }) ∧
    ErrCode.illegalCmd.code = 1 ∧ 0x00 ∉ assignedOpcodes

/-- R112: the length checks, then the range checks, before any operand is read; a range never wraps, and one of length 0 is not
checked. -/
def Obligations.LengthAndRangeChecksComeFirst : Prop :=
  (∀ (s : State) (d a : Nat), s.config.wmemWords < s.plen.toNat →
    exec (.hashnp d a) s = .next (s.completeError .badLength) ∧ exec (.hashn d a) s = .next (s.completeError .badLength) ∧
      exec (.h2q d a) s = .next (s.completeError .badLength)) ∧
    (∀ (s : State) (d a b : Nat), (s.plen.toNat = 0 ∨ s.config.wmemWords < s.plen.toNat) →
      exec (.sign d a b) s = .next (s.completeError .badLength) ∧
        exec (.verify d a b) s = .next (s.completeError .badLength)) ∧
    ∀ (s : State) (i : Instr) (r : Range), lengthLegal s.config.wmemWords s.plen.toNat i = true →
      (r = (shapeOf s.plen.toNat i).a ∨ r = (shapeOf s.plen.toNat i).b ∨ r = (shapeOf s.plen.toNat i).d) →
      0 < r.len → s.config.wmemWords < r.base + r.len → exec i s = .next (s.completeError .addrRange)

/-- R388, R110: with the length and range checks passed, a command with an unspecified source word is the model fault UninitRead
at such a word; a command faults in no other way and never refuses. -/
def Obligations.UnspecifiedSourceWordFaults : Prop :=
  ∀ (s : State) (i : Instr),
    (lengthLegal s.config.wmemWords s.plen.toNat i = true → (shapeOf s.plen.toNat i).inside s.config.wmemWords = true →
      (∃ x, SourceUnspecified s i x) → ∃ x, SourceUnspecified s i x ∧ exec i s = .fault (.uninitRead x)) ∧
    (∀ f, exec i s = .fault f → ∃ x, f = .uninitRead x ∧ SourceUnspecified s i x) ∧
    ∀ r, exec i s ≠ .refused r

/-- R389: with WMEM fully written, every command word in flight completes, with a result or with one error code. -/
def Obligations.EveryCommandCompletesOnWrittenMemory : Prop :=
  ∀ s : State, s.status.busy = true → FullyWritten s →
    ∃ t, engineTurn s = .next t ∧ t.status.busy = false ∧ t.status.done = true ∧ (t.status.err = true ↔ t.status.errCode ≠ .none)

/-- R381: completion with error code c, and that a command that completes with an error writes no WMEM word and changes nothing but
STATUS. The state `s.completeError c` that the error clauses of the other statements end in records exactly the code c, and the host
reads it in STATUS. -/
def Obligations.ErrorCompletionChangesOnlyStatus : Prop :=
  (∀ (s : State) (c : ErrCode),
    s.completeError c =
      { s with status := { busy := false, done := true, err := true, ovr := s.status.ovr, errCode := c } } ∧
    (csrValue (s.completeError c) 2).extractLsb' 8 8 = c.code) ∧
  ∀ (s t : State) (i : Instr), exec i s = .next t → t.status.err = true →
    ∃ c, c ≠ .none ∧
      t = { s with status := { busy := false, done := true, err := true, ovr := s.status.ovr, errCode := c } }

/-- The frame of all 25 commands (R115, R44): CMD, LEN, PLEN, the configuration, OVR and the host's side are unchanged; BUSY is 0
and DONE is 1 after; and every WMEM word outside the nD destination words at DA reads as before. -/
def Obligations.CommandFrame : Prop :=
  ∀ (s t : State) (i : Instr), exec i s = .next t →
    t.cmd = s.cmd ∧ t.len = s.len ∧ t.plen = s.plen ∧ t.config = s.config ∧ t.program = s.program ∧ t.turns = s.turns ∧
      t.replies = s.replies ∧ t.status.ovr = s.status.ovr ∧ t.status.busy = false ∧ t.status.done = true ∧
      (t.status.err = false → t.status.errCode = .none) ∧
      ∀ x, (x < (shapeOf s.plen.toNat i).d.base ∨ (shapeOf s.plen.toNat i).d.base + (shapeOf s.plen.toNat i).d.len ≤ x) →
        t.wmem.read x = s.wmem.read x

/-- The state `finish s d r` that the command statements below end in (R111, R115, R44): word k of the result stands at d + k, every
other word reads as before, STATUS reports completion without error, and nothing else changes. -/
def Obligations.FinishStoresTheResultWords : Prop :=
  ∀ (s : State) (d : Nat) (r : List Nat),
    (∀ k, k < r.length → (finish s d r).wmem.read (d + k) = some (BitVec.ofNat 64 (r.getD k 0))) ∧
    (∀ x, (x < d ∨ d + r.length ≤ x) → (finish s d r).wmem.read x = s.wmem.read x) ∧
    finish s d r = { s with
      wmem := (finish s d r).wmem
      status := { busy := false, done := true, err := false, ovr := s.status.ovr, errCode := .none } }

/-! The base-field commands -/

/-- R150. -/
def Obligations.FaddAddsModuloP : Prop :=
  EncodedAs 0x01 .fadd ∧
    ∀ (s : State) (d a b : Nat),
      ((¬Room s a 1 ∨ ¬Room s b 1 ∨ ¬Room s d 1) → exec (.fadd d a b) s = .next (s.completeError .addrRange)) ∧
      ∀ x z : Word, Operand s a [x] → Operand s b [z] → Room s d 1 →
        (x.toNat < P → z.toNat < P → exec (.fadd d a b) s = .next (finish s d [(x.toNat + z.toNat) % P])) ∧
        ((P ≤ x.toNat ∨ P ≤ z.toNat) → exec (.fadd d a b) s = .next (s.completeError .noncanonical))

/-- R151. -/
def Obligations.FsubSubtractsModuloP : Prop :=
  EncodedAs 0x02 .fsub ∧
    ∀ (s : State) (d a b : Nat),
      ((¬Room s a 1 ∨ ¬Room s b 1 ∨ ¬Room s d 1) → exec (.fsub d a b) s = .next (s.completeError .addrRange)) ∧
      ∀ x z : Word, Operand s a [x] → Operand s b [z] → Room s d 1 →
        (x.toNat < P → z.toNat < P →
          exec (.fsub d a b) s = .next (finish s d [(((x.toNat : Int) - (z.toNat : Int)) % (P : Int)).toNat])) ∧
        ((P ≤ x.toNat ∨ P ≤ z.toNat) → exec (.fsub d a b) s = .next (s.completeError .noncanonical))

/-- R152. -/
def Obligations.FnegNegatesModuloP : Prop :=
  EncodedAs 0x03 (fun d a _ => .fneg d a) ∧
    ∀ (s : State) (d a : Nat),
      ((¬Room s a 1 ∨ ¬Room s d 1) → exec (.fneg d a) s = .next (s.completeError .addrRange)) ∧
      ∀ x : Word, Operand s a [x] → Room s d 1 →
        (x.toNat < P → exec (.fneg d a) s = .next (finish s d [((-(x.toNat : Int)) % (P : Int)).toNat])) ∧
        (P ≤ x.toNat → exec (.fneg d a) s = .next (s.completeError .noncanonical))

/-- R153. -/
def Obligations.FmulMultipliesModuloP : Prop :=
  EncodedAs 0x04 .fmul ∧
    ∀ (s : State) (d a b : Nat),
      ((¬Room s a 1 ∨ ¬Room s b 1 ∨ ¬Room s d 1) → exec (.fmul d a b) s = .next (s.completeError .addrRange)) ∧
      ∀ x z : Word, Operand s a [x] → Operand s b [z] → Room s d 1 →
        (x.toNat < P → z.toNat < P → exec (.fmul d a b) s = .next (finish s d [x.toNat * z.toNat % P])) ∧
        ((P ≤ x.toNat ∨ P ≤ z.toNat) → exec (.fmul d a b) s = .next (s.completeError .noncanonical))

/-- R154. -/
def Obligations.FinvInvertsOrSignalsZero : Prop :=
  EncodedAs 0x05 (fun d a _ => .finv d a) ∧
    ∀ (s : State) (d a : Nat),
      ((¬Room s a 1 ∨ ¬Room s d 1) → exec (.finv d a) s = .next (s.completeError .addrRange)) ∧
      ∀ x : Word, Operand s a [x] → Room s d 1 →
        (x.toNat ≠ 0 → x.toNat < P → exec (.finv d a) s = .next (finish s d [x.toNat ^ (P - 2) % P])) ∧
        (x.toNat = 0 → exec (.finv d a) s = .next (s.completeError .nonInvertible)) ∧
        (P ≤ x.toNat → exec (.finv d a) s = .next (s.completeError .noncanonical))

/-- R155. -/
def Obligations.Fpow7RaisesToTheSeventhPower : Prop :=
  EncodedAs 0x06 (fun d a _ => .fpow7 d a) ∧
    ∀ (s : State) (d a : Nat),
      ((¬Room s a 1 ∨ ¬Room s d 1) → exec (.fpow7 d a) s = .next (s.completeError .addrRange)) ∧
      ∀ x : Word, Operand s a [x] → Room s d 1 →
        (x.toNat < P → exec (.fpow7 d a) s = .next (finish s d [x.toNat ^ 7 % P])) ∧
        (P ≤ x.toNat → exec (.fpow7 d a) s = .next (s.completeError .noncanonical))

/-- R156 and R157: the reducer's commands take any words. -/
def Obligations.FredAndFcanonReduceAnyWords : Prop :=
  EncodedAs 0x07 (fun d a _ => .fred d a) ∧ EncodedAs 0x08 (fun d a _ => .fcanon d a) ∧
    ∀ (s : State) (d a : Nat),
      ((¬Room s a 2 ∨ ¬Room s d 1) → exec (.fred d a) s = .next (s.completeError .addrRange)) ∧
      ((¬Room s a 1 ∨ ¬Room s d 1) → exec (.fcanon d a) s = .next (s.completeError .addrRange)) ∧
      (∀ lo hi : Word, Operand s a [lo, hi] → Room s d 1 →
        exec (.fred d a) s = .next (finish s d [(2 ^ 64 * hi.toNat + lo.toNat) % P])) ∧
      ∀ w : Word, Operand s a [w] → Room s d 1 → exec (.fcanon d a) s = .next (finish s d [w.toNat % P])

/-! The extension-field commands -/

/-- R200 and R201: componentwise addition and subtraction. -/
def Obligations.EaddAndEsubActComponentwise : Prop :=
  EncodedAs 0x10 .eadd ∧ EncodedAs 0x11 .esub ∧
    ∀ (s : State) (d a b : Nat),
      ((¬Room s a 5 ∨ ¬Room s b 5 ∨ ¬Room s d 5) →
        exec (.eadd d a b) s = .next (s.completeError .addrRange) ∧
          exec (.esub d a b) s = .next (s.completeError .addrRange)) ∧
      ∀ va vb : List Word, va.length = 5 → vb.length = 5 → Operand s a va → Operand s b vb → Room s d 5 →
        (AllCanonical va → AllCanonical vb →
          exec (.eadd d a b) s = .next (finish s d ((List.range 5).map fun k => (feAt va k + feAt vb k) % P)) ∧
          exec (.esub d a b) s = .next (finish s d ((List.range 5).map fun k =>
            (((feAt va k : Int) - (feAt vb k : Int)) % (P : Int)).toNat))) ∧
        ((¬AllCanonical va ∨ ¬AllCanonical vb) →
          exec (.eadd d a b) s = .next (s.completeError .noncanonical) ∧
            exec (.esub d a b) s = .next (s.completeError .noncanonical))

/-- R202 with R191: coefficient k of the product is Σ_{i+j=k} a_i·b_j + W·Σ_{i+j=k+5} a_i·b_j modulo P. -/
def Obligations.EmulMultipliesModuloTheQuintic : Prop :=
  EncodedAs 0x12 .emul ∧
    ∀ (s : State) (d a b : Nat),
      ((¬Room s a 5 ∨ ¬Room s b 5 ∨ ¬Room s d 5) → exec (.emul d a b) s = .next (s.completeError .addrRange)) ∧
      ∀ va vb : List Word, va.length = 5 → vb.length = 5 → Operand s a va → Operand s b vb → Room s d 5 →
        (AllCanonical va → AllCanonical vb →
          exec (.emul d a b) s = .next (finish s d ((List.range 5).map fun k =>
            ((List.range 5).map fun j =>
              if j ≤ k then feAt va j * feAt vb (k - j) else 3 * (feAt va j * feAt vb (k + 5 - j))).sum % P))) ∧
        ((¬AllCanonical va ∨ ¬AllCanonical vb) → exec (.emul d a b) s = .next (s.completeError .noncanonical))

/-- R203: the inverse of `ExtensionFieldIsAField` is stored; zero is NON_INVERTIBLE and nothing is written. -/
def Obligations.EinvInvertsOrSignalsZero : Prop :=
  EncodedAs 0x13 (fun d a _ => .einv d a) ∧
    ∀ (s : State) (d a : Nat),
      ((¬Room s a 5 ∨ ¬Room s d 5) → exec (.einv d a) s = .next (s.completeError .addrRange)) ∧
      ∀ va : List Word, va.length = 5 → Operand s a va → Room s d 5 →
        (AllCanonical va → (∃ k, k < 5 ∧ feAt va k ≠ 0) →
          exec (.einv d a) s = .next (finish s d (extList (extInv (extAt va 0))))) ∧
        ((∀ k, k < 5 → feAt va k = 0) → exec (.einv d a) s = .next (s.completeError .nonInvertible)) ∧
        (¬AllCanonical va → exec (.einv d a) s = .next (s.completeError .noncanonical))

/-- R204. -/
def Obligations.EembedEmbedsTheConstantTerm : Prop :=
  EncodedAs 0x14 (fun d a _ => .eembed d a) ∧
    ∀ (s : State) (d a : Nat),
      ((¬Room s a 1 ∨ ¬Room s d 5) → exec (.eembed d a) s = .next (s.completeError .addrRange)) ∧
      ∀ x : Word, Operand s a [x] → Room s d 5 →
        (x.toNat < P → exec (.eembed d a) s = .next (finish s d [x.toNat, 0, 0, 0, 0])) ∧
        (P ≤ x.toNat → exec (.eembed d a) s = .next (s.completeError .noncanonical))

/-- R205: the verdict 1 or 0 is a word. -/
def Obligations.EeqComparesAllCoefficients : Prop :=
  EncodedAs 0x15 .eeq ∧
    ∀ (s : State) (d a b : Nat),
      ((¬Room s a 5 ∨ ¬Room s b 5 ∨ ¬Room s d 1) → exec (.eeq d a b) s = .next (s.completeError .addrRange)) ∧
      ∀ va vb : List Word, va.length = 5 → vb.length = 5 → Operand s a va → Operand s b vb → Room s d 1 →
        (AllCanonical va → AllCanonical vb → exec (.eeq d a b) s = .next (finish s d [if va = vb then 1 else 0])) ∧
        ((¬AllCanonical va ∨ ¬AllCanonical vb) → exec (.eeq d a b) s = .next (s.completeError .noncanonical))

/-! The permutation and hash commands -/

/-- R240: the 12 words of Perm (see `PermuteIteratesElementwiseRounds`) are stored. -/
def Obligations.PermStoresThePermutedState : Prop :=
  EncodedAs 0x20 (fun d a _ => .perm d a) ∧
    ∀ (s : State) (d a : Nat),
      ((¬Room s a 12 ∨ ¬Room s d 12) → exec (.perm d a) s = .next (s.completeError .addrRange)) ∧
      ∀ va : List Word, va.length = 12 → Operand s a va → Room s d 12 →
        (AllCanonical va → exec (.perm d a) s = .next (finish s d (permute s.config (numbers va)))) ∧
        (¬AllCanonical va → exec (.perm d a) s = .next (s.completeError .noncanonical))

/-- R270, R271 and R272: HASHNP and HASHN store the 4-word digest, H2Q the 5 coefficients, of the PLEN input words; with no input
nothing is read and SA is not checked. -/
def Obligations.HashCommandsStoreTheSqueezedWords : Prop :=
  EncodedAs 0x21 (fun d a _ => .hashnp d a) ∧ EncodedAs 0x22 (fun d a _ => .hashn d a) ∧
    EncodedAs 0x23 (fun d a _ => .h2q d a) ∧
    ∀ (s : State) (d a : Nat),
      (s.config.wmemWords < s.plen.toNat →
        exec (.hashnp d a) s = .next (s.completeError .badLength) ∧ exec (.hashn d a) s = .next (s.completeError .badLength) ∧
          exec (.h2q d a) s = .next (s.completeError .badLength)) ∧
      (s.plen.toNat ≤ s.config.wmemWords → (0 < s.plen.toNat ∧ ¬Room s a s.plen.toNat ∨ ¬Room s d 4) →
        exec (.hashnp d a) s = .next (s.completeError .addrRange) ∧
          exec (.hashn d a) s = .next (s.completeError .addrRange)) ∧
      (s.plen.toNat ≤ s.config.wmemWords → (0 < s.plen.toNat ∧ ¬Room s a s.plen.toNat ∨ ¬Room s d 5) →
        exec (.h2q d a) s = .next (s.completeError .addrRange)) ∧
      ∀ va : List Word, va.length = s.plen.toNat → Operand s a va → s.plen.toNat ≤ s.config.wmemWords →
        (AllCanonical va → Room s d 4 →
          exec (.hashnp d a) s = .next (finish s d (sponge s.config (numbers va) 4)) ∧
            exec (.hashn d a) s = .next (finish s d (sponge s.config (numbers va) 4))) ∧
        (AllCanonical va → Room s d 5 → exec (.h2q d a) s = .next (finish s d (sponge s.config (numbers va) 5))) ∧
        (¬AllCanonical va → Room s d 4 →
          exec (.hashnp d a) s = .next (s.completeError .noncanonical) ∧
            exec (.hashn d a) s = .next (s.completeError .noncanonical)) ∧
        (¬AllCanonical va → Room s d 5 → exec (.h2q d a) s = .next (s.completeError .noncanonical))

/-! The group commands -/

/-- R310: the sum of two well-formed points; NONCANONICAL of either operand comes before MALFORMED_POINT of either. -/
def Obligations.PaddAddsPoints : Prop :=
  EncodedAs 0x30 .padd ∧
    ∀ (s : State) (d a b : Nat),
      ((¬Room s a 11 ∨ ¬Room s b 11 ∨ ¬Room s d 11) → exec (.padd d a b) s = .next (s.completeError .addrRange)) ∧
      ∀ va vb : List Word, va.length = 11 → vb.length = 11 → Operand s a va → Operand s b vb → Room s d 11 →
        (∀ q1 q2, EncodesPoint s.config va q1 → EncodesPoint s.config vb q2 →
          exec (.padd d a b) s = .next (finish s d (encPoint (pointAdd s.config q1 q2)))) ∧
        ((¬CanonicalCoords va ∨ ¬CanonicalCoords vb) → exec (.padd d a b) s = .next (s.completeError .noncanonical)) ∧
        (CanonicalCoords va → CanonicalCoords vb →
          ((∀ q, ¬EncodesPoint s.config va q) ∨ ∀ q, ¬EncodesPoint s.config vb q) →
          exec (.padd d a b) s = .next (s.completeError .malformedPoint))

/-- R311. -/
def Obligations.PdblDoublesAPoint : Prop :=
  EncodedAs 0x31 (fun d a _ => .pdbl d a) ∧
    ∀ (s : State) (d a : Nat),
      ((¬Room s a 11 ∨ ¬Room s d 11) → exec (.pdbl d a) s = .next (s.completeError .addrRange)) ∧
      ∀ va : List Word, va.length = 11 → Operand s a va → Room s d 11 →
        (∀ q, EncodesPoint s.config va q → exec (.pdbl d a) s = .next (finish s d (encPoint (pointAdd s.config q q)))) ∧
        (¬CanonicalCoords va → exec (.pdbl d a) s = .next (s.completeError .noncanonical)) ∧
        (CanonicalCoords va → (∀ q, ¬EncodesPoint s.config va q) →
          exec (.pdbl d a) s = .next (s.completeError .malformedPoint))

/-- R312: the verdict on any 11 words. -/
def Obligations.PvalidJudgesAnyEncoding : Prop :=
  EncodedAs 0x32 (fun d a _ => .pvalid d a) ∧
    ∀ (s : State) (d a : Nat),
      ((¬Room s a 11 ∨ ¬Room s d 1) → exec (.pvalid d a) s = .next (s.completeError .addrRange)) ∧
      ∀ va : List Word, va.length = 11 → Operand s a va → Room s d 1 →
        ((∃ q, EncodesPoint s.config va q) → exec (.pvalid d a) s = .next (finish s d [1])) ∧
        ((∀ q, ¬EncodesPoint s.config va q) → exec (.pvalid d a) s = .next (finish s d [0]))

/-- R313: every scalar is legal, and only the point is checked. -/
def Obligations.PmulMultipliesAPoint : Prop :=
  EncodedAs 0x33 .pmul ∧
    ∀ (s : State) (d a b : Nat),
      ((¬Room s a 11 ∨ ¬Room s b 5 ∨ ¬Room s d 11) → exec (.pmul d a b) s = .next (s.completeError .addrRange)) ∧
      ∀ va vb : List Word, va.length = 11 → vb.length = 5 → Operand s a va → Operand s b vb → Room s d 11 →
        (∀ q, EncodesPoint s.config va q →
          exec (.pmul d a b) s = .next (finish s d (encPoint (scalarMul s.config (scalarValue vb) q)))) ∧
        (¬CanonicalCoords va → exec (.pmul d a b) s = .next (s.completeError .noncanonical)) ∧
        (CanonicalCoords va → (∀ q, ¬EncodesPoint s.config va q) →
          exec (.pmul d a b) s = .next (s.completeError .malformedPoint))

/-- R314: the public key of a secret key, or DEGENERATE_SCALAR. -/
def Obligations.PkgenDerivesThePublicKey : Prop :=
  EncodedAs 0x34 (fun d a _ => .pkgen d a) ∧
    ∀ (s : State) (d a : Nat),
      ((¬Room s a 5 ∨ ¬Room s d 11) → exec (.pkgen d a) s = .next (s.completeError .addrRange)) ∧
      ∀ va : List Word, va.length = 5 → Operand s a va → Room s d 11 →
        (scalarValue va % s.config.groupN ≠ 0 →
          exec (.pkgen d a) s = .next (finish s d (encPoint (scalarMul s.config (scalarValue va) s.config.gen)))) ∧
        (scalarValue va % s.config.groupN = 0 → exec (.pkgen d a) s = .next (s.completeError .degenerateScalar))

/-! The signature commands -/

/-- R350, with R342 to R345: the signature of the first nonce try j whose k and R are usable; no usable try, or a key ≡ 0, is
DEGENERATE_SCALAR. The command answers what the function `signMessage` of `SignThenVerifyAccepts` answers. -/
def Obligations.SignStoresTheSignature : Prop :=
  EncodedAs 0x40 .sign ∧
    ∀ (s : State) (d a b : Nat),
      ((s.plen.toNat = 0 ∨ s.config.wmemWords < s.plen.toNat) → exec (.sign d a b) s = .next (s.completeError .badLength)) ∧
      (1 ≤ s.plen.toNat → s.plen.toNat ≤ s.config.wmemWords →
        (¬Room s a s.plen.toNat ∨ ¬Room s b 5 ∨ ¬Room s d 16) →
        exec (.sign d a b) s = .next (s.completeError .addrRange)) ∧
      ∀ va vb : List Word, va.length = s.plen.toNat → 1 ≤ va.length → vb.length = 5 → Operand s a va → Operand s b vb →
        Room s d 16 → ∀ (sk : Nat) (k : Nat → Nat) (R : Nat → Point), sk = scalarValue vb % s.config.groupN →
        (∀ j, k j = scalarOf (sponge s.config ([1] ++ limbs32 sk ++ [va.length] ++ numbers va ++ [j]) 5) % s.config.groupN) →
        (∀ j, R j = scalarMul s.config (k j) s.config.gen) →
        (AllCanonical va → exec (.sign d a b) s = match signMessage s.config (numbers va) (scalarValue vb) with
          | .ok sig => .next (finish s d sig)
          | .error e => .next (s.completeError e)) ∧
        (AllCanonical va → sk ≠ 0 → ∀ j, j < 2 ^ 32 → (∀ l, l < j → k l = 0 ∨ R l = .identity) → k j ≠ 0 → R j ≠ .identity →
          exec (.sign d a b) s = .next (finish s d (encPoint (R j) ++ scalarWords
            ((k j + scalarOf (sponge s.config ([2] ++ encPoint (R j) ++ encPoint (scalarMul s.config sk s.config.gen)
              ++ [va.length] ++ numbers va) 4) % s.config.groupN * sk) % s.config.groupN)))) ∧
        (AllCanonical va → (sk = 0 ∨ ∀ j, j < 2 ^ 32 → k j = 0 ∨ R j = .identity) →
          exec (.sign d a b) s = .next (s.completeError .degenerateScalar)) ∧
        (¬AllCanonical va → exec (.sign d a b) s = .next (s.completeError .noncanonical))

/-- R351 with R346: a bad public key is an error; everything else about message and signature is the verdict. The command answers what
the function `verifyMessage` of `SignThenVerifyAccepts` answers. -/
def Obligations.VerifyStoresTheVerdict : Prop :=
  EncodedAs 0x41 .verify ∧
    ∀ (s : State) (d a b : Nat),
      ((s.plen.toNat = 0 ∨ s.config.wmemWords < s.plen.toNat) → exec (.verify d a b) s = .next (s.completeError .badLength)) ∧
      (1 ≤ s.plen.toNat → s.plen.toNat ≤ s.config.wmemWords →
        (¬Room s a s.plen.toNat ∨ ¬Room s b 27 ∨ ¬Room s d 1) →
        exec (.verify d a b) s = .next (s.completeError .addrRange)) ∧
      ∀ m pkv rv sv : List Word, m.length = s.plen.toNat → 1 ≤ m.length → pkv.length = 11 → rv.length = 11 → sv.length = 5 →
        Operand s a m → Operand s b (pkv ++ rv ++ sv) → Room s d 1 →
        (exec (.verify d a b) s = match verifyMessage s.config m pkv (rv ++ sv) with
          | .ok v => .next (finish s d [v])
          | .error e => .next (s.completeError e)) ∧
        (¬CanonicalCoords pkv → exec (.verify d a b) s = .next (s.completeError .noncanonical)) ∧
        (CanonicalCoords pkv → (∀ q, ¬EncodesPoint s.config pkv q) →
          exec (.verify d a b) s = .next (s.completeError .malformedPoint)) ∧
        ∀ pk, EncodesPoint s.config pkv pk →
          ((pk = .identity ∨ ¬AllCanonical m ∨ (∀ q, ¬EncodesPoint s.config rv q) ∨ EncodesPoint s.config rv .identity ∨
              s.config.groupN ≤ scalarValue sv) →
            exec (.verify d a b) s = .next (finish s d [0])) ∧
          ∀ R, pk ≠ .identity → AllCanonical m → EncodesPoint s.config rv R → R ≠ .identity →
            scalarValue sv < s.config.groupN →
            exec (.verify d a b) s = .next (finish s d
              [if scalarMul s.config (scalarValue sv) s.config.gen = pointAdd s.config R (scalarMul s.config
                  (scalarOf (sponge s.config ([2] ++ encPoint R ++ encPoint pk ++ [m.length] ++ numbers m) 4)
                    % s.config.groupN) pk)
                then 1 else 0])

/-! The functions behind the commands -/

/-- R141 to R145 and R149: the functions of the base field as residues modulo P = 2^64 − 2^32 + 1 (R7), and the laws that R149 derives. -/
def Obligations.BaseFieldLaws : Prop :=
  P = 2 ^ 64 - 2 ^ 32 + 1 ∧ ∀ a b : Nat, a < P → b < P →
    (fpAdd a b = (a + b) % P ∧ fpSub a b = (a + P - b) % P ∧ fpNeg a = (P - a) % P ∧ fpMul a b = a * b % P ∧
      fpInv a = a ^ (P - 2) % P) ∧
    fpAdd a 0 = a ∧ fpMul a 1 = a ∧ fpAdd a (fpNeg a) = 0 ∧ (a ≠ 0 → fpMul a (fpInv a) = 1) ∧
      fpSub a b = fpAdd a (fpNeg b)

/-- R140, R141, R143 and R146: the ports and functions of the adder, with the four codes of its 2-bit `op` port, of the multiplier and
of the reducer. A port `none` is an unspecified output (log 15). -/
def Obligations.ArithmeticUnitPorts : Prop :=
  (AdderOp.add.code = 0b00 ∧ AdderOp.sub.code = 0b01 ∧ AdderOp.neg.code = 0b10 ∧ AdderOp.reserved.code = 0b11) ∧
    (∀ c : BitVec 2, ∃ op : AdderOp, op.code = c) ∧
    (∀ (op : AdderOp) (a b : Word),
      ((adderUnit op.code a b).nc = true ↔ P ≤ a.toNat ∨ ((op = .add ∨ op = .sub) ∧ P ≤ b.toNat)) ∧
      ((adderUnit op.code a b).nc = true ∨ op = .reserved → (adderUnit op.code a b).y = none) ∧
      ((adderUnit op.code a b).nc = false → op ≠ .reserved → ∃ y : Word, (adderUnit op.code a b).y = some y ∧ y.toNat < P ∧
        (op = .add → y.toNat = if P ≤ a.toNat + b.toNat then a.toNat + b.toNat - P else a.toNat + b.toNat) ∧
        (op = .sub → y.toNat = if b.toNat ≤ a.toNat then a.toNat - b.toNat else a.toNat + P - b.toNat) ∧
        (op = .neg → y.toNat = if a.toNat = 0 then 0 else P - a.toNat) ∧
        (op = .add → y.toNat = (a.toNat + b.toNat) % P) ∧
        (op = .sub → (y.toNat : Int) = ((a.toNat : Int) - (b.toNat : Int)) % (P : Int)) ∧
        (op = .neg → (y.toNat : Int) = (-(a.toNat : Int)) % (P : Int)))) ∧
    (∀ x : BitVec 128, (reducerUnit x).toNat = x.toNat % P) ∧
    ∀ a b : Word, ((multiplierUnit a b).nc = true ↔ P ≤ a.toNat ∨ P ≤ b.toNat) ∧
      ((multiplierUnit a b).nc = true → (multiplierUnit a b).y = none) ∧
      ((multiplierUnit a b).nc = false → ∃ y : Word, (multiplierUnit a b).y = some y ∧ y.toNat = a.toNat * b.toNat % P)

/-- R142 and R147 (informative in the spec): the 64-bit adder datapath and the Solinas reduction compute the residues of R141 and
R146. -/
def Obligations.WordDatapathsComputeTheResidues : Prop :=
  (∀ a b : Word, a.toNat < P → b.toNat < P →
    (adderAdd64 a b).toNat = fpAdd a.toNat b.toNat ∧ (adderSub64 a b).toNat = fpSub a.toNat b.toNat) ∧
    ∀ x : BitVec 128, solinas x = reducerUnit x

/-- R190, R191, R200 and R201: the operations of the extension, coefficient by coefficient, as `EaddAndEsubActComponentwise` and
`EmulMultipliesModuloTheQuintic` say of the commands. R194 (derived in the spec): the canonical elements are closed under addition, negation, subtraction and multiplication and form a
field, embedding is a ring homomorphism, and einv is the inverse. -/
def Obligations.ExtensionFieldIsAField : Prop :=
  (extZero = ⟨0, 0, 0, 0, 0⟩ ∧ extOne = ⟨1, 0, 0, 0, 0⟩ ∧ (∀ x, extEmbed x = ⟨x, 0, 0, 0, 0⟩) ∧
    ∀ a b : Ext, extCanonical a → extCanonical b →
      extList a = [a.c0, a.c1, a.c2, a.c3, a.c4] ∧
      extList (extAdd a b) = (List.range 5).map (fun k => ((extList a).getD k 0 + (extList b).getD k 0) % P) ∧
      extList (extSub a b) = (List.range 5).map (fun k => ((extList a).getD k 0 + P - (extList b).getD k 0) % P) ∧
      extList (extNeg a) = (List.range 5).map (fun k => (P - (extList a).getD k 0) % P) ∧
      extList (extMul a b) = (List.range 5).map (fun k => ((List.range 5).map fun j =>
        if j ≤ k then (extList a).getD j 0 * (extList b).getD (k - j) 0
        else 3 * ((extList a).getD j 0 * (extList b).getD (k + 5 - j) 0)).sum % P)) ∧
  (extCanonical extZero ∧ extCanonical extOne ∧ extZero ≠ extOne ∧ ∀ a b : Ext, extCanonical a → extCanonical b →
    extCanonical (extAdd a b) ∧ extCanonical (extNeg a) ∧ extCanonical (extSub a b) ∧ extCanonical (extMul a b)) ∧
    (∀ a b c : Ext, extCanonical a → extCanonical b → extCanonical c →
      extAdd (extAdd a b) c = extAdd a (extAdd b c) ∧ extAdd a b = extAdd b a ∧ extAdd a extZero = a ∧
      extAdd a (extNeg a) = extZero ∧ extSub a b = extAdd a (extNeg b) ∧
      extMul (extMul a b) c = extMul a (extMul b c) ∧ extMul a b = extMul b a ∧ extMul a extOne = a ∧
      extMul a (extAdd b c) = extAdd (extMul a b) (extMul a c)) ∧
    (∀ x z : Nat, x < P → z < P → extMul (extEmbed x) (extEmbed z) = extEmbed (fpMul x z) ∧
      extAdd (extEmbed x) (extEmbed z) = extEmbed (fpAdd x z)) ∧
    ∀ a : Ext, extCanonical a → a ≠ extZero → extCanonical (extInv a) ∧ extMul a (extInv a) = extOne

/-- R231 to R236: one round of the permutation, element by element, wherever the round's constants are canonical (L2 of R8); and Perm
is rounds 0 to R − 1 in order, and keeps a state of 12 canonical elements. -/
def Obligations.PermuteIteratesElementwiseRounds : Prop :=
  (∀ (c : Config) (r : Nat) (s t : List Nat), (∀ j, j < 12 → (c.permRc.getD r []).getD j 0 < P) → s.length = 12 →
    (∀ x ∈ s, x < P) → t.length = 12 →
    (∀ j, j < 12 → t.getD j 0 =
      if r < c.permRf / 2 ∨ c.permRf / 2 + c.permRp ≤ r ∨ j = 0
      then ((s.getD j 0 + (c.permRc.getD r []).getD j 0) % P) ^ 7 % P
      else (s.getD j 0 + (c.permRc.getD r []).getD j 0) % P) →
    (permRound c r s).length = 12 ∧
      ∀ i, i < 12 → (permRound c r s).getD i 0 =
        ((List.range 12).map fun j => (c.permMds.getD i []).getD j 0 * t.getD j 0).sum % P) ∧
    ∀ (c : Config) (s : List Nat),
      permute c s = (List.range (c.permRf + c.permRp)).foldl (fun s r => permRound c r s) s ∧
        (s.length = 12 → (∀ x ∈ s, x < P) → (permute c s).length = 12 ∧ ∀ x ∈ permute c s, x < P)

/-- R264 (derived in the spec): the sponge, chunk by chunk and element by element, under both policies. -/
def Obligations.SpongeFollowsTheSchedule : Prop :=
  ∀ (c : Config) (xs full last : List Nat) (q t nout : Nat), (∀ x ∈ xs, x < P) → q = xs.length / 8 → t = xs.length % 8 →
    full = (List.range q).foldl (fun s k => permute c ((List.range 12).map fun i =>
      if i < 8 then (s.getD i 0 + xs.getD (k * 8 + i) 0) % P else s.getD i 0)) (List.replicate 12 0) →
    last = ((List.range 12).map fun i =>
      if i < t then (full.getD i 0 + xs.getD (q * 8 + i) 0) % P else full.getD i 0) →
    sponge c xs nout = (if c.spongePolicy = .literal ∨ 0 < t then permute c last else last).take nout

/-- R265 (derived in the spec): the collisions of the missing padding, under each policy. -/
def Obligations.NoPaddingMakesTrailingZeroInvisible : Prop :=
  ∀ (c : Config) (xs : List Nat) (nout : Nat), (∀ x ∈ xs, x < P) →
    (c.spongePolicy = .literal → xs.length % 8 ≠ 7 → sponge c (xs ++ [0]) nout = sponge c xs nout) ∧
      (c.spongePolicy = .ceil → xs.length % 8 ≠ 0 → sponge c (xs ++ [0]) nout = sponge c xs nout)

/-- R106 and R341: a list of words is the number Σ_i w_i·2^(64·i), least significant limb first. R341 (derived in the spec): the limb
lists are the digits of their number. -/
def Obligations.LimbsRecomposeTheNumber : Prop :=
  (∀ v : List Nat, scalarOf v = ((List.range v.length).map fun i => 2 ^ (64 * i) * v.getD i 0).sum) ∧ ∀ x : Nat, x < 2 ^ 320 →
    (limbs32 x).length = 10 ∧ (∀ y ∈ limbs32 x, y < 2 ^ 32) ∧
      ((List.range 10).map fun i => 2 ^ (32 * i) * (limbs32 x).getD i 0).sum = x ∧
      (scalarWords x).length = 5 ∧ (∀ y ∈ scalarWords x, y < 2 ^ 64) ∧ scalarOf (scalarWords x) = x

/-- R291, with the layout of R105, the equation of R290 and the group set of R292: on 11 words with canonical coordinates, WellFormed
is, by the flag in word 10, that words 0 to 9 are 0 (flag 1), that x in words 0 to 4 and y in words 5 to 9 satisfy the curve equation
(flag 0), or false (any other flag). It holds exactly of the encodings of the group set's members, and Decode gives back the one
member encoded. Enc writes the identity as ten zeros and 1, and an affine point as x, y and 0. -/
def Obligations.WellFormedWordsAreEncodings : Prop :=
  encPoint .identity = [0, 0, 0, 0, 0, 0, 0, 0, 0, 0, 1] ∧
  (∀ x y : Ext, encPoint (.affine x y) =
    [x.c0, x.c1, x.c2, x.c3, x.c4, y.c0, y.c1, y.c2, y.c3, y.c4, 0]) ∧
  (∀ (c : Config) (x y : Ext), InGroup c (.affine x y) ↔ extCanonical x ∧ extCanonical y ∧
    extMul y y = extAdd (extAdd (extMul (extMul x x) x) (extMul c.curveA2 (extMul x x))) (extAdd (extMul c.curveA4 x) c.curveA6)) ∧
  ∀ (c : Config) (v : List Word), v.length = 11 → CanonicalCoords v →
    (feAt v 10 = 1 → (pointWellFormed c v = true ↔ ∀ k, k < 10 → feAt v k = 0)) ∧
    (feAt v 10 = 0 → ∀ x y : Ext, x = ⟨feAt v 0, feAt v 1, feAt v 2, feAt v 3, feAt v 4⟩ →
      y = ⟨feAt v 5, feAt v 6, feAt v 7, feAt v 8, feAt v 9⟩ → (pointWellFormed c v = true ↔
        extMul y y =
          extAdd (extAdd (extMul (extMul x x) x) (extMul c.curveA2 (extMul x x))) (extAdd (extMul c.curveA4 x) c.curveA6))) ∧
    (feAt v 10 ≠ 0 → feAt v 10 ≠ 1 → pointWellFormed c v = false) ∧
    (pointWellFormed c v = true ↔ ∃ q, EncodesPoint c v q) ∧
      ∀ q, EncodesPoint c v q → pointAt v = q ∧ ∀ q', EncodesPoint c v q' → q' = q

/-- R292 and R293: the special cases of the group law and its two slopes. -/
def Obligations.PointAddSpecialCases : Prop :=
  ∀ c : Config,
    (pointNeg .identity = .identity ∧ ∀ x y, pointNeg (.affine x y) = .affine x (extNeg y)) ∧
      (∀ q, pointAdd c .identity q = q ∧ pointAdd c q .identity = q) ∧
      (∀ q, InGroup c q → pointAdd c q (pointNeg q) = .identity ∧ InGroup c (pointNeg q)) ∧
      (∀ x : Ext, pointAdd c (.affine x extZero) (.affine x extZero) = .identity) ∧
      ∀ (x1 y1 x2 y2 l x3 : Ext),
        (x1 ≠ x2 ∧ l = extMul (extSub y2 y1) (extInv (extSub x2 x1)) ∨
          x1 = x2 ∧ extAdd y1 y2 ≠ extZero ∧
            l = extMul (extAdd (extAdd (extMul (extEmbed 3) (extMul x1 x1)) (extMul (extMul (extEmbed 2) c.curveA2) x1)) c.curveA4)
              (extInv (extMul (extEmbed 2) y1))) →
        x3 = extSub (extSub (extSub (extMul l l) c.curveA2) x1) x2 →
        pointAdd c (.affine x1 y1) (.affine x2 y2) = .affine x3 (extSub (extMul l (extSub x1 x3)) y1)

/-- R293: the sum of two members is a member (the spec marks this as general knowledge, not from its source), and no inverse of zero is
ever taken (derived in the spec). -/
def Obligations.PointAddStaysInTheGroup : Prop :=
  ∀ c : Config, extCanonical c.curveA2 → extCanonical c.curveA4 → extCanonical c.curveA6 →
    (∀ q1 q2, InGroup c q1 → InGroup c q2 → InGroup c (pointAdd c q1 q2)) ∧
      ∀ x1 y1 x2 y2, InGroup c (.affine x1 y1) → InGroup c (.affine x2 y2) →
        (x1 ≠ x2 → extSub x2 x1 ≠ extZero) ∧
          (x1 = x2 → extAdd y1 y2 ≠ extZero → y1 = y2 ∧ extMul (extEmbed 2) y1 ≠ extZero)

/-- R295: where the multiples of Q add as integers do (R294), the reference loop computes (k mod GROUP_N)·Q. -/
def Obligations.ScalarMulIsIteratedAddition : Prop :=
  ∀ (c : Config) (k : Nat) (q : Point), MultiplesAdd c q → 0 < c.groupN → c.groupN < 2 ^ 320 →
    scalarMul c k q = pointTimes c (k % c.groupN) q

/-- R296 (derived in the spec): the laws of ScalarMul. Those of a point of order dividing GROUP_N rest on the multiples adding as
integers do (R294). -/
def Obligations.ScalarMulLaws : Prop :=
  (∀ (c : Config) (k : Nat) (q : Point),
    scalarMul c k .identity = .identity ∧ scalarMul c (k % c.groupN) q = scalarMul c k q ∧
      (k % c.groupN = 0 → scalarMul c k q = .identity) ∧ (2 ≤ c.groupN → scalarMul c 1 q = q)) ∧
    ∀ (c : Config) (q : Point), MultiplesAdd c q → 0 < c.groupN → c.groupN < 2 ^ 320 → pointTimes c c.groupN q = .identity →
      ∀ a b : Nat, scalarMul c a q = pointTimes c a q ∧
        scalarMul c (a + b) q = pointAdd c (scalarMul c a q) (scalarMul c b q)

/-- R347 (derived in the spec): a signature made by Sign is accepted by Verify under the signer's public key. The premises are L5 to
L8 of R8, and what R293 and R294 give for the multiples of GEN. -/
def Obligations.SignThenVerifyAccepts : Prop :=
  ∀ (c : Config) (m : List Word) (sk : Nat) (sig : List Nat), c.gen ≠ .identity → 2 ≤ c.groupN → c.groupN < 2 ^ 320 →
    c.groupN.Prime → pointTimes c c.groupN c.gen = .identity → MultiplesAdd c c.gen → MultiplesInGroup c c.gen →
    AllCanonical m → 1 ≤ m.length → sk % c.groupN ≠ 0 → signMessage c (numbers m) sk = .ok sig →
    verifyMessage c m (words (encPoint (scalarMul c sk c.gen))) (words sig) = .ok 1
end

