-- ==== Sys2Proof/Laws/Arith.lean ====
section
/-!
SUPPORT. The arithmetic functions as residues modulo P, and the canonicality and length of what they compute.
-/

namespace Sys2Proof.Machine

theorem P_pos : 0 < P := by decide

theorem fpAdd_eq (a b : Nat) (ha : a < P) (hb : b < P) : fpAdd a b = (a + b) % P := by
  simp only [fpAdd, P] at *
  split <;> omega

theorem fpSub_eq (a b : Nat) (ha : a < P) (hb : b < P) : fpSub a b = (a + P - b) % P := by
  simp only [fpSub, P] at *
  split <;> omega

theorem fpNeg_eq (a : Nat) (ha : a < P) : fpNeg a = (P - a) % P := by
  simp only [fpNeg, P] at *
  split <;> omega

theorem fpMul_eq (a b : Nat) : fpMul a b = a * b % P := rfl

theorem fpAdd_lt {a b : Nat} (ha : a < P) (hb : b < P) : fpAdd a b < P := by
  rw [fpAdd_eq a b ha hb]; exact Nat.mod_lt _ P_pos

theorem fpSub_lt {a b : Nat} (ha : a < P) (hb : b < P) : fpSub a b < P := by
  rw [fpSub_eq a b ha hb]; exact Nat.mod_lt _ P_pos

theorem fpNeg_lt {a : Nat} (ha : a < P) : fpNeg a < P := by
  rw [fpNeg_eq a ha]; exact Nat.mod_lt _ P_pos

theorem fpMul_lt (a b : Nat) : fpMul a b < P := Nat.mod_lt _ P_pos

/-- The S-box chain computes the seventh power (R144). -/
theorem pow7_eq (a : Nat) : pow7 a = a ^ 7 % P := by
  simp only [pow7, fpMul_eq]
  simp only [Nat.mul_mod_mod, Nat.mod_mul_mod]
  congr 1; ring

/-- Square and multiply computes the power (R145). -/
theorem fpPow_eq (bits a e : Nat) (he : e < 2 ^ bits) : fpPow bits a e % P = a ^ e % P := by
  induction bits generalizing a e with
  | zero => simp at he; subst he; rfl
  | succ k ih =>
    have hk : e / 2 < 2 ^ k := by rw [pow_succ] at he; omega
    have hsq : fpPow k (fpMul a a) (e / 2) % P = a ^ (2 * (e / 2)) % P := by
      rw [ih _ _ hk, fpMul_eq, ← Nat.pow_mod, ← pow_two, ← pow_mul]
    simp only [fpPow]
    split
    · next h =>
      rw [fpMul_eq, Nat.mod_mod, Nat.mul_mod, hsq, ← Nat.mul_mod, ← pow_succ]
      congr 2; omega
    · next h => rw [hsq]; congr 2; omega

theorem extMul_canonical (a b : Ext) : extCanonical (extMul a b) := by
  refine ⟨?_, ?_, ?_, ?_, ?_⟩ <;> exact Nat.mod_lt _ P_pos

theorem extAdd_canonical {a b : Ext} (ha : extCanonical a) (hb : extCanonical b) : extCanonical (extAdd a b) :=
  ⟨fpAdd_lt ha.1 hb.1, fpAdd_lt ha.2.1 hb.2.1, fpAdd_lt ha.2.2.1 hb.2.2.1, fpAdd_lt ha.2.2.2.1 hb.2.2.2.1,
    fpAdd_lt ha.2.2.2.2 hb.2.2.2.2⟩

theorem extSub_canonical {a b : Ext} (ha : extCanonical a) (hb : extCanonical b) : extCanonical (extSub a b) :=
  ⟨fpSub_lt ha.1 hb.1, fpSub_lt ha.2.1 hb.2.1, fpSub_lt ha.2.2.1 hb.2.2.1, fpSub_lt ha.2.2.2.1 hb.2.2.2.1,
    fpSub_lt ha.2.2.2.2 hb.2.2.2.2⟩

theorem extNeg_canonical {a : Ext} (ha : extCanonical a) : extCanonical (extNeg a) :=
  ⟨fpNeg_lt ha.1, fpNeg_lt ha.2.1, fpNeg_lt ha.2.2.1, fpNeg_lt ha.2.2.2.1, fpNeg_lt ha.2.2.2.2⟩

theorem extInv_canonical (a : Ext) : extCanonical (extInv a) := by
  refine ⟨?_, ?_, ?_, ?_, ?_⟩ <;> exact fpMul_lt _ _

@[simp] theorem extList_length (a : Ext) : (extList a).length = 5 := rfl

@[simp] theorem words_length (v : List Nat) : (words v).length = v.length := by simp [words]

@[simp] theorem numbers_length (v : List Word) : (numbers v).length = v.length := by simp [numbers]

@[simp] theorem encPoint_length (q : Point) : (encPoint q).length = 11 := by cases q <;> rfl

@[simp] theorem scalarWords_length (n : Nat) : (scalarWords n).length = 5 := by simp [scalarWords]

@[simp] theorem linearLayer_length (c : Config) (s : List Nat) : (linearLayer c s).length = 12 := by simp [linearLayer]

theorem permRounds_length (c : Config) (n r : Nat) (s : List Nat) (h : s.length = 12) : (permRounds c n r s).length = 12 := by
  induction n generalizing r s with
  | zero => exact h
  | succ n ih => exact ih _ _ (linearLayer_length _ _)

theorem permute_length (c : Config) (s : List Nat) (h : s.length = 12) : (permute c s).length = 12 :=
  permRounds_length c _ _ s h

@[simp] theorem absorbChunk_length (s xs : List Nat) : (absorbChunk s xs).length = s.length := by
  induction s generalizing xs with
  | nil => cases xs <;> rfl
  | cons a s ih => cases xs <;> simp [absorbChunk, ih]

theorem absorbFull_length (c : Config) (q : Nat) (s xs : List Nat) (h : s.length = 12) :
    (absorbFull c q s xs).length = 12 := by
  induction q generalizing s xs with
  | zero => exact h
  | succ q ih => exact ih _ _ (permute_length c _ (by simpa using h))

theorem sponge_length (c : Config) (xs : List Nat) (n : Nat) (hn : n ≤ 12) : (sponge c xs n).length = n := by
  have h1 : (absorbFull c (xs.length / SPONGE_RATE) spongeInit xs).length = 12 := absorbFull_length c _ _ _ (by decide)
  have h2 : (absorbTail c (absorbFull c (xs.length / SPONGE_RATE) spongeInit xs)
      (xs.drop (xs.length / SPONGE_RATE * SPONGE_RATE))).length = 12 := by
    unfold absorbTail
    dsimp only
    split
    · exact permute_length c _ (by simpa using h1)
    · simpa using h1
  show (List.take n _).length = n
  rw [List.length_take, h2]; omega

theorem signMessage_length (c : Config) (m : List Nat) (sk : Nat) (sig : List Nat) (h : signMessage c m sk = .ok sig) :
    sig.length = 16 := by
  unfold signMessage at h
  dsimp only at h
  split at h
  · cases h
  · split at h
    · cases h
    · cases h; simp

theorem signMessage_error (c : Config) (m : List Nat) (sk : Nat) (e : ErrCode) (h : signMessage c m sk = .error e) :
    e = .degenerateScalar := by
  unfold signMessage at h
  dsimp only at h
  split at h
  · cases h; rfl
  · split at h
    · cases h; rfl
    · cases h

theorem verifyMessage_error (c : Config) (m pk sig : List Word) (e : ErrCode) (h : verifyMessage c m pk sig = .error e) :
    e ≠ .none := by
  unfold verifyMessage at h
  split at h
  · cases h; simp
  · split at h
    · cases h; simp
    · cases h

/-- A number below P is a word. -/
theorem toNat_ofNat_lt {x : Nat} (h : x < P) : (BitVec.ofNat 64 x).toNat = x := by
  rw [BitVec.toNat_ofNat]; exact Nat.mod_eq_of_lt (Nat.lt_trans h (by decide))

/-- The recursive value of five scalar words is their weighted sum (R106). -/
theorem scalarAt_eq {v : List Word} (h : v.length = 5) : scalarAt v = scalarValue v := by
  match v, h with
  | [a, b, c, d, e], _ =>
    simp [scalarAt, scalarValue, scalarOf, numbers, feAt, List.range_succ, SCALAR_WORDS]; omega

/-- The nonce is that of the first usable try. -/
theorem nonceFrom_some (c : Config) (sk : Nat) (m : List Nat) (n : Nat) : ∀ j0 j, j0 ≤ j → j < j0 + n →
    (∀ l, j0 ≤ l → l < j → nonceAt c sk m l = 0 ∨ scalarMul c (nonceAt c sk m l) c.gen = .identity) →
    nonceAt c sk m j ≠ 0 → scalarMul c (nonceAt c sk m j) c.gen ≠ .identity →
    nonceFrom c sk m n j0 = some (nonceAt c sk m j, scalarMul c (nonceAt c sk m j) c.gen) := by
  induction n with
  | zero => intros; omega
  | succ n ih =>
    intro j0 j h1 h2 hl hk hr
    unfold nonceFrom
    dsimp only
    by_cases hj : j = j0
    · subst hj; simp [hk, hr]
    · have := ih (j0 + 1) j (by omega) (by omega) (fun l h h' => hl l (by omega) h') hk hr
      rcases hl j0 (by omega) (by omega) with h | h <;> simp [h, this]

/-- With no usable try there is no nonce. -/
theorem nonceFrom_none (c : Config) (sk : Nat) (m : List Nat) (n : Nat) : ∀ j0,
    (∀ l, j0 ≤ l → l < j0 + n → nonceAt c sk m l = 0 ∨ scalarMul c (nonceAt c sk m l) c.gen = .identity) →
    nonceFrom c sk m n j0 = none := by
  induction n with
  | zero => intros; rfl
  | succ n ih =>
    intro j0 hl
    unfold nonceFrom
    dsimp only
    have := ih (j0 + 1) (fun l h h' => hl l (by omega) (by omega))
    rcases hl j0 (by omega) (by omega) with h | h <;> simp [h, this]

end Sys2Proof.Machine
end

