-- ==== Sys2Proof/Laws/Memory.lean ====
section
/-!
SUPPORT. The laws of WMEM: a read after a write to the same place gives the value written, a write leaves every other place
alone, and every operation keeps the canonical form.
-/

namespace Sys2Proof.Machine.Memory

@[simp] theorem read_nil (a : Nat) : read [] a = none := rfl

theorem read_cons (b : Nat) (v : Word) (m : Memory) (a : Nat) :
    read ((b, v) :: m) a = if b = a then some v else read m a := rfl

theorem read_write_same (m : Memory) (a : Nat) (v : Word) : read (write m a v) a = some v := by
  induction m with
  | nil => simp [write, read]
  | cons x m ih =>
    obtain ⟨b, w⟩ := x
    unfold write
    split
    · simp [read]
    · split
      · simp [read]
      · next h1 h2 => simp [read, ih, Ne.symm h2]

theorem read_write_other (m : Memory) (a b : Nat) (v : Word) (h : a ≠ b) : read (write m a v) b = read m b := by
  induction m with
  | nil => simp [write, read, h]
  | cons x m ih =>
    obtain ⟨c, w⟩ := x
    unfold write
    split
    · simp [read, h]
    · split
      · next h1 h2 => subst h2; simp [read, h]
      · simp [read, ih]

theorem mem_write {m : Memory} {a : Nat} {v : Word} {x : Nat × Word} (h : x ∈ write m a v) : x = (a, v) ∨ x ∈ m := by
  induction m with
  | nil => simpa [write] using h
  | cons y m ih =>
    obtain ⟨b, w⟩ := y
    unfold write at h
    split at h
    · simpa using h
    · split at h
      · rcases List.mem_cons.1 h with h | h <;> simp [h]
      · rcases List.mem_cons.1 h with h | h
        · simp [h]
        · rcases ih h with h | h <;> simp [h]

theorem wf_write (m : Memory) (a : Nat) (v : Word) (h : wf m) : wf (write m a v) := by
  induction m with
  | nil => simp [write, wf]
  | cons x m ih =>
    obtain ⟨b, w⟩ := x
    obtain ⟨hb, hm⟩ := List.pairwise_cons.1 h
    unfold write
    split
    · next hab =>
      refine List.pairwise_cons.2 ⟨fun y hy => ?_, h⟩
      rcases List.mem_cons.1 hy with rfl | hy
      · exact hab
      · exact Nat.lt_trans hab (hb y hy)
    · split
      · next _ hab => subst hab; exact List.pairwise_cons.2 ⟨hb, hm⟩
      · next h1 h2 =>
        refine List.pairwise_cons.2 ⟨fun y hy => ?_, ih hm⟩
        rcases mem_write hy with rfl | hy
        · show b < a; omega
        · exact hb y hy

theorem wf_writeRange (m : Memory) (a : Nat) (vs : List Word) (h : wf m) : wf (writeRange m a vs) := by
  induction vs generalizing m a with
  | nil => exact h
  | cons v vs ih => exact ih _ _ (wf_write m a v h)

theorem wf_eraseRange (m : Memory) (a n : Nat) (h : wf m) : wf (eraseRange m a n) := List.Pairwise.filter _ h

theorem inside_write (n : Nat) (m : Memory) (a : Nat) (v : Word) (ha : a < n) (h : MemoryInside n m) :
    MemoryInside n (write m a v) := by
  intro x hx
  rcases mem_write hx with rfl | hx
  · exact ha
  · exact h x hx

theorem inside_writeRange (n : Nat) (m : Memory) (a : Nat) (vs : List Word) (ha : a + vs.length ≤ n) (h : MemoryInside n m) :
    MemoryInside n (writeRange m a vs) := by
  induction vs generalizing m a with
  | nil => exact h
  | cons v vs ih =>
    simp only [List.length_cons] at ha
    exact ih _ _ (by omega) (inside_write n m a v (by omega) h)

theorem inside_eraseRange (n : Nat) (m : Memory) (a k : Nat) (h : MemoryInside n m) : MemoryInside n (eraseRange m a k) :=
  fun x hx => h x (List.mem_filter.1 hx).1

theorem read_writeRange_outside (m : Memory) (a : Nat) (vs : List Word) (b : Nat) (h : b < a ∨ a + vs.length ≤ b) :
    read (writeRange m a vs) b = read m b := by
  induction vs generalizing m a with
  | nil => rfl
  | cons v vs ih =>
    simp only [List.length_cons] at h
    rw [writeRange, ih _ _ (by omega), read_write_other _ _ _ _ (by omega)]

theorem read_writeRange_inside (m : Memory) (a : Nat) (vs : List Word) (k : Nat) (h : k < vs.length) :
    read (writeRange m a vs) (a + k) = some (vs.getD k 0) := by
  induction vs generalizing m a k with
  | nil => simp at h
  | cons v vs ih =>
    cases k with
    | zero => rw [writeRange, read_writeRange_outside _ _ _ _ (by omega)]; simpa using read_write_same m a v
    | succ k =>
      have hk : k < vs.length := by simpa using h
      have := ih (write m a v) (a + 1) k hk
      rw [writeRange, show a + (k + 1) = a + 1 + k by omega, this]
      simp

theorem read_eraseRange (m : Memory) (a n b : Nat) :
    read (eraseRange m a n) b = if a ≤ b ∧ b < a + n then none else read m b := by
  induction m with
  | nil => simp [eraseRange]
  | cons x m ih =>
    obtain ⟨c, w⟩ := x
    have key : eraseRange ((c, w) :: m) a n =
        if a ≤ c ∧ c < a + n then eraseRange m a n else (c, w) :: eraseRange m a n := by
      by_cases hc : a ≤ c ∧ c < a + n <;> simp [eraseRange, List.filter_cons, hc]
    rw [key, read_cons]
    by_cases hc : a ≤ c ∧ c < a + n
    · rw [if_pos hc, ih]
      by_cases hb : c = b
      · subst hb; simp [hc]
      · simp [hb]
    · rw [if_neg hc, read_cons, ih]
      by_cases hb : c = b
      · subst hb; simp [hc]
      · simp [hb]

/-- The read phase gives the words of the range, when each of them is written. -/
theorem readRange_ok (m : Memory) (a : Nat) (vs : List Word)
    (h : ∀ k, k < vs.length → m.read (a + k) = some (vs.getD k 0)) : readRange m a vs.length = .ok vs := by
  induction vs generalizing a with
  | nil => rfl
  | cons v vs ih =>
    have h0 := h 0 (by simp)
    have hs : ∀ k, k < vs.length → m.read (a + 1 + k) = some (vs.getD k 0) := fun k hk => by
      have := h (k + 1) (by simpa using hk)
      simpa [Nat.add_assoc, Nat.add_comm 1 k] using this
    simp only [Nat.add_zero, List.getD_cons_zero] at h0
    simp [readRange, h0, ih (a + 1) hs]

/-- What a successful read phase says: as many words as asked for, each the content of its address. -/
theorem readRange_inv (m : Memory) (a n : Nat) (vs : List Word) (h : readRange m a n = .ok vs) :
    vs.length = n ∧ ∀ k, k < n → m.read (a + k) = some (vs.getD k 0) := by
  induction n generalizing a vs with
  | zero => simp [readRange] at h; subst h; simp
  | succ n ih =>
    unfold readRange at h
    split at h
    · cases h
    · next v hv =>
      split at h
      · cases h
      · next ws hws =>
        cases h
        obtain ⟨hl, hk⟩ := ih (a + 1) ws hws
        refine ⟨by simp [hl], fun k hlt => ?_⟩
        cases k with
        | zero => simpa using hv
        | succ k =>
          have := hk k (by omega)
          simpa [Nat.add_assoc, Nat.add_comm 1 k] using this

/-- What a failed read phase says: the address it names lies in the range and is unspecified. -/
theorem readRange_error (m : Memory) (a n x : Nat) (h : readRange m a n = .error x) :
    a ≤ x ∧ x < a + n ∧ m.read x = none := by
  induction n generalizing a with
  | zero => simp [readRange] at h
  | succ n ih =>
    unfold readRange at h
    split at h
    · next hv => cases h; exact ⟨Nat.le_refl _, by omega, hv⟩
    · split at h
      · next b hb => cases h; have := ih (a + 1) hb; exact ⟨by omega, by omega, this.2.2⟩
      · cases h

end Sys2Proof.Machine.Memory
end

