-- ==== Sys2Proof/Laws/State.lean ====
section
/-!
SUPPORT. One lemma per field per update of the state: no later proof unfolds a record update.
-/

namespace Sys2Proof.Machine

@[simp] theorem State.completeOk_cmd (s : State) : s.completeOk.cmd = s.cmd := rfl
@[simp] theorem State.completeOk_len (s : State) : s.completeOk.len = s.len := rfl
@[simp] theorem State.completeOk_status (s : State) : s.completeOk.status = s.status.completedOk := rfl
@[simp] theorem State.completeOk_plen (s : State) : s.completeOk.plen = s.plen := rfl
@[simp] theorem State.completeOk_wmem (s : State) : s.completeOk.wmem = s.wmem := rfl
@[simp] theorem State.completeOk_config (s : State) : s.completeOk.config = s.config := rfl
@[simp] theorem State.completeOk_program (s : State) : s.completeOk.program = s.program := rfl
@[simp] theorem State.completeOk_turns (s : State) : s.completeOk.turns = s.turns := rfl
@[simp] theorem State.completeOk_replies (s : State) : s.completeOk.replies = s.replies := rfl

@[simp] theorem State.completeError_cmd (s : State) (c : ErrCode) : (s.completeError c).cmd = s.cmd := rfl
@[simp] theorem State.completeError_len (s : State) (c : ErrCode) : (s.completeError c).len = s.len := rfl
@[simp] theorem State.completeError_status (s : State) (c : ErrCode) : (s.completeError c).status = s.status.completedError c := rfl
@[simp] theorem State.completeError_plen (s : State) (c : ErrCode) : (s.completeError c).plen = s.plen := rfl
@[simp] theorem State.completeError_wmem (s : State) (c : ErrCode) : (s.completeError c).wmem = s.wmem := rfl
@[simp] theorem State.completeError_config (s : State) (c : ErrCode) : (s.completeError c).config = s.config := rfl
@[simp] theorem State.completeError_program (s : State) (c : ErrCode) : (s.completeError c).program = s.program := rfl
@[simp] theorem State.completeError_turns (s : State) (c : ErrCode) : (s.completeError c).turns = s.turns := rfl
@[simp] theorem State.completeError_replies (s : State) (c : ErrCode) : (s.completeError c).replies = s.replies := rfl

@[simp] theorem State.clearStatus_cmd (s : State) : s.clearStatus.cmd = s.cmd := rfl
@[simp] theorem State.clearStatus_len (s : State) : s.clearStatus.len = s.len := rfl
@[simp] theorem State.clearStatus_status (s : State) : s.clearStatus.status = s.status.cleared := rfl
@[simp] theorem State.clearStatus_plen (s : State) : s.clearStatus.plen = s.plen := rfl
@[simp] theorem State.clearStatus_wmem (s : State) : s.clearStatus.wmem = s.wmem := rfl
@[simp] theorem State.clearStatus_config (s : State) : s.clearStatus.config = s.config := rfl
@[simp] theorem State.clearStatus_program (s : State) : s.clearStatus.program = s.program := rfl
@[simp] theorem State.clearStatus_turns (s : State) : s.clearStatus.turns = s.turns := rfl
@[simp] theorem State.clearStatus_replies (s : State) : s.clearStatus.replies = s.replies := rfl

@[simp] theorem State.accept_cmd (s : State) (v : Word) : (s.accept v).cmd = v := rfl
@[simp] theorem State.accept_len (s : State) (v : Word) : (s.accept v).len = s.len := rfl
@[simp] theorem State.accept_status (s : State) (v : Word) : (s.accept v).status = s.status.accepted := rfl
@[simp] theorem State.accept_plen (s : State) (v : Word) : (s.accept v).plen = s.len := rfl
@[simp] theorem State.accept_wmem (s : State) (v : Word) : (s.accept v).wmem = s.wmem := rfl
@[simp] theorem State.accept_config (s : State) (v : Word) : (s.accept v).config = s.config := rfl
@[simp] theorem State.accept_program (s : State) (v : Word) : (s.accept v).program = s.program := rfl
@[simp] theorem State.accept_turns (s : State) (v : Word) : (s.accept v).turns = s.turns := rfl
@[simp] theorem State.accept_replies (s : State) (v : Word) : (s.accept v).replies = s.replies := rfl

@[simp] theorem State.withCommand_cmd (s : State) (v : Word) : (s.withCommand v).cmd = v := rfl
@[simp] theorem State.withCommand_len (s : State) (v : Word) : (s.withCommand v).len = s.len := rfl
@[simp] theorem State.withCommand_status (s : State) (v : Word) : (s.withCommand v).status = s.status.accepted := rfl
@[simp] theorem State.withCommand_plen (s : State) (v : Word) : (s.withCommand v).plen = s.len := rfl
@[simp] theorem State.withCommand_wmem (s : State) (v : Word) : (s.withCommand v).wmem = s.wmem := rfl
@[simp] theorem State.withCommand_config (s : State) (v : Word) : (s.withCommand v).config = s.config := rfl
@[simp] theorem State.withCommand_program (s : State) (v : Word) : (s.withCommand v).program = s.program := rfl
@[simp] theorem State.withCommand_turns (s : State) (v : Word) : (s.withCommand v).turns = .engine :: s.turns := rfl
@[simp] theorem State.withCommand_replies (s : State) (v : Word) : (s.withCommand v).replies = s.replies := rfl

@[simp] theorem hostCsrRead_cmd (s : State) (i : BitVec 3) : (hostCsrRead s i).cmd = s.cmd := rfl
@[simp] theorem hostCsrRead_len (s : State) (i : BitVec 3) : (hostCsrRead s i).len = s.len := rfl
@[simp] theorem hostCsrRead_status (s : State) (i : BitVec 3) : (hostCsrRead s i).status = s.status := rfl
@[simp] theorem hostCsrRead_plen (s : State) (i : BitVec 3) : (hostCsrRead s i).plen = s.plen := rfl
@[simp] theorem hostCsrRead_wmem (s : State) (i : BitVec 3) : (hostCsrRead s i).wmem = s.wmem := rfl
@[simp] theorem hostCsrRead_config (s : State) (i : BitVec 3) : (hostCsrRead s i).config = s.config := rfl
@[simp] theorem hostCsrRead_program (s : State) (i : BitVec 3) : (hostCsrRead s i).program = s.program := rfl
@[simp] theorem hostCsrRead_turns (s : State) (i : BitVec 3) : (hostCsrRead s i).turns = s.turns := rfl
@[simp] theorem hostCsrRead_replies (s : State) (i : BitVec 3) : (hostCsrRead s i).replies = csrValue s i :: s.replies := rfl

@[simp] theorem softReset_cmd (s : State) : (softReset s).cmd = 0 := rfl
@[simp] theorem softReset_len (s : State) : (softReset s).len = 0 := rfl
@[simp] theorem softReset_status (s : State) : (softReset s).status = Status.zero := rfl
@[simp] theorem softReset_plen (s : State) : (softReset s).plen = 0 := rfl
@[simp] theorem softReset_wmem (s : State) : (softReset s).wmem = if s.status.busy then s.wmem.eraseRange (abandonedRange s).base (abandonedRange s).len else s.wmem := rfl
@[simp] theorem softReset_config (s : State) : (softReset s).config = s.config := rfl
@[simp] theorem softReset_program (s : State) : (softReset s).program = s.program := rfl
@[simp] theorem softReset_turns (s : State) : (softReset s).turns = s.turns := rfl
@[simp] theorem softReset_replies (s : State) : (softReset s).replies = s.replies := rfl

@[simp] theorem hardwareReset_cmd (s : State) : (hardwareReset s).cmd = 0 := rfl
@[simp] theorem hardwareReset_len (s : State) : (hardwareReset s).len = 0 := rfl
@[simp] theorem hardwareReset_status (s : State) : (hardwareReset s).status = Status.zero := rfl
@[simp] theorem hardwareReset_plen (s : State) : (hardwareReset s).plen = 0 := rfl
@[simp] theorem hardwareReset_wmem (s : State) : (hardwareReset s).wmem = [] := rfl
@[simp] theorem hardwareReset_config (s : State) : (hardwareReset s).config = s.config := rfl
@[simp] theorem hardwareReset_program (s : State) : (hardwareReset s).program = s.program := rfl
@[simp] theorem hardwareReset_turns (s : State) : (hardwareReset s).turns = s.turns := rfl
@[simp] theorem hardwareReset_replies (s : State) : (hardwareReset s).replies = s.replies := rfl

@[simp] theorem State.resetWith_cmd (c : Config) : (State.resetWith c).cmd = 0 := rfl
@[simp] theorem State.resetWith_len (c : Config) : (State.resetWith c).len = 0 := rfl
@[simp] theorem State.resetWith_status (c : Config) : (State.resetWith c).status = Status.zero := rfl
@[simp] theorem State.resetWith_plen (c : Config) : (State.resetWith c).plen = 0 := rfl
@[simp] theorem State.resetWith_wmem (c : Config) : (State.resetWith c).wmem = [] := rfl
@[simp] theorem State.resetWith_config (c : Config) : (State.resetWith c).config = c := rfl
@[simp] theorem State.resetWith_program (c : Config) : (State.resetWith c).program = [] := rfl
@[simp] theorem State.resetWith_turns (c : Config) : (State.resetWith c).turns = [] := rfl
@[simp] theorem State.resetWith_replies (c : Config) : (State.resetWith c).replies = [] := rfl

@[simp] theorem Status.accepted_busy (t : Status) : (t.accepted).busy = true := rfl
@[simp] theorem Status.accepted_done (t : Status) : (t.accepted).done = false := rfl
@[simp] theorem Status.accepted_err (t : Status) : (t.accepted).err = false := rfl
@[simp] theorem Status.accepted_ovr (t : Status) : (t.accepted).ovr = t.ovr := rfl
@[simp] theorem Status.accepted_errCode (t : Status) : (t.accepted).errCode = .none := rfl

@[simp] theorem Status.dropped_busy (t : Status) : (t.dropped).busy = t.busy := rfl
@[simp] theorem Status.dropped_done (t : Status) : (t.dropped).done = t.done := rfl
@[simp] theorem Status.dropped_err (t : Status) : (t.dropped).err = t.err := rfl
@[simp] theorem Status.dropped_ovr (t : Status) : (t.dropped).ovr = true := rfl
@[simp] theorem Status.dropped_errCode (t : Status) : (t.dropped).errCode = t.errCode := rfl

@[simp] theorem Status.completedOk_busy (t : Status) : (t.completedOk).busy = false := rfl
@[simp] theorem Status.completedOk_done (t : Status) : (t.completedOk).done = true := rfl
@[simp] theorem Status.completedOk_err (t : Status) : (t.completedOk).err = false := rfl
@[simp] theorem Status.completedOk_ovr (t : Status) : (t.completedOk).ovr = t.ovr := rfl
@[simp] theorem Status.completedOk_errCode (t : Status) : (t.completedOk).errCode = .none := rfl

@[simp] theorem Status.completedError_busy (t : Status) (c : ErrCode) : (t.completedError c).busy = false := rfl
@[simp] theorem Status.completedError_done (t : Status) (c : ErrCode) : (t.completedError c).done = true := rfl
@[simp] theorem Status.completedError_err (t : Status) (c : ErrCode) : (t.completedError c).err = true := rfl
@[simp] theorem Status.completedError_ovr (t : Status) (c : ErrCode) : (t.completedError c).ovr = t.ovr := rfl
@[simp] theorem Status.completedError_errCode (t : Status) (c : ErrCode) : (t.completedError c).errCode = c := rfl

@[simp] theorem Status.cleared_busy (t : Status) : (t.cleared).busy = t.busy := rfl
@[simp] theorem Status.cleared_done (t : Status) : (t.cleared).done = false := rfl
@[simp] theorem Status.cleared_err (t : Status) : (t.cleared).err = false := rfl
@[simp] theorem Status.cleared_ovr (t : Status) : (t.cleared).ovr = false := rfl
@[simp] theorem Status.cleared_errCode (t : Status) : (t.cleared).errCode = .none := rfl

@[simp] theorem Status.zero_busy : Status.zero.busy = false := rfl
@[simp] theorem Status.zero_done : Status.zero.done = false := rfl
@[simp] theorem Status.zero_err : Status.zero.err = false := rfl
@[simp] theorem Status.zero_ovr : Status.zero.ovr = false := rfl
@[simp] theorem Status.zero_errCode : Status.zero.errCode = .none := rfl

end Sys2Proof.Machine
end

