-- ==== Sys2Proof/Laws/Command.lean ====
section
/-!
SUPPORT. What the execution frame `runCommand` can do, said once: later proofs cite these and do not unfold it.
-/

namespace Sys2Proof.Machine

variable {i : Instr} {s : State} {rule : List Word → List Word → Except ErrCode (List Word)}

/-- A length out of range completes with BAD_LENGTH. -/
theorem runCommand_badLength (h : lengthLegal s.config.wmemWords s.plen.toNat i = false) :
    runCommand i s rule = .next (s.completeError .badLength) := by
  simp [runCommand, h]

/-- A used range outside WMEM completes with ADDR_RANGE. -/
theorem runCommand_addrRange (h : lengthLegal s.config.wmemWords s.plen.toNat i = true)
    (hr : (shapeOf s.plen.toNat i).inside s.config.wmemWords = false) :
    runCommand i s rule = .next (s.completeError .addrRange) := by
  simp [runCommand, h, hr]

/-- With the checks passed and the source words read, the rule decides. -/
theorem runCommand_rule {va vb : List Word} (h : lengthLegal s.config.wmemWords s.plen.toNat i = true)
    (hr : (shapeOf s.plen.toNat i).inside s.config.wmemWords = true)
    (ha : s.wmem.readRange (shapeOf s.plen.toNat i).a.base (shapeOf s.plen.toNat i).a.len = .ok va)
    (hb : s.wmem.readRange (shapeOf s.plen.toNat i).b.base (shapeOf s.plen.toNat i).b.len = .ok vb) :
    runCommand i s rule =
      match rule va vb with
      | .error c => .next (s.completeError c)
      | .ok r => .next (State.completeOk { s with wmem := s.wmem.writeRange (shapeOf s.plen.toNat i).d.base r }) := by
  cases hc : rule va vb <;> simp [runCommand, h, hr, ha, hb, hc]

/-- Everything a command can do: an error completion, a fault at an unspecified source word, or a completion that stores
the rule's result at the destination. -/
theorem runCommand_cases (i : Instr) (s : State) (rule : List Word → List Word → Except ErrCode (List Word)) :
    (∃ c, runCommand i s rule = .next (s.completeError c) ∧
        (c = .badLength ∨ c = .addrRange ∨ ∃ va vb, va.length = (shapeOf s.plen.toNat i).a.len ∧ rule va vb = .error c)) ∨
      (∃ x, runCommand i s rule = .fault (.uninitRead x) ∧ SourceUnspecified s i x) ∨
      (∃ va vb r, rule va vb = .ok r ∧ va.length = (shapeOf s.plen.toNat i).a.len ∧
        vb.length = (shapeOf s.plen.toNat i).b.len ∧ (shapeOf s.plen.toNat i).inside s.config.wmemWords = true ∧
        runCommand i s rule =
          .next (State.completeOk { s with wmem := s.wmem.writeRange (shapeOf s.plen.toNat i).d.base r })) := by
  cases h : lengthLegal s.config.wmemWords s.plen.toNat i with
  | false => exact .inl ⟨_, runCommand_badLength h, .inl rfl⟩
  | true =>
    cases hr : (shapeOf s.plen.toNat i).inside s.config.wmemWords with
    | false => exact .inl ⟨_, runCommand_addrRange h hr, .inr (.inl rfl)⟩
    | true =>
      cases ha : s.wmem.readRange (shapeOf s.plen.toNat i).a.base (shapeOf s.plen.toNat i).a.len with
      | error x =>
        have := Memory.readRange_error _ _ _ _ ha
        exact .inr (.inl ⟨x, by simp [runCommand, h, hr, ha], this.2.2, .inl ⟨this.1, this.2.1⟩⟩)
      | ok va =>
        cases hb : s.wmem.readRange (shapeOf s.plen.toNat i).b.base (shapeOf s.plen.toNat i).b.len with
        | error x =>
          have := Memory.readRange_error _ _ _ _ hb
          exact .inr (.inl ⟨x, by simp [runCommand, h, hr, ha, hb], this.2.2, .inr ⟨this.1, this.2.1⟩⟩)
        | ok vb =>
          cases hc : rule va vb with
          | error c =>
            exact .inl ⟨c, by rw [runCommand_rule h hr ha hb, hc], .inr (.inr ⟨va, vb, (Memory.readRange_inv _ _ _ _ ha).1, hc⟩)⟩
          | ok r =>
            exact .inr (.inr ⟨va, vb, r, hc, (Memory.readRange_inv _ _ _ _ ha).1, (Memory.readRange_inv _ _ _ _ hb).1, rfl,
              by rw [runCommand_rule h hr ha hb, hc]⟩)

/-- With nothing to read, an operand range is trivially read. -/
@[simp] theorem readRange_zero (m : Memory) (a : Nat) : m.readRange a 0 = .ok [] := rfl

/-- An operand of the stated words is read as those words. -/
theorem readRange_operand {s : State} {a : Nat} {v : List Word} (h : Operand s a v) : s.wmem.readRange a v.length = .ok v :=
  Memory.readRange_ok _ _ _ h.2

/-- An operand's range passes the range check. -/
theorem inside_operand {s : State} {a : Nat} {v : List Word} (h : Operand s a v) :
    Range.inside s.config.wmemWords ⟨a, v.length⟩ = true := by
  rcases h.1 with rfl | h <;> simp [Range.inside, *]

/-- A destination with room passes the range check. -/
theorem inside_room {s : State} {d n : Nat} (h : Room s d n) : Range.inside s.config.wmemWords ⟨d, n⟩ = true := by
  simp [Range.inside, show d + n ≤ _ from h]

section Operands

variable {va vb : List Word} (hl : lengthLegal s.config.wmemWords s.plen.toNat i = true)
  (ha : Operand s (shapeOf s.plen.toNat i).a.base va) (hal : va.length = (shapeOf s.plen.toNat i).a.len)
  (hb : Operand s (shapeOf s.plen.toNat i).b.base vb) (hbl : vb.length = (shapeOf s.plen.toNat i).b.len)
  (hd : Room s (shapeOf s.plen.toNat i).d.base (shapeOf s.plen.toNat i).d.len)

include hl ha hal hb hbl hd

/-- With its operands in WMEM and room for its result, a command is its rule. -/
theorem runCommand_operands :
    runCommand i s rule =
      match rule va vb with
      | .error c => .next (s.completeError c)
      | .ok r => .next (State.completeOk { s with wmem := s.wmem.writeRange (shapeOf s.plen.toNat i).d.base r }) := by
  apply runCommand_rule hl
  · have h1 := inside_operand ha
    have h2 := inside_operand hb
    rw [hal] at h1
    rw [hbl] at h2
    simp [Shape.inside, h1, h2, inside_room hd]
  · rw [← hal]; exact readRange_operand ha
  · rw [← hbl]; exact readRange_operand hb

/-- The same where the rule gives an error. -/
theorem runCommand_operands_error {c : ErrCode} (h : rule va vb = .error c) :
    runCommand i s rule = .next (s.completeError c) := by
  rw [runCommand_operands hl ha hal hb hbl hd, h]

/-- The same where the rule gives a result. -/
theorem runCommand_operands_ok {r : List Nat} (h : rule va vb = .ok (words r)) :
    runCommand i s rule = .next (finish s (shapeOf s.plen.toNat i).d.base r) := by
  rw [runCommand_operands hl ha hal hb hbl hd, h]; rfl

end Operands

/-- A used range without room in WMEM completes with ADDR_RANGE. -/
theorem runCommand_noRoom (hl : lengthLegal s.config.wmemWords s.plen.toNat i = true)
    (h : (0 < (shapeOf s.plen.toNat i).a.len ∧ ¬Room s (shapeOf s.plen.toNat i).a.base (shapeOf s.plen.toNat i).a.len) ∨
      (0 < (shapeOf s.plen.toNat i).b.len ∧ ¬Room s (shapeOf s.plen.toNat i).b.base (shapeOf s.plen.toNat i).b.len) ∨
      (0 < (shapeOf s.plen.toNat i).d.len ∧ ¬Room s (shapeOf s.plen.toNat i).d.base (shapeOf s.plen.toNat i).d.len)) :
    runCommand i s rule = .next (s.completeError .addrRange) := by
  apply runCommand_addrRange hl
  have key : ∀ r : Range, (0 < r.len ∧ ¬Room s r.base r.len) → r.inside s.config.wmemWords = false := by
    intro r ⟨h1, h2⟩
    have : ¬r.base + r.len ≤ s.config.wmemWords := h2
    simp [Range.inside, this]; omega
  rcases h with h | h | h <;> simp [Shape.inside, key _ h]

/-- A command with one source reads no words at its second. -/
theorem operand_none (s : State) : Operand s 0 [] := ⟨.inl rfl, by simp⟩

theorem canonical_of_all {v : List Word} (h : AllCanonical v) : canonical v = true := by simpa [canonical] using h

theorem canonical_of_not_all {v : List Word} (h : ¬AllCanonical v) : canonical v = false := by
  rw [Bool.eq_false_iff]; exact fun h' => h (by simpa [canonical] using h')

end Sys2Proof.Machine
end

