-- ==== Sys2Proof/Laws/Exec.lean ====
section
/-!
SUPPORT. What a command can do, said once for all of them: `exec_cases`.
-/

namespace Sys2Proof.Machine

/-! Each arm of the dispatch calls its own meaning. -/

theorem exec_fadd (d a b : Nat) (s : State) : exec (.fadd d a b) s = execFadd d a b s := rfl
theorem exec_fsub (d a b : Nat) (s : State) : exec (.fsub d a b) s = execFsub d a b s := rfl
theorem exec_fneg (d a : Nat) (s : State) : exec (.fneg d a) s = execFneg d a s := rfl
theorem exec_fmul (d a b : Nat) (s : State) : exec (.fmul d a b) s = execFmul d a b s := rfl
theorem exec_finv (d a : Nat) (s : State) : exec (.finv d a) s = execFinv d a s := rfl
theorem exec_fpow7 (d a : Nat) (s : State) : exec (.fpow7 d a) s = execFpow7 d a s := rfl
theorem exec_fred (d a : Nat) (s : State) : exec (.fred d a) s = execFred d a s := rfl
theorem exec_fcanon (d a : Nat) (s : State) : exec (.fcanon d a) s = execFcanon d a s := rfl
theorem exec_eadd (d a b : Nat) (s : State) : exec (.eadd d a b) s = execEadd d a b s := rfl
theorem exec_esub (d a b : Nat) (s : State) : exec (.esub d a b) s = execEsub d a b s := rfl
theorem exec_emul (d a b : Nat) (s : State) : exec (.emul d a b) s = execEmul d a b s := rfl
theorem exec_einv (d a : Nat) (s : State) : exec (.einv d a) s = execEinv d a s := rfl
theorem exec_eembed (d a : Nat) (s : State) : exec (.eembed d a) s = execEembed d a s := rfl
theorem exec_eeq (d a b : Nat) (s : State) : exec (.eeq d a b) s = execEeq d a b s := rfl
theorem exec_perm (d a : Nat) (s : State) : exec (.perm d a) s = execPerm d a s := rfl
theorem exec_hashnp (d a : Nat) (s : State) : exec (.hashnp d a) s = execHashnp d a s := rfl
theorem exec_hashn (d a : Nat) (s : State) : exec (.hashn d a) s = execHashn d a s := rfl
theorem exec_h2q (d a : Nat) (s : State) : exec (.h2q d a) s = execH2q d a s := rfl
theorem exec_padd (d a b : Nat) (s : State) : exec (.padd d a b) s = execPadd d a b s := rfl
theorem exec_pdbl (d a : Nat) (s : State) : exec (.pdbl d a) s = execPdbl d a s := rfl
theorem exec_pvalid (d a : Nat) (s : State) : exec (.pvalid d a) s = execPvalid d a s := rfl
theorem exec_pmul (d a b : Nat) (s : State) : exec (.pmul d a b) s = execPmul d a b s := rfl
theorem exec_pkgen (d a : Nat) (s : State) : exec (.pkgen d a) s = execPkgen d a s := rfl
theorem exec_sign (d a b : Nat) (s : State) : exec (.sign d a b) s = execSign d a b s := rfl
theorem exec_verify (d a b : Nat) (s : State) : exec (.verify d a b) s = execVerify d a b s := rfl

/-- The three ways a command ends. -/
def ExecEnds (i : Instr) (s : State) : Prop :=
  (∃ c, c ≠ .none ∧ exec i s = .next (s.completeError c)) ∨
    (∃ x, exec i s = .fault (.uninitRead x) ∧ SourceUnspecified s i x) ∨
    (∃ r : List Word, r.length = (shapeOf s.plen.toNat i).d.len ∧ (shapeOf s.plen.toNat i).inside s.config.wmemWords = true ∧
      exec i s = .next (State.completeOk { s with wmem := s.wmem.writeRange (shapeOf s.plen.toNat i).d.base r }))

/-- The rule's results fill the destination and its errors are errors. -/
def RuleFits (i : Instr) (s : State) (rule : List Word → List Word → Except ErrCode (List Word)) : Prop :=
  ∀ va vb, va.length = (shapeOf s.plen.toNat i).a.len →
    (∀ r, rule va vb = .ok r → r.length = (shapeOf s.plen.toNat i).d.len) ∧ ∀ c, rule va vb = .error c → c ≠ .none

/-- A command that runs a fitting rule in the execution frame ends in one of the three ways. -/
theorem execEnds_of_rule {i : Instr} {s : State} {rule : List Word → List Word → Except ErrCode (List Word)}
    (he : exec i s = runCommand i s rule) (hf : RuleFits i s rule) : ExecEnds i s := by
  rcases runCommand_cases i s rule with ⟨c, h, hc⟩ | ⟨x, h, hx⟩ | ⟨va, vb, r, hr, hl, -, hi, h⟩
  · refine .inl ⟨c, ?_, he.trans h⟩
    rcases hc with rfl | rfl | ⟨va, vb, hl, hc⟩
    · simp
    · simp
    · exact (hf va vb hl).2 c hc
  · exact .inr (.inl ⟨x, he.trans h, hx⟩)
  · exact .inr (.inr ⟨r, (hf va vb hl).1 r hr, hi, he.trans h⟩)

theorem exec_cases (i : Instr) (s : State) : ExecEnds i s := by
  cases i with
  | fadd d a b =>
    refine execEnds_of_rule ((exec_fadd d a b s).trans rfl) fun va vb hl => ?_
    refine ⟨fun r h => ?_, fun c h => ?_⟩ <;> split at h <;> cases h
    · simp [shapeOf]
    · simp
  | fsub d a b =>
    refine execEnds_of_rule ((exec_fsub d a b s).trans rfl) fun va vb hl => ?_
    refine ⟨fun r h => ?_, fun c h => ?_⟩ <;> split at h <;> cases h
    · simp [shapeOf]
    · simp
  | fneg d a =>
    refine execEnds_of_rule ((exec_fneg d a s).trans rfl) fun va vb hl => ?_
    refine ⟨fun r h => ?_, fun c h => ?_⟩ <;> split at h <;> cases h
    · simp [shapeOf]
    · simp
  | fmul d a b =>
    refine execEnds_of_rule ((exec_fmul d a b s).trans rfl) fun va vb hl => ?_
    refine ⟨fun r h => ?_, fun c h => ?_⟩ <;> split at h <;> cases h
    · simp [shapeOf]
    · simp
  | finv d a =>
    refine execEnds_of_rule ((exec_finv d a s).trans rfl) fun va vb hl => ?_
    refine ⟨fun r h => ?_, fun c h => ?_⟩ <;> split at h
    · cases h
    · split at h <;> cases h; simp [shapeOf]
    · cases h; simp
    · split at h <;> cases h; simp
  | fpow7 d a =>
    refine execEnds_of_rule ((exec_fpow7 d a s).trans rfl) fun va vb hl => ?_
    refine ⟨fun r h => ?_, fun c h => ?_⟩ <;> split at h <;> cases h
    · simp [shapeOf]
    · simp
  | fred d a =>
    refine execEnds_of_rule ((exec_fred d a s).trans rfl) fun va vb hl => ?_
    exact ⟨fun r h => by cases h; rfl, fun c h => by cases h⟩
  | fcanon d a =>
    refine execEnds_of_rule ((exec_fcanon d a s).trans rfl) fun va vb hl => ?_
    exact ⟨fun r h => by cases h; rfl, fun c h => by cases h⟩
  | eadd d a b =>
    refine execEnds_of_rule ((exec_eadd d a b s).trans rfl) fun va vb hl => ?_
    refine ⟨fun r h => ?_, fun c h => ?_⟩ <;> split at h <;> cases h
    · simp [shapeOf]
    · simp
  | esub d a b =>
    refine execEnds_of_rule ((exec_esub d a b s).trans rfl) fun va vb hl => ?_
    refine ⟨fun r h => ?_, fun c h => ?_⟩ <;> split at h <;> cases h
    · simp [shapeOf]
    · simp
  | emul d a b =>
    refine execEnds_of_rule ((exec_emul d a b s).trans rfl) fun va vb hl => ?_
    refine ⟨fun r h => ?_, fun c h => ?_⟩ <;> split at h <;> cases h
    · simp [shapeOf]
    · simp
  | einv d a =>
    refine execEnds_of_rule ((exec_einv d a s).trans rfl) fun va vb hl => ?_
    refine ⟨fun r h => ?_, fun c h => ?_⟩ <;> split at h
    · cases h
    · split at h <;> cases h; simp [shapeOf]
    · cases h; simp
    · split at h <;> cases h; simp
  | eembed d a =>
    refine execEnds_of_rule ((exec_eembed d a s).trans rfl) fun va vb hl => ?_
    refine ⟨fun r h => ?_, fun c h => ?_⟩ <;> split at h <;> cases h
    · simp [shapeOf]
    · simp
  | eeq d a b =>
    refine execEnds_of_rule ((exec_eeq d a b s).trans rfl) fun va vb hl => ?_
    refine ⟨fun r h => ?_, fun c h => ?_⟩ <;> split at h <;> cases h
    · simp [shapeOf]
    · simp
  | perm d a =>
    refine execEnds_of_rule ((exec_perm d a s).trans rfl) fun va vb hl => ?_
    refine ⟨fun r h => ?_, fun c h => ?_⟩ <;> split at h <;> cases h
    · exact (words_length _).trans (permute_length _ _ ((numbers_length va).trans hl))
    · simp
  | hashnp d a =>
    refine execEnds_of_rule ((exec_hashnp d a s).trans rfl) fun va vb hl => ?_
    refine ⟨fun r h => ?_, fun c h => ?_⟩ <;> split at h <;> cases h
    · exact (words_length _).trans (sponge_length _ _ _ (by decide))
    · simp
  | hashn d a =>
    refine execEnds_of_rule ((exec_hashn d a s).trans rfl) fun va vb hl => ?_
    refine ⟨fun r h => ?_, fun c h => ?_⟩ <;> split at h <;> cases h
    · exact (words_length _).trans (sponge_length _ _ _ (by decide))
    · simp
  | h2q d a =>
    refine execEnds_of_rule ((exec_h2q d a s).trans rfl) fun va vb hl => ?_
    refine ⟨fun r h => ?_, fun c h => ?_⟩ <;> split at h <;> cases h
    · exact (words_length _).trans (sponge_length _ _ _ (by decide))
    · simp
  | padd d a b =>
    refine execEnds_of_rule ((exec_padd d a b s).trans rfl) fun va vb hl => ?_
    refine ⟨fun r h => ?_, fun c h => ?_⟩ <;> split at h
    · cases h
    · split at h <;> cases h; simp [shapeOf]
    · cases h; simp
    · split at h <;> cases h; simp
  | pdbl d a =>
    refine execEnds_of_rule ((exec_pdbl d a s).trans rfl) fun va vb hl => ?_
    refine ⟨fun r h => ?_, fun c h => ?_⟩ <;> split at h
    · cases h
    · split at h <;> cases h; simp [shapeOf]
    · cases h; simp
    · split at h <;> cases h; simp
  | pvalid d a =>
    refine execEnds_of_rule ((exec_pvalid d a s).trans rfl) fun va vb hl => ?_
    exact ⟨fun r h => by cases h; rfl, fun c h => by cases h⟩
  | pmul d a b =>
    refine execEnds_of_rule ((exec_pmul d a b s).trans rfl) fun va vb hl => ?_
    refine ⟨fun r h => ?_, fun c h => ?_⟩ <;> split at h
    · cases h
    · split at h <;> cases h; simp [shapeOf]
    · cases h; simp
    · split at h <;> cases h; simp
  | pkgen d a =>
    refine execEnds_of_rule ((exec_pkgen d a s).trans rfl) fun va vb hl => ?_
    refine ⟨fun r h => ?_, fun c h => ?_⟩ <;> split at h <;> cases h
    · simp [shapeOf]
    · simp
  | sign d a b =>
    refine execEnds_of_rule ((exec_sign d a b s).trans rfl) fun va vb hl => ?_
    refine ⟨fun r h => ?_, fun c h => ?_⟩
    · split at h
      · cases h
      · split at h
        · cases h
        · next sig hs => cases h; exact (words_length sig).trans (signMessage_length _ _ _ _ hs)
    · split at h
      · cases h; simp
      · split at h
        · next e hs => cases h; rw [signMessage_error _ _ _ _ hs]; simp
        · cases h
  | verify d a b =>
    refine execEnds_of_rule ((exec_verify d a b s).trans rfl) fun va vb hl => ?_
    refine ⟨fun r h => ?_, fun c h => ?_⟩
    · split at h <;> cases h; rfl
    · split at h
      · next e hv => cases h; exact verifyMessage_error _ _ _ _ _ hv
      · cases h

/-- Every command is the execution frame around a rule that knows the operands and the configuration only: two states of one
configuration run the same rule. -/
theorem exec_runCommand (i : Instr) (s t : State) (h : t.config = s.config) :
    ∃ rule, exec i s = runCommand i s rule ∧ exec i t = runCommand i t rule := by
  cases i
  case fadd d a b => exact ⟨_, (exec_fadd d a b s).trans rfl, by simp only [exec_fadd, execFadd]⟩
  case fsub d a b => exact ⟨_, (exec_fsub d a b s).trans rfl, by simp only [exec_fsub, execFsub]⟩
  case fneg d a => exact ⟨_, (exec_fneg d a s).trans rfl, by simp only [exec_fneg, execFneg]⟩
  case fmul d a b => exact ⟨_, (exec_fmul d a b s).trans rfl, by simp only [exec_fmul, execFmul]⟩
  case finv d a => exact ⟨_, (exec_finv d a s).trans rfl, by simp only [exec_finv, execFinv]⟩
  case fpow7 d a => exact ⟨_, (exec_fpow7 d a s).trans rfl, by simp only [exec_fpow7, execFpow7]⟩
  case fred d a => exact ⟨_, (exec_fred d a s).trans rfl, by simp only [exec_fred, execFred]⟩
  case fcanon d a => exact ⟨_, (exec_fcanon d a s).trans rfl, by simp only [exec_fcanon, execFcanon]⟩
  case eadd d a b => exact ⟨_, (exec_eadd d a b s).trans rfl, by simp only [exec_eadd, execEadd]⟩
  case esub d a b => exact ⟨_, (exec_esub d a b s).trans rfl, by simp only [exec_esub, execEsub]⟩
  case emul d a b => exact ⟨_, (exec_emul d a b s).trans rfl, by simp only [exec_emul, execEmul]⟩
  case einv d a => exact ⟨_, (exec_einv d a s).trans rfl, by simp only [exec_einv, execEinv]⟩
  case eembed d a => exact ⟨_, (exec_eembed d a s).trans rfl, by simp only [exec_eembed, execEembed]⟩
  case eeq d a b => exact ⟨_, (exec_eeq d a b s).trans rfl, by simp only [exec_eeq, execEeq]⟩
  case perm d a => exact ⟨_, (exec_perm d a s).trans rfl, by simp only [exec_perm, execPerm, h]⟩
  case hashnp d a => exact ⟨_, (exec_hashnp d a s).trans rfl, by simp only [exec_hashnp, execHashnp, h]⟩
  case hashn d a => exact ⟨_, (exec_hashn d a s).trans rfl, by simp only [exec_hashn, execHashn, h]⟩
  case h2q d a => exact ⟨_, (exec_h2q d a s).trans rfl, by simp only [exec_h2q, execH2q, h]⟩
  case padd d a b => exact ⟨_, (exec_padd d a b s).trans rfl, by simp only [exec_padd, execPadd, h]⟩
  case pdbl d a => exact ⟨_, (exec_pdbl d a s).trans rfl, by simp only [exec_pdbl, execPdbl, h]⟩
  case pvalid d a => exact ⟨_, (exec_pvalid d a s).trans rfl, by simp only [exec_pvalid, execPvalid, h]⟩
  case pmul d a b => exact ⟨_, (exec_pmul d a b s).trans rfl, by simp only [exec_pmul, execPmul, h]⟩
  case pkgen d a => exact ⟨_, (exec_pkgen d a s).trans rfl, by simp only [exec_pkgen, execPkgen, h]⟩
  case sign d a b => exact ⟨_, (exec_sign d a b s).trans rfl, by simp only [exec_sign, execSign, h]⟩
  case verify d a b => exact ⟨_, (exec_verify d a b s).trans rfl, by simp only [exec_verify, execVerify, h]⟩

end Sys2Proof.Machine
end

