-- ==== Sys2Proof/Laws/PerInstr.lean ====
section
/-!
SUPPORT. The encoding of every command, field by field (spec/30_encoding.md R100): the family EncodedFields.
-/

namespace Sys2Proof.Laws

/-- The fields of `enc op sa sb da` are its arguments, when they fit (R100). -/
theorem enc_fields (op sa sb da : Nat) (hop : op < 2 ^ 8) (hsa : sa < 2 ^ 16) (hsb : sb < 2 ^ 16) (hda : da < 2 ^ 16) :
    fieldOP (enc op sa sb da) = op ∧ fieldSA (enc op sa sb da) = sa ∧ fieldSB (enc op sa sb da) = sb ∧
      fieldDA (enc op sa sb da) = da ∧ fieldRSV (enc op sa sb da) = 0 := by
  have h1 : op ||| sa <<< 8 = op + sa * 2 ^ 8 := by
    rw [Nat.or_comm, ← Nat.shiftLeft_add_eq_or_of_lt hop, Nat.shiftLeft_eq]; omega
  have h2 : (op + sa * 2 ^ 8) ||| sb <<< 24 = op + sa * 2 ^ 8 + sb * 2 ^ 24 := by
    rw [Nat.or_comm, ← Nat.shiftLeft_add_eq_or_of_lt (show op + sa * 2 ^ 8 < 2 ^ 24 by omega), Nat.shiftLeft_eq]; omega
  have h3 : (op + sa * 2 ^ 8 + sb * 2 ^ 24) ||| da <<< 40 = op + sa * 2 ^ 8 + sb * 2 ^ 24 + da * 2 ^ 40 := by
    rw [Nat.or_comm, ← Nat.shiftLeft_add_eq_or_of_lt (show op + sa * 2 ^ 8 + sb * 2 ^ 24 < 2 ^ 40 by omega),
      Nat.shiftLeft_eq]; omega
  simp only [fieldOP, fieldSA, fieldSB, fieldDA, fieldRSV, enc, BitVec.extractLsb'_toNat, BitVec.toNat_ofNat,
    Nat.shiftRight_eq_div_pow]
  rw [h1, h2, h3]
  omega

namespace EncodedFields

/-- Every field of a well-formed command's word is what the command says, and the reserved bits are 0. -/
def Statement (i : Instr) : Prop :=
  i.wf = true →
    fieldOP (encode i) = opcode i ∧ fieldSA (encode i) = i.sa ∧ fieldSB (encode i) = i.sb ∧
      fieldDA (encode i) = i.da ∧ fieldRSV (encode i) = 0

/-- The bounds that well-formedness gives. -/
theorem wf_bounds {i : Instr} (h : i.wf = true) : i.da < 2 ^ 16 ∧ i.sa < 2 ^ 16 ∧ i.sb < 2 ^ 16 := by
  simpa [Instr.wf, and_assoc] using h

/-- The statement for a command whose opcode is a byte. -/
theorem of_opcode {i : Instr} (ho : opcode i < 2 ^ 8) : Statement i := fun h =>
  have hb := wf_bounds h
  enc_fields _ _ _ _ ho hb.2.1 hb.2.2 hb.1

theorem fadd (d a b : Nat) : Statement (.fadd d a b) := of_opcode (by simp [opcode])
theorem fsub (d a b : Nat) : Statement (.fsub d a b) := of_opcode (by simp [opcode])
theorem fneg (d a : Nat) : Statement (.fneg d a) := of_opcode (by simp [opcode])
theorem fmul (d a b : Nat) : Statement (.fmul d a b) := of_opcode (by simp [opcode])
theorem finv (d a : Nat) : Statement (.finv d a) := of_opcode (by simp [opcode])
theorem fpow7 (d a : Nat) : Statement (.fpow7 d a) := of_opcode (by simp [opcode])
theorem fred (d a : Nat) : Statement (.fred d a) := of_opcode (by simp [opcode])
theorem fcanon (d a : Nat) : Statement (.fcanon d a) := of_opcode (by simp [opcode])
theorem eadd (d a b : Nat) : Statement (.eadd d a b) := of_opcode (by simp [opcode])
theorem esub (d a b : Nat) : Statement (.esub d a b) := of_opcode (by simp [opcode])
theorem emul (d a b : Nat) : Statement (.emul d a b) := of_opcode (by simp [opcode])
theorem einv (d a : Nat) : Statement (.einv d a) := of_opcode (by simp [opcode])
theorem eembed (d a : Nat) : Statement (.eembed d a) := of_opcode (by simp [opcode])
theorem eeq (d a b : Nat) : Statement (.eeq d a b) := of_opcode (by simp [opcode])
theorem perm (d a : Nat) : Statement (.perm d a) := of_opcode (by simp [opcode])
theorem hashnp (d a : Nat) : Statement (.hashnp d a) := of_opcode (by simp [opcode])
theorem hashn (d a : Nat) : Statement (.hashn d a) := of_opcode (by simp [opcode])
theorem h2q (d a : Nat) : Statement (.h2q d a) := of_opcode (by simp [opcode])
theorem padd (d a b : Nat) : Statement (.padd d a b) := of_opcode (by simp [opcode])
theorem pdbl (d a : Nat) : Statement (.pdbl d a) := of_opcode (by simp [opcode])
theorem pvalid (d a : Nat) : Statement (.pvalid d a) := of_opcode (by simp [opcode])
theorem pmul (d a b : Nat) : Statement (.pmul d a b) := of_opcode (by simp [opcode])
theorem pkgen (d a : Nat) : Statement (.pkgen d a) := of_opcode (by simp [opcode])
theorem sign (d a b : Nat) : Statement (.sign d a b) := of_opcode (by simp [opcode])
theorem verify (d a b : Nat) : Statement (.verify d a b) := of_opcode (by simp [opcode])

end EncodedFields

end Sys2Proof.Laws
end

