-- ==== Sys2Proof/Laws/Step.lean ====
section
/-!
SUPPORT. What one step can do, said once (`step_cases`), and the small lemmas of the turns.
-/

namespace Sys2Proof.Machine

theorem step_free {s : State} (h : s.turns = []) : step s = freeTurn s := by
  unfold step; rw [h]

theorem step_turn {s : State} {t : Turn} {rest : List Turn} (h : s.turns = t :: rest) :
    step s = takeTurn t { s with turns := rest } := by
  unfold step; rw [h]

theorem hostTurn_nil {s : State} (h : s.program = []) : hostTurn s = .next s := by
  unfold hostTurn; rw [h]

theorem hostTurn_cons {s : State} {op : HostOp} {rest : List HostOp} (h : s.program = op :: rest) :
    hostTurn s = hostAct op { s with program := rest } := by
  unfold hostTurn; rw [h]

theorem engineTurn_busy {s : State} (h : s.status.busy = true) : engineTurn s = engineStep s := by simp [engineTurn, h]

theorem engineTurn_idle {s : State} (h : s.status.busy = false) : engineTurn s = .next s := by simp [engineTurn, h]

/-- The state a step starts from once the turn is taken off the list. -/
def State.turnTaken (s : State) : State := { s with turns := s.turns.tail }

@[simp] theorem State.turnTaken_cmd (s : State) : s.turnTaken.cmd = s.cmd := rfl
@[simp] theorem State.turnTaken_len (s : State) : s.turnTaken.len = s.len := rfl
@[simp] theorem State.turnTaken_status (s : State) : s.turnTaken.status = s.status := rfl
@[simp] theorem State.turnTaken_plen (s : State) : s.turnTaken.plen = s.plen := rfl
@[simp] theorem State.turnTaken_wmem (s : State) : s.turnTaken.wmem = s.wmem := rfl
@[simp] theorem State.turnTaken_config (s : State) : s.turnTaken.config = s.config := rfl
@[simp] theorem State.turnTaken_program (s : State) : s.turnTaken.program = s.program := rfl
@[simp] theorem State.turnTaken_replies (s : State) : s.turnTaken.replies = s.replies := rfl

/-- Everything a step can be: nothing, a host action, the engine step of a busy engine, or a hardware reset. -/
theorem step_cases (s : State) :
    step s = .next s.turnTaken ∨
      (∃ op rest, s.program = op :: rest ∧ step s = hostAct op { s.turnTaken with program := rest }) ∨
      (s.status.busy = true ∧ step s = engineStep s.turnTaken) ∨
      step s = .next (hardwareReset s.turnTaken) := by
  have host : hostTurn s.turnTaken = .next s.turnTaken ∨
      ∃ op rest, s.program = op :: rest ∧ hostTurn s.turnTaken = hostAct op { s.turnTaken with program := rest } := by
    cases hp : s.program with
    | nil => exact .inl (hostTurn_nil hp)
    | cons op rest => exact .inr ⟨op, rest, rfl, hostTurn_cons hp⟩
  cases ht : s.turns with
  | nil =>
    have hs : s.turnTaken = s := by cases s; cases ht; rfl
    rw [step_free ht]
    cases hb : s.status.busy with
    | true => exact .inr (.inr (.inl ⟨rfl, by rw [hs]; simp [freeTurn, hb]⟩))
    | false =>
      have : freeTurn s = hostTurn s.turnTaken := by rw [hs]; simp [freeTurn, hb]
      rw [this]
      rcases host with h | ⟨op, rest, hp, h⟩
      · exact .inl h
      · exact .inr (.inl ⟨op, rest, hp, h⟩)
  | cons t rest =>
    have hs : s.turnTaken = { s with turns := rest } := by simp [State.turnTaken, ht]
    rw [step_turn ht, ← hs]
    cases t with
    | host =>
      rcases host with h | ⟨op, rest, hp, h⟩
      · exact .inl h
      · exact .inr (.inl ⟨op, rest, hp, h⟩)
    | engine =>
      cases hb : s.status.busy with
      | true => exact .inr (.inr (.inl ⟨rfl, engineTurn_busy hb⟩))
      | false => exact .inl (engineTurn_idle hb)
    | hardwareReset => exact .inr (.inr (.inr rfl))

/-- What a busy engine does: an illegal word completes with ILLEGAL_CMD, a legal one is executed. -/
theorem engineStep_cases (s : State) :
    (∃ e, decode s.cmd = .error e ∧ engineStep s = .next (s.completeError .illegalCmd)) ∨
      (∃ i, decode s.cmd = .ok i ∧ engineStep s = exec i s) := by
  unfold engineStep
  cases h : decode s.cmd with
  | error e => exact .inl ⟨e, rfl, rfl⟩
  | ok i => exact .inr ⟨i, rfl, rfl⟩

end Sys2Proof.Machine
end

