-- ==== Sys2Proof/Machine/Assembly.lean ====
section
/-!
DEFINITION. The spec's own written form of commands and host actions (spec/30_encoding.md R117). Addresses and values are
written in decimal, one of the two forms R117 allows.
-/

namespace Sys2Proof.Machine

/-- `MNEMONIC d, a, b`. -/
def line3 (name : String) (d a b : Nat) : String := name ++ " " ++ toString d ++ ", " ++ toString a ++ ", " ++ toString b

/-- `MNEMONIC d, a`. -/
def line2 (name : String) (d a : Nat) : String := name ++ " " ++ toString d ++ ", " ++ toString a

/-- A command in the syntax of R117: the operands it uses, destination first. -/
def renderInstr : Instr → String
  | .fadd d a b => line3 "FADD" d a b
  | .fsub d a b => line3 "FSUB" d a b
  | .fneg d a => line2 "FNEG" d a
  | .fmul d a b => line3 "FMUL" d a b
  | .finv d a => line2 "FINV" d a
  | .fpow7 d a => line2 "FPOW7" d a
  | .fred d a => line2 "FRED" d a
  | .fcanon d a => line2 "FCANON" d a
  | .eadd d a b => line3 "EADD" d a b
  | .esub d a b => line3 "ESUB" d a b
  | .emul d a b => line3 "EMUL" d a b
  | .einv d a => line2 "EINV" d a
  | .eembed d a => line2 "EEMBED" d a
  | .eeq d a b => line3 "EEQ" d a b
  | .perm d a => line2 "PERM" d a
  | .hashnp d a => line2 "HASHNP" d a
  | .hashn d a => line2 "HASHN" d a
  | .h2q d a => line2 "H2Q" d a
  | .padd d a b => line3 "PADD" d a b
  | .pdbl d a => line2 "PDBL" d a
  | .pvalid d a => line2 "PVALID" d a
  | .pmul d a b => line3 "PMUL" d a b
  | .pkgen d a => line2 "PKGEN" d a
  | .sign d a b => line3 "SIGN" d a b
  | .verify d a b => line3 "VERIFY" d a b

/-- The name of a CSR (R32); a reserved index has none and is written by its number. -/
def csrName (i : BitVec 3) : String :=
  match i.toNat with
  | 0 => "CMD"
  | 1 => "LEN"
  | 2 => "STATUS"
  | 3 => "CTRL"
  | 4 => "CFG"
  | n => toString n

/-- A host action in the syntax of R117; a CMD write of a command's own word is a `cmd` line. -/
def renderHost : HostOp → String
  | .memWrite a v => "mw " ++ toString a ++ ", " ++ toString v.toNat
  | .memRead a => "mr " ++ toString a
  | .csrRead i => "csrr " ++ csrName i
  | .csrWrite i v =>
    match decode v with
    | .ok c =>
      if i.toNat = 0 ∧ encode c = v then "cmd " ++ renderInstr c
      else "csrw " ++ csrName i ++ ", " ++ toString v.toNat
    | .error _ => "csrw " ++ csrName i ++ ", " ++ toString v.toNat
  | .wait => "wait"

end Sys2Proof.Machine
end

