-- ==== Sys2Proof/Tests/Slice0.lean ====
section
/-!
SUPPORT. Small tests. Expected values are those of spec/95_test_vectors.md, or written out by hand from the rules; the
witnesses show, for every statement that has hypotheses, a state and operands that meet them.
-/

namespace Sys2Proof.Tests

open Sys2Proof Sys2Proof.Machine

-- One proof at a time: each is checked on a thread of its own otherwise, and the stacks of all of them do not fit in memory.
set_option Elab.async false

/-! The test configurations of 95_test_vectors.md section 1. -/

/-- T0 with TC1: the permutation that can be checked by hand, and the group of order 2. -/
def t0tc1 : Config where
  wmemAw := 16
  spongePolicy := .literal
  permRf := 2
  permRp := 1
  permMds := (List.range 12).map fun i => (List.range 12).map fun j => if i = j then 1 else 0
  permRc := (List.range 3).map fun r => List.replicate 12 (r + 1)
  curveA2 := ⟨2, 0, 0, 0, 0⟩
  curveA4 := ⟨0, 263, 0, 0, 0⟩
  curveA6 := ⟨0, 0, 0, 0, 0⟩
  gen := .affine ⟨0, 0, 0, 0, 0⟩ ⟨0, 0, 0, 0, 0⟩
  groupN := 2
  hostByteOrder := .little

/-- The first row of T1's matrix without the diagonal: CIRC. -/
def circ : List Nat := [17, 15, 41, 16, 2, 28, 13, 13, 39, 18, 34, 20]

/-- T1 with TC1. -/
def t1tc1 : Config :=
  { t0tc1 with
    permRf := 8
    permRp := 22
    permMds := (List.range 12).map fun i => (List.range 12).map fun j =>
      circ.getD ((j + 12 - i) % 12) 0 + if i = 0 ∧ j = 0 then 8 else 0
    permRc := (List.range 30).map fun r => (List.range 12).map fun i => 12 * r + i + 1 }

/-- T1 with TC2. -/
def t1tc2 : Config :=
  { t1tc1 with
    curveA2 := ⟨0, 0, 0, 0, 0⟩
    curveA4 := ⟨3, 0, 0, 0, 0⟩
    curveA6 := ⟨99, 0, 0, 0, 0⟩
    gen := .affine ⟨2, 0, 0, 0, 0⟩ ⟨0x6E50AF8728283CA8, 0, 0, 0, 0⟩
    groupN := 0xFFFFFFFFF0C8CCB7 }

/-- AW4: WMEM of 16 words. -/
def aw4 : Config := { t1tc2 with wmemAw := 4 }

/-! Helpers. -/

/-- WMEM with the words `ws` at `a`, `a + 1`, .. -/
def cells (a : Nat) (ws : List Nat) : Memory :=
  match ws with
  | [] => []
  | w :: ws => (a, BitVec.ofNat 64 w) :: cells (a + 1) ws

/-- A busy engine with PLEN = `L` and WMEM `m`. -/
def busy (c : Config) (L : Nat) (m : Memory) : Machine.State :=
  { State.resetWith c with
    plen := BitVec.ofNat 64 L
    wmem := m
    status := { busy := true, done := false, err := false, ovr := false, errCode := .none } }

/-- The next state, where there is one. -/
def nextOf (o : Outcome) : Option Machine.State :=
  match o with
  | .next t => some t
  | .fault _ => none
  | .refused _ => none

/-- The fault, where there is one. -/
def faultOf (o : Outcome) : Option Fault :=
  match o with
  | .fault f => some f
  | .next _ => none
  | .refused _ => none

theorem next_of_nextOf {o : Outcome} {t : Machine.State} (h : nextOf o = some t) : o = .next t := by
  cases o <;> simp [nextOf] at h
  rw [h]

/-- STATUS after, and the words at `d`, of the outcome. -/
def result (o : Outcome) (d n : Nat) : Option (Word × List (Option Word)) :=
  (nextOf o).map fun t => (t.status.word, (List.range n).map fun k => t.wmem.read (d + k))

/-- A completion with STATUS = `status` and the words `ws` at the destination. -/
def done (status : Nat) (ws : List Nat) : Option (Word × List (Option Word)) :=
  some (BitVec.ofNat 64 status, ws.map fun w => some (BitVec.ofNat 64 w))

/-- A completion with STATUS = `status`, and none of the `n` destination words written. -/
def failed (status n : Nat) : Option (Word × List (Option Word)) :=
  some (BitVec.ofNat 64 status, List.replicate n none)

/-! WellFormed: each of its three checks refuses an ill-formed command. -/

theorem test_wf_refuses_wide_DA : (Instr.fadd 65536 0 0).wf = false := by decide

theorem test_wf_refuses_wide_SA : (Instr.sign 0 65536 0).wf = false := by decide

theorem test_wf_refuses_wide_SB : (Instr.verify 0 0 65536).wf = false := by decide

theorem test_wf_accepts_the_widest_addresses : (Instr.pmul 65535 65535 65535).wf = true := by decide

/-! Decode: a word of every command, written out field by field from the layout of R100, RSV ++ DA ++ SB ++ SA ++ OP. -/

theorem test_decode_base_field :
    decode (0x00#8 ++ 0x8112#16 ++ 0x4303#16 ++ 0x250B#16 ++ 0x01#8) = .ok (.fadd 0x8112 0x250B 0x4303) ∧
    decode (0x00#8 ++ 0x8223#16 ++ 0x4604#16 ++ 0x2A12#16 ++ 0x02#8) = .ok (.fsub 0x8223 0x2A12 0x4604) ∧
    decode (0x00#8 ++ 0x8334#16 ++ 0x4905#16 ++ 0x2F19#16 ++ 0x03#8) = .ok (.fneg 0x8334 0x2F19) ∧
    decode (0x00#8 ++ 0x8445#16 ++ 0x4C06#16 ++ 0x3420#16 ++ 0x04#8) = .ok (.fmul 0x8445 0x3420 0x4C06) ∧
    decode (0x00#8 ++ 0x8556#16 ++ 0x4F07#16 ++ 0x3927#16 ++ 0x05#8) = .ok (.finv 0x8556 0x3927) ∧
    decode (0x00#8 ++ 0x8667#16 ++ 0x5208#16 ++ 0x3E2E#16 ++ 0x06#8) = .ok (.fpow7 0x8667 0x3E2E) ∧
    decode (0x00#8 ++ 0x8778#16 ++ 0x5509#16 ++ 0x4335#16 ++ 0x07#8) = .ok (.fred 0x8778 0x4335) ∧
    decode (0x00#8 ++ 0x8889#16 ++ 0x580A#16 ++ 0x483C#16 ++ 0x08#8) = .ok (.fcanon 0x8889 0x483C) := by
  decide

theorem test_decode_extension :
    decode (0x00#8 ++ 0x899A#16 ++ 0x5B0B#16 ++ 0x4D43#16 ++ 0x10#8) = .ok (.eadd 0x899A 0x4D43 0x5B0B) ∧
    decode (0x00#8 ++ 0x8AAB#16 ++ 0x5E0C#16 ++ 0x524A#16 ++ 0x11#8) = .ok (.esub 0x8AAB 0x524A 0x5E0C) ∧
    decode (0x00#8 ++ 0x8BBC#16 ++ 0x610D#16 ++ 0x5751#16 ++ 0x12#8) = .ok (.emul 0x8BBC 0x5751 0x610D) ∧
    decode (0x00#8 ++ 0x8CCD#16 ++ 0x640E#16 ++ 0x5C58#16 ++ 0x13#8) = .ok (.einv 0x8CCD 0x5C58) ∧
    decode (0x00#8 ++ 0x8DDE#16 ++ 0x670F#16 ++ 0x615F#16 ++ 0x14#8) = .ok (.eembed 0x8DDE 0x615F) ∧
    decode (0x00#8 ++ 0x8EEF#16 ++ 0x6A10#16 ++ 0x6666#16 ++ 0x15#8) = .ok (.eeq 0x8EEF 0x6666 0x6A10) := by
  decide

theorem test_decode_permutation_and_hash :
    decode (0x00#8 ++ 0x9000#16 ++ 0x6D11#16 ++ 0x6B6D#16 ++ 0x20#8) = .ok (.perm 0x9000 0x6B6D) ∧
    decode (0x00#8 ++ 0x9111#16 ++ 0x7012#16 ++ 0x7074#16 ++ 0x21#8) = .ok (.hashnp 0x9111 0x7074) ∧
    decode (0x00#8 ++ 0x9222#16 ++ 0x7313#16 ++ 0x757B#16 ++ 0x22#8) = .ok (.hashn 0x9222 0x757B) ∧
    decode (0x00#8 ++ 0x9333#16 ++ 0x7614#16 ++ 0x7A82#16 ++ 0x23#8) = .ok (.h2q 0x9333 0x7A82) := by
  decide

theorem test_decode_group :
    decode (0x00#8 ++ 0x9444#16 ++ 0x7915#16 ++ 0x7F89#16 ++ 0x30#8) = .ok (.padd 0x9444 0x7F89 0x7915) ∧
    decode (0x00#8 ++ 0x9555#16 ++ 0x7C16#16 ++ 0x8490#16 ++ 0x31#8) = .ok (.pdbl 0x9555 0x8490) ∧
    decode (0x00#8 ++ 0x9666#16 ++ 0x7F17#16 ++ 0x8997#16 ++ 0x32#8) = .ok (.pvalid 0x9666 0x8997) ∧
    decode (0x00#8 ++ 0x9777#16 ++ 0x8218#16 ++ 0x8E9E#16 ++ 0x33#8) = .ok (.pmul 0x9777 0x8E9E 0x8218) ∧
    decode (0x00#8 ++ 0x9888#16 ++ 0x8519#16 ++ 0x93A5#16 ++ 0x34#8) = .ok (.pkgen 0x9888 0x93A5) := by
  decide

theorem test_decode_signature :
    decode (0x00#8 ++ 0x9999#16 ++ 0x881A#16 ++ 0x98AC#16 ++ 0x40#8) = .ok (.sign 0x9999 0x98AC 0x881A) ∧
    decode (0x00#8 ++ 0x9AAA#16 ++ 0x8B1B#16 ++ 0x9DB3#16 ++ 0x41#8) = .ok (.verify 0x9AAA 0x9DB3 0x8B1B) := by
  decide

/-- R100's example bit by bit: FADD 2, 0, 1. -/
theorem test_decode_fadd_bits :
    decode 0b0000000000000000000000100000000000000001000000000000000000000001 = .ok (.fadd 2 0 1) := by decide

theorem test_decode_refuses_reserved_bits_and_unassigned_opcodes :
    decode 0x8000000000000001 = .error (.reservedBits 0x80) ∧ decode 0x0000000000000009 = .error (.unassignedOpcode 9) ∧
      decode 0x0000000000000016 = .error (.unassignedOpcode 0x16) ∧ decode 0x0000000000000024 = .error (.unassignedOpcode 0x24) ∧
      decode 0x0000000000000035 = .error (.unassignedOpcode 0x35) ∧ decode 0x00000000000000FF = .error (.unassignedOpcode 0xFF) := by
  decide

/-! The commands, on the vectors of 95_test_vectors.md sections 3 to 8. -/

theorem test_FADD_carry :
    result (exec (.fadd 2 0 1) (busy t0tc1 0 (cells 0 [0x8000000000000000, 0x8000000000000000]))) 2 1 =
      done 0x2 [0x00000000FFFFFFFF] := by
  decide +kernel

theorem test_FADD_noncanonical :
    result (exec (.fadd 2 0 1) (busy t0tc1 0 (cells 0 [0xFFFFFFFF00000001, 0]))) 2 1 =
      failed 0x406 1 := by
  decide +kernel

theorem test_FSUB_borrow :
    result (exec (.fsub 2 0 1) (busy t0tc1 0 (cells 0 [0x0000000100000000, 0x0000000100000001]))) 2 1 =
      done 0x2 [0xFFFFFFFF00000000] := by
  decide +kernel

theorem test_FSUB_noncanonical_B :
    result (exec (.fsub 2 0 1) (busy t0tc1 0 (cells 0 [1, 0xFFFFFFFFFFFFFFFF]))) 2 1 =
      failed 0x406 1 := by
  decide +kernel

theorem test_FNEG :
    result (exec (.fneg 1 0) (busy t0tc1 0 (cells 0 [0x0000000100000000]))) 1 1 =
      done 0x2 [0xFFFFFFFE00000001] := by
  decide +kernel

/-- The source is also the destination. -/
theorem test_FNEG_zero : result (exec (.fneg 0 0) (busy t0tc1 0 (cells 0 [0]))) 0 1 = done 0x2 [0] := by
  decide +kernel

theorem test_FMUL :
    result (exec (.fmul 2 0 1) (busy t0tc1 0 (cells 0 [0xDEADBEEF, 0x12345678]))) 2 1 =
      done 0x2 [0x0FD5BDEE5621CA08] := by
  decide +kernel

theorem test_FMUL_minus_one :
    result (exec (.fmul 2 0 1) (busy t0tc1 0 (cells 0 [0x0001000000000000, 0x0001000000000000]))) 2 1 =
      done 0x2 [0xFFFFFFFF00000000] := by
  decide +kernel

theorem test_FINV : result (exec (.finv 1 0) (busy t0tc1 0 (cells 0 [5]))) 1 1 = done 0x2 [0xCCCCCCCC00000001] := by
  decide +kernel

theorem test_FINV_zero : result (exec (.finv 1 0) (busy t0tc1 0 (cells 0 [0]))) 1 1 = failed 0x606 1 := by
  decide +kernel

theorem test_FPOW7 : result (exec (.fpow7 1 0) (busy t0tc1 0 (cells 0 [3]))) 1 1 = done 0x2 [0x88B] := by
  decide +kernel

theorem test_FPOW7_wraps :
    result (exec (.fpow7 1 0) (busy t0tc1 0 (cells 0 [0x0000000100000000]))) 1 1 =
      done 0x2 [0x0000000100000000] := by
  decide +kernel

theorem test_FRED_all_ones :
    result (exec (.fred 2 0) (busy t0tc1 0 (cells 0 [0xFFFFFFFFFFFFFFFF, 0xFFFFFFFFFFFFFFFF]))) 2 1 =
      done 0x2 [0xFFFFFFFE00000000] := by
  decide +kernel

theorem test_FRED_low_word_first :
    result (exec (.fred 2 0) (busy t0tc1 0 (cells 0 [0, 0x0000000100000000]))) 2 1 =
      done 0x2 [0xFFFFFFFF00000000] := by
  decide +kernel

theorem test_FCANON : result (exec (.fcanon 1 0) (busy t0tc1 0 (cells 0 [0xFFFFFFFF00000002]))) 1 1 = done 0x2 [1] := by
  decide +kernel

theorem test_EADD :
    result (exec (.eadd 10 0 5) (busy t0tc1 0 (cells 0 [1, 2, 3, 4, 5, 6, 7, 8, 9, 10]))) 10 5 =
      done 0x2 [7, 9, 11, 13, 15] := by
  decide +kernel

theorem test_ESUB :
    result (exec (.esub 10 0 5) (busy t0tc1 0 (cells 0 [0, 0, 0, 0, 0, 1, 2, 3, 4, 5]))) 10 5 =
      done 0x2 [0xFFFFFFFF00000000, 0xFFFFFFFEFFFFFFFF, 0xFFFFFFFEFFFFFFFE, 0xFFFFFFFEFFFFFFFD, 0xFFFFFFFEFFFFFFFC] := by
  decide +kernel

/-- The destination overlaps source A. -/
theorem test_EMUL :
    result (exec (.emul 0 0 5) (busy t0tc1 0 (cells 0 [1, 2, 3, 4, 5, 6, 7, 8, 9, 10]))) 0 5 =
      done 0x2 [348, 337, 295, 220, 110] := by
  decide +kernel

theorem test_EINV :
    result (exec (.einv 5 0) (busy t0tc1 0 (cells 0 [1, 2, 3, 4, 5]))) 5 5 =
      done 0x2 [0xE134C15C2799A6AD, 0x3F2E8C7F04D2DE5C, 0xA129128DC8055ACA, 0x7F243D8C3804B985, 0xBB7A546C5E9AC1D0] := by
  decide +kernel

theorem test_EINV_zero : result (exec (.einv 5 0) (busy t0tc1 0 (cells 0 [0, 0, 0, 0, 0]))) 5 5 = failed 0x606 5 := by
  decide +kernel

theorem test_EEMBED : result (exec (.eembed 1 0) (busy t0tc1 0 (cells 0 [5]))) 1 5 = done 0x2 [5, 0, 0, 0, 0] := by
  decide +kernel

theorem test_EEQ_equal : result (exec (.eeq 10 0 0) (busy t0tc1 0 (cells 0 [1, 2, 3, 4, 5]))) 10 1 = done 0x2 [1] := by
  decide +kernel

theorem test_EEQ_different :
    result (exec (.eeq 10 0 5) (busy t0tc1 0 (cells 0 [1, 2, 3, 4, 5, 1, 2, 3, 4, 6]))) 10 1 =
      done 0x2 [0] := by
  decide +kernel

theorem test_PERM_T0 :
    result (exec (.perm 0 0) (busy t0tc1 0 (cells 0 [1, 0, 0, 0, 0, 0, 0, 0, 0, 0, 0, 0]))) 0 12 =
      done 0x2 (0xE1FE5C16704B4ED7 :: List.replicate 11 0x44580) := by
  decide +kernel

theorem test_PERM_T1 :
    result (exec (.perm 12 0) (busy t1tc1 0 (cells 0 (List.range 12)))) 12 12 =
      done 0x2 [0xF1F968E88B5517F6, 0x5A1B5DD7B4476639, 0x877F86FF9EF56C00, 0xAB9DD998D82C0E9E, 0x74574D28528C02CF,
        0xD0E86754C0940116, 0xA4A65A5DE92624C7, 0xC182F956E093EDA4, 0xAFE2A6A909D486F3, 0xB28660633CC8B35C, 0xC2CE6F7C1E09BEE1,
        0xB856749297848FE1] := by
  decide +kernel

theorem test_HASHNP_literal :
    result (exec (.hashnp 10 0) (busy t1tc1 8 (cells 0 [1, 2, 3, 4, 5, 6, 7, 8]))) 10 4 =
      done 0x2 [0x0979AE1095616C37, 0xC181AC06577336C1, 0xF0FE1159666F3F8A, 0x12EAD5DA46424BFD] := by
  decide +kernel

theorem test_HASHN_ceil :
    result (exec (.hashn 10 0) (busy { t1tc1 with spongePolicy := .ceil } 8 (cells 0 [1, 2, 3, 4, 5, 6, 7, 8]))) 10 4 =
      done 0x2 [0x5FCE5D8781AD6315, 0x6C8F9792069BD6D7, 0x65C4BD6E7CF5550B, 0xCFD686E7404CB188] := by
  decide +kernel

theorem test_H2Q :
    result (exec (.h2q 10 0) (busy t1tc1 3 (cells 0 [1, 2, 3]))) 10 5 =
      done 0x2 [0xDA9E338871A5FB3B, 0xA49059BA03B58BB3, 0xC79BE07E29A5824A, 0xD5702540B4FE9D30, 0x5D24F874DE3486C6] := by
  decide +kernel

theorem test_H2Q_no_input_ignores_SA :
    result (exec (.h2q 10 0xFFFF) (busy t1tc1 0 ([]))) 10 5 =
      done 0x2 [0x3CE721F3DC17644A, 0x12E84A39DCAADC4D, 0x353F3EC7E8A4C52B, 0x9E6A680660DC362E, 0xEAB7296336E4100F] := by
  decide +kernel

/-- The encodings of the points A and B of section 7.1. -/
def encA : List Nat :=
  [1, 0, 0, 0, 0, 0x26F517103F2DCD63, 0xFDC01CAF3A218056, 0xC0F86C1B25551BD6, 0x45E8D6E78ABB60B2, 0x0CC1B055291181D0, 0]

def encB : List Nat :=
  [5, 0, 0, 0, 0, 0x1A46E863E8D70197, 0x69F915D525DB45BE, 0x5237B2F973FC6749, 0x9892F398793726FD, 0x26C6380593DDE4B9, 0]

/-- GEN of TC2. -/
def encG : List Nat := [2, 0, 0, 0, 0, 0x6E50AF8728283CA8, 0, 0, 0, 0, 0]

theorem test_PADD :
    result (exec (.padd 22 0 11) (busy t1tc1 0 (cells 0 (encA ++ encB)))) 22 11 =
      done 0x2 [0xB39B770086757242, 0xB1432A5C411D71C1, 0x7ED5F216DD7CDC8E, 0x846481AC6FED6DC9, 0xABE4E517D15E44E9,
        0x967CEA8597BFA9B4, 0xF41C7668FE65A1F6, 0x81B1FD2463BDEBBA, 0x7F17029DFB788DAB, 0x043AB8682197CE18, 0] := by
  decide +kernel

theorem test_PADD_noncanonical_before_malformed :
    result (exec (.padd 22 0 11) (busy t1tc2 0 (cells 0 (encG.set 5 0x6E50AF8728283CA9 ++ encG.set 0 0xFFFFFFFF00000001)))) 22 1 =
      failed 0x406 1 := by
  decide +kernel

theorem test_PDBL :
    result (exec (.pdbl 11 0) (busy t1tc1 0 (cells 0 encA))) 11 11 =
      done 0x2 [0xBED746DD8EB062A0, 0x7AF21089A2EE39F6, 0x25C5AB5E49C0E81B, 0x10A450A9139B2ECE, 0x4D1060BE4930F8D0,
        0xFBD611D9D1092D8D, 0x99274FEFB9209F9C, 0xAB10685AB387B2DB, 0xF9A44F79EF6C3828, 0x8D118B0D5BFCA30A, 0] := by
  decide +kernel

theorem test_PDBL_malformed : result (exec (.pdbl 11 0) (busy t1tc2 0 (cells 0 (encG.set 10 2)))) 11 1 = failed 0x506 1 := by
  decide +kernel

theorem test_PVALID_identity :
    result (exec (.pvalid 11 0) (busy t1tc1 0 (cells 0 [0, 0, 0, 0, 0, 0, 0, 0, 0, 0, 1]))) 11 1 =
      done 0x2 [1] := by
  decide +kernel

theorem test_PVALID_off_curve :
    result (exec (.pvalid 11 0) (busy t1tc1 0 (cells 0 (encA.set 5 0x26F517103F2DCD64)))) 11 1 =
      done 0x2 [0] := by
  decide +kernel

theorem test_PMUL :
    result (exec (.pmul 16 0 11) (busy t1tc2 0 (cells 0 (encG ++ [3, 0, 0, 0, 0])))) 16 11 =
      done 0x2 [0x01A886AB54F4725C, 0, 0, 0, 0, 0x9FFA5818CD36081B, 0, 0, 0, 0, 0] := by
  decide +kernel

theorem test_PMUL_by_the_group_order :
    result (exec (.pmul 16 0 11) (busy t1tc1 0 (cells 0 (encA ++ [2, 0, 0, 0, 0])))) 16 11 =
      done 0x2 [0, 0, 0, 0, 0, 0, 0, 0, 0, 0, 1] := by
  decide +kernel

theorem test_PKGEN :
    result (exec (.pkgen 5 0) (busy t1tc2 0 (cells 0 [0xFFFFFFFFF0C8CCB8, 0, 0, 0, 0]))) 5 11 =
      done 0x2 encG := by
  decide +kernel

/-- sk = 2·GROUP_N, which has two nonzero words. -/
theorem test_PKGEN_degenerate :
    result (exec (.pkgen 5 0) (busy t1tc2 0 (cells 0 [0xFFFFFFFFE191996E, 1, 0, 0, 0]))) 5 1 =
      failed 0x706 1 := by
  decide +kernel

/-- Section 8.4: the nonce of try 0 is 0, so try 1 is taken. -/
theorem test_SIGN_resamples_the_nonce :
    result (exec (.sign 8 0 3) (busy t1tc1 3 (cells 0 [1, 2, 3, 1, 0, 0, 0, 0]))) 8 16 =
      done 0x2 (List.replicate 16 0) := by
  decide +kernel

theorem test_SIGN_degenerate :
    result (exec (.sign 8 0 3) (busy t1tc1 3 (cells 0 [1, 2, 3, 2, 0, 0, 0, 0]))) 8 1 =
      failed 0x706 1 := by
  decide +kernel

/-- Section 8.4: public key Enc(N) and the signature of all zeros. -/
theorem test_VERIFY_accepts :
    result (exec (.verify 30 0 3) (busy t1tc1 3 (cells 0 ([1, 2, 3] ++ List.replicate 27 0)))) 30 1 =
      done 0x2 [1] := by
  decide +kernel

theorem test_VERIFY_refuses_the_identity_as_key :
    result (exec (.verify 30 0 3) (busy t1tc1 3 (cells 0 ([1, 2, 3] ++ List.replicate 10 0 ++ [1] ++ List.replicate 16 0)))) 30 1 =
      done 0x2 [0] := by
  decide +kernel

/-! Errors, the host port and the resets, on section 9. -/

theorem test_CFG_default_and_AW4 : cfgWord t1tc1 = 0x0000000105080C10 ∧ cfgWord aw4 = 0x0000000105080C04 := by decide

theorem test_ADDR_RANGE_AW4 :
    result (exec (.fred 0 15) (busy aw4 0 (cells 15 [1]))) 0 1 = failed 0x306 1 ∧
      result (exec (.eadd 0 11 0) (busy aw4 0 (cells 0 [1, 1, 1, 1, 1] ++ cells 11 [1, 1, 1, 1, 1]))) 0 5 = done 0x2 [2, 2, 2, 2, 2] := by
  decide

theorem test_BAD_LENGTH_before_ADDR_RANGE :
    result (exec (.verify 0xFFFF 0xFFFF 0xFFFF) (busy t1tc2 0 [])) 0 1 = failed 0x206 1 := by decide

theorem test_UninitRead_names_the_first_unwritten_word :
    faultOf (exec (.eadd 10 0 5) (busy t1tc2 0 (cells 0 [1, 2]))) = some (.uninitRead 2) := by decide

theorem test_illegal_word_completes : result (engineTurn (busy t1tc2 0 [])) 0 1 = failed 0x106 1 := by decide

theorem test_dropped_command_sets_OVR :
    (hostCsrWrite { busy t1tc2 0 [] with cmd := 1 } 0 2).status.word = 0x9 ∧
      (hostCsrWrite { busy t1tc2 0 [] with cmd := 1 } 0 2).cmd = 1 := by decide

theorem test_SRST_forgets_the_destination :
    (hostCsrWrite { busy t1tc2 0 (cells 0 [1, 2, 9]) with cmd := 0x0000020001000001, len := 3 } 3 3) =
      { State.resetWith t1tc2 with wmem := cells 0 [1, 2] } := by decide

theorem test_withFetchWord_runs_the_command_next :
    (nextOf (step (State.reset.withFetchWord 64 0x0100020001000001))).map (fun t => t.status.word) = some 0x106 := by decide

theorem test_bus_bytes : busBytes t1tc2 0x1122334455667788 = [0x88, 0x77, 0x66, 0x55, 0x44, 0x33, 0x22, 0x11] := by decide

theorem test_assembly_text :
    renderInstr (.pmul 16 0 11) = "PMUL 16, 0, 11" := by decide

theorem test_adder_op_port :
    adderUnit 0b00 0xFFFFFFFF00000000 1 = ⟨some 0, false⟩ ∧ adderUnit 0b01 0 1 = ⟨some 0xFFFFFFFF00000000, false⟩ ∧
      adderUnit 0b10 1 0xFFFFFFFFFFFFFFFF = ⟨some 0xFFFFFFFF00000000, false⟩ ∧ adderUnit 0b11 1 1 = ⟨none, false⟩ := by decide

theorem test_point_op_port :
    (pointUnit t1tc2 0b10 (words encG) []).map (·.valid) = some (some true) ∧
      (pointUnit t1tc2 0b10 (words (encG.set 10 2)) []).map (·.valid) = some (some false) ∧
      (pointUnit t1tc2 0b01 (words (encG.set 0 0xFFFFFFFF00000001)) []).map (·.nc) = some true ∧
      pointUnit t1tc2 0b11 [] [] = none := by decide

theorem test_solinas : solinas 0xFFFFFFFFFFFFFFFFFFFFFFFFFFFFFFFF = 0xFFFFFFFE00000000 := by decide

/-! Witnesses: for every statement with hypotheses, concrete values that meet them, at boundary values of their ranges. -/

theorem allCanonical {v : List Word} (h : canonical v = true) : AllCanonical v := by simpa [canonical] using h

theorem not_allCanonical {v : List Word} (h : canonical v = false) : ¬AllCanonical v := fun h' =>
  Bool.false_ne_true (h.symm.trans (by simpa [canonical] using h'))

/-- An idle engine. -/
def idle (c : Config) (m : Memory) : Machine.State := { State.resetWith c with wmem := m }

/-- The widest operands of an opcode's `EncodedAs`, and of `DecodeInvertsEncode`. -/
theorem witness_EncodedAs_and_DecodeInvertsEncode :
    (65535 < 2 ^ 16 ∧ 0 < 2 ^ 16) ∧ (Instr.verify 65535 0 65535).wf = true := by decide

theorem witness_DecoderIsTotal : decode 0x00FFFFFFFFFFFF41 = .ok (.verify 65535 65535 65535) := by decide

/-- A busy AW4 engine whose 16 words are all written: P − 1, 1, P, 0, 0, then 1..5, then P and four zeros, then 0. -/
def full : Machine.State :=
  busy aw4 1 (cells 0 [0xFFFFFFFF00000000, 1, 0xFFFFFFFF00000001, 0, 0, 1, 2, 3, 4, 5, 0xFFFFFFFF00000001, 0, 0, 0, 0, 0])

/-- For `StepKeepsInvariant` and `StepKeepsConfiguration`: a state that meets the invariant and has a next state. -/
theorem witness_StepKeepsInvariant_and_StepKeepsConfiguration :
    StateInv { full with cmd := 0x00000F0001000001 } ∧ ∃ t, step { full with cmd := 0x00000F0001000001 } = .next t :=
  ⟨⟨by decide, by decide, by decide⟩, _, next_of_nextOf (t := finish { full with cmd := 0x00000F0001000001 } 15 [0]) (by decide)⟩

theorem witness_CsrReadHasNoSideEffect : (2 : BitVec 3) = 2 ∨ (2 : BitVec 3) = 4 := by decide

theorem witness_StatusRegisterBits : (4 ≤ 4 ∧ 4 < 8) ∧ (4 ≤ 7 ∧ 7 < 8) ∧ 16 ≤ 16 := by decide

theorem witness_CfgRegisterFields : t1tc1.wmemAw = 16 := rfl

/-- For the statements about an accepted and a dropped CMD write: an idle and a busy engine. -/
theorem witness_CmdWriteAcceptedOrDropped_and_PseudoCommandsExpand :
    (idle aw4 []).status.busy = false ∧ full.status.busy = true := by decide

theorem witness_LenIsLatchedAtAcceptance :
    (idle aw4 []).status.busy = false ∧ ∃ t, exec (.fadd 15 0 1) full = .next t :=
  ⟨rfl, _, next_of_nextOf (t := finish full 15 [0]) (by decide)⟩

theorem witness_CtrlWriteClearsOrResets :
    (2 : Word).getLsbD 1 = true ∧ ((1 : Word).getLsbD 1 = false ∧ (1 : Word).getLsbD 0 = true) ∧
      ((0 : Word).getLsbD 1 = false ∧ (0 : Word).getLsbD 0 = false) := by decide

theorem witness_SoftResetAbandonsTheCommandInFlight :
    (idle aw4 []).status.busy = false ∧ (full.status.busy = true ∧ decode full.cmd = .error (.unassignedOpcode 0)) ∧
      decode ({ full with cmd := 0x00000F0001000001 } : Machine.State).cmd = .ok (.fadd 15 0 1) := by decide

theorem witness_HostMemoryAccess :
    15 < full.config.wmemWords ∧ (idle aw4 (cells 15 [7])).wmem.read 15 = some 7 ∧
      (idle aw4 (cells 15 [7])).status.busy = false ∧ (idle aw4 []).wmem.read 15 = none ∧ full.status.busy = true := by decide

/-- For `StepExecutesTheCommandInFlight`: a state for each of its clauses. -/
theorem witness_StepExecutesTheCommandInFlight :
    (({ full with turns := [.engine, .host], cmd := 0x00000F0001000001 } : Machine.State).turns = .engine :: [.host] ∧
      full.status.busy = true ∧ decode 0x00000F0001000001 = .ok (.fadd 15 0 1)) ∧ full.turns = [] ∧
      (({ full with turns := [.host], program := [.csrRead 2] } : Machine.State).turns = .host :: [] ∧
        ({ full with turns := [.host], program := [.csrRead 2] } : Machine.State).program = .csrRead 2 :: []) ∧
      (({ idle aw4 [] with program := [.csrRead 2] } : Machine.State).turns = [] ∧
        ({ idle aw4 [] with program := [.csrRead 2] } : Machine.State).status.busy = false) ∧
      ({ full with turns := [.hardwareReset] } : Machine.State).turns = .hardwareReset :: [] ∧
      (({ idle aw4 [] with turns := [.engine] } : Machine.State).turns = .engine :: [] ∧ (idle aw4 []).status.busy = false ∧
        (idle aw4 []).program = [] ∧ (idle aw4 []).turns = []) := by decide

theorem witness_IllegalCommandCompletesWithIllegalCmd :
    (idle aw4 []).status.busy = false ∧ full.status.busy = true ∧ fieldRSV 0x0100020001000001 ≠ 0 ∧
      fieldOP full.cmd ∉ assignedOpcodes := by decide

theorem witness_LengthAndRangeChecksComeFirst :
    (busy aw4 17 []).config.wmemWords < (busy aw4 17 []).plen.toNat ∧ (busy aw4 0 []).plen.toNat = 0 ∧
      lengthLegal 16 1 (.fred 15 15) = true ∧ (shapeOf 1 (.fred 15 15)).a = ⟨15, 2⟩ ∧ 16 < 15 + 2 ∧
      lengthLegal 16 1 (.verify 16 15 0) = true ∧ (shapeOf 1 (.verify 16 15 0)).b = ⟨0, 27⟩ ∧
      (shapeOf 1 (.verify 16 15 0)).d = ⟨16, 1⟩ ∧ 16 < 0 + 27 ∧ 16 < 16 + 1 := by decide

theorem witness_UnspecifiedSourceWordFaults :
    lengthLegal 16 1 (.fadd 0 0 15) = true ∧ (shapeOf 1 (.fadd 0 0 15)).inside 16 = true ∧
      SourceUnspecified (busy aw4 1 (cells 0 [1])) (.fadd 0 0 15) 15 ∧
      ∃ f, exec (.fadd 0 0 15) (busy aw4 1 (cells 0 [1])) = .fault f :=
  ⟨by decide, by decide, ⟨by decide, by decide⟩, .uninitRead 15, rfl⟩

theorem witness_EveryCommandCompletesOnWrittenMemory : full.status.busy = true ∧ FullyWritten full := by
  refine ⟨rfl, fun a h => Option.isSome_iff_exists.1 ?_⟩
  have key : ∀ a < 16, (full.wmem.read a).isSome = true := by decide
  exact key a h

theorem witness_ErrorCompletionChangesOnlyStatus :
    exec (.finv 15 3) full = .next (full.completeError .nonInvertible) ∧ (full.completeError .nonInvertible).status.err = true :=
  ⟨next_of_nextOf (by decide), rfl⟩

/-- For `CommandFrame`: a next state, and addresses just outside its destination. -/
theorem witness_CommandFrame :
    exec (.eadd 10 5 5) full = .next (finish full 10 [2, 4, 6, 8, 10]) ∧ (9 < 10 ∨ 10 + 5 ≤ 9) ∧ (15 < 10 ∨ 10 + 5 ≤ 15) :=
  ⟨next_of_nextOf (by decide), by decide, by decide⟩

theorem witness_FinishStoresTheResultWords : 0 < [7, 8].length ∧ 1 < [7, 8].length ∧ (16 < 14 ∨ 14 + [7, 8].length ≤ 16) := by
  decide

/-- For the statements about FADD, FSUB and FMUL, clause by clause. -/
theorem witness_Fadd_Fsub_Fmul :
    (¬Room full 16 1 ∧ Room full 15 1) ∧ Operand full 0 [0xFFFFFFFF00000000] ∧ Operand full 15 [0] ∧
      (0xFFFFFFFF00000000#64).toNat < P ∧ Operand full 2 [0xFFFFFFFF00000001] ∧ P ≤ (0xFFFFFFFF00000001#64).toNat := by decide

/-- For the statements about FNEG, FINV, FPOW7, FRED, FCANON and EEMBED, clause by clause. -/
theorem witness_Fneg_Finv_Fpow7_Fred_Fcanon_Eembed :
    (¬Room full 16 1 ∧ Room full 15 1 ∧ ¬Room full 15 2 ∧ ¬Room full 12 5 ∧ Room full 11 5) ∧
      (Operand full 1 [1] ∧ (1#64).toNat ≠ 0 ∧ (1#64).toNat < P) ∧ (Operand full 3 [0] ∧ (0#64).toNat = 0) ∧
      (Operand full 2 [0xFFFFFFFF00000001] ∧ P ≤ (0xFFFFFFFF00000001#64).toNat) ∧ Operand full 14 [0, 0] := by decide

/-- For the statements about EADD, ESUB, EMUL, EINV and EEQ, clause by clause. -/
theorem witness_Eadd_Esub_Emul_Einv_Eeq :
    (¬Room full 12 5 ∧ Room full 11 5) ∧ (Operand full 5 [1, 2, 3, 4, 5] ∧ AllCanonical [1, 2, 3, 4, 5] ∧
        0 < 5 ∧ feAt [1, 2, 3, 4, 5] 0 ≠ 0) ∧
      (Operand full 10 [0xFFFFFFFF00000001, 0, 0, 0, 0] ∧ ¬AllCanonical [0xFFFFFFFF00000001, 0, 0, 0, 0]) ∧
      (Operand (busy aw4 0 (cells 11 [0, 0, 0, 0, 0])) 11 [0, 0, 0, 0, 0] ∧ ∀ k, k < 5 → feAt [0, 0, 0, 0, 0] k = 0) :=
  ⟨by decide, ⟨by decide, allCanonical (by decide), by decide, by decide⟩,
    ⟨by decide, not_allCanonical (by decide)⟩, by decide⟩

theorem witness_PermStoresThePermutedState :
    (¬Room full 5 12 ∧ Room full 4 12) ∧ (Operand (busy aw4 0 (cells 4 (List.range 12))) 4 (words (List.range 12)) ∧
      AllCanonical (words (List.range 12)) ∧ (words (List.range 12)).length = 12) ∧
      (Operand (busy aw4 0 (cells 4 (0xFFFFFFFF00000001 :: List.replicate 11 0))) 4
        (words (0xFFFFFFFF00000001 :: List.replicate 11 0)) ∧ ¬AllCanonical (words (0xFFFFFFFF00000001 :: List.replicate 11 0))) :=
  ⟨by decide, ⟨by decide, allCanonical (by decide), by decide⟩,
    ⟨by decide, not_allCanonical (by decide)⟩⟩

/-- For the hash commands: PLEN = 17 > 16; PLEN = 1 with no room; no input; one canonical input word at the end; one that is not. -/
theorem witness_HashCommandsStoreTheSqueezedWords :
    (busy aw4 17 []).config.wmemWords < (busy aw4 17 []).plen.toNat ∧
      (full.plen.toNat ≤ full.config.wmemWords ∧ 0 < full.plen.toNat ∧ ¬Room full 16 full.plen.toNat ∧ ¬Room full 13 4 ∧
        ¬Room full 12 5) ∧
      (([] : List Word).length = (busy aw4 0 []).plen.toNat ∧ Operand (busy aw4 0 []) 65535 [] ∧ Room (busy aw4 0 []) 12 4 ∧
        Room (busy aw4 0 []) 11 5) ∧
      (Operand full 15 [0] ∧ [(0 : Word)].length = full.plen.toNat ∧ Room full 11 5) ∧ AllCanonical [] ∧ AllCanonical [0] ∧
      Operand full 2 [0xFFFFFFFF00000001] ∧ ¬AllCanonical [0xFFFFFFFF00000001] :=
  ⟨by decide, by decide, by decide, by decide, allCanonical rfl, allCanonical (by decide),
    by decide, not_allCanonical (by decide)⟩

/-- No member of the group set is encoded with flag word 2. -/
theorem not_encodes_flag_two (c : Config) (v : List Word) (h : v.getD 10 0 = 2) (q : Point) : ¬EncodesPoint c v q := by
  rintro ⟨-, rfl⟩
  cases q <;> exact absurd h (by simp [words, encPoint, extList])

/-- Under TC1: A stands at 0, the identity at 11, A with flag 2 at 22, A with x0 = P at 33, the scalar 2^320 − 1 at 44. -/
def points : Machine.State :=
  busy t0tc1 0 (cells 0 (encA ++ (List.replicate 10 0 ++ [1]) ++ encA.set 10 2 ++ encA.set 0 0xFFFFFFFF00000001
    ++ List.replicate 5 0xFFFFFFFFFFFFFFFF))

theorem encodes_A : EncodesPoint t0tc1 (words encA)
    (.affine ⟨1, 0, 0, 0, 0⟩
      ⟨0x26F517103F2DCD63, 0xFDC01CAF3A218056, 0xC0F86C1B25551BD6, 0x45E8D6E78ABB60B2, 0x0CC1B055291181D0⟩) :=
  ⟨by decide, by decide⟩

theorem encodes_O : EncodesPoint t0tc1 (words (List.replicate 10 0 ++ [1])) .identity := ⟨trivial, by decide⟩

/-- For the statements about PADD, PDBL, PVALID and PMUL, clause by clause. -/
theorem witness_Padd_Pdbl_Pvalid_Pmul :
    (¬Room points 65526 11 ∧ Room points 65525 11 ∧ ¬Room points 65532 5 ∧ ¬Room points 65536 1) ∧
      (Operand points 0 (words encA) ∧ (words encA).length = 11 ∧ ∃ q, EncodesPoint points.config (words encA) q) ∧
      (Operand points 11 (words (List.replicate 10 0 ++ [1])) ∧
        ∃ q, EncodesPoint points.config (words (List.replicate 10 0 ++ [1])) q) ∧
      (Operand points 22 (words (encA.set 10 2)) ∧ CanonicalCoords (words (encA.set 10 2)) ∧
        ∀ q, ¬EncodesPoint points.config (words (encA.set 10 2)) q) ∧
      (Operand points 33 (words (encA.set 0 0xFFFFFFFF00000001)) ∧ ¬CanonicalCoords (words (encA.set 0 0xFFFFFFFF00000001))) ∧
      Operand points 44 (List.replicate 5 0xFFFFFFFFFFFFFFFF) :=
  ⟨by decide, ⟨by decide, by decide, _, encodes_A⟩, ⟨by decide, _, encodes_O⟩,
    ⟨by decide, by decide, not_encodes_flag_two _ _ (by decide)⟩, ⟨by decide, by decide⟩, by decide⟩

theorem witness_PkgenDerivesThePublicKey :
    (¬Room points 65532 5 ∧ ¬Room points 65526 11 ∧ Room points 65525 11) ∧
      (Operand points 44 (List.replicate 5 0xFFFFFFFFFFFFFFFF) ∧
        scalarValue (List.replicate 5 0xFFFFFFFFFFFFFFFF) % points.config.groupN ≠ 0) ∧
      (Operand points 1 [0, 0, 0, 0, 0x26F517103F2DCD63] ∧ scalarValue [0, 0, 0, 0, 0x26F517103F2DCD63] % points.config.groupN = 0) := by
  decide +kernel

/-- Under T0 with TC1, PLEN = 1: the message 5 at 0, the key 1 at 1, the key 0 at 6, the message P at 11. -/
def signing : Machine.State := busy t0tc1 1 (cells 0 [5, 1, 0, 0, 0, 0, 0, 0, 0, 0, 0, 0xFFFFFFFF00000001])

/-- For `SignStoresTheSignature`, clause by clause: the first usable try is 0. -/
theorem witness_SignStoresTheSignature :
    ((busy aw4 0 []).plen.toNat = 0 ∧ (busy aw4 17 []).config.wmemWords < (busy aw4 17 []).plen.toNat) ∧
      (1 ≤ signing.plen.toNat ∧ signing.plen.toNat ≤ signing.config.wmemWords ∧ ¬Room signing 65521 16) ∧
      ([(5 : Word)].length = signing.plen.toNat ∧ Operand signing 0 [5] ∧ Operand signing 1 [1, 0, 0, 0, 0] ∧ Room signing 65520 16) ∧
      (AllCanonical [5] ∧ scalarValue [1, 0, 0, 0, 0] % signing.config.groupN = 1 ∧ (0 < 2 ^ 32) ∧
        nonceAt t0tc1 1 [5] 0 ≠ 0 ∧ scalarMul t0tc1 (nonceAt t0tc1 1 [5] 0) t0tc1.gen ≠ .identity) ∧
      (Operand signing 6 [0, 0, 0, 0, 0] ∧ scalarValue [0, 0, 0, 0, 0] % signing.config.groupN = 0) ∧
      (Operand signing 11 [0xFFFFFFFF00000001] ∧ ¬AllCanonical [0xFFFFFFFF00000001]) :=
  ⟨by decide, by decide, by decide, ⟨allCanonical (by decide), by decide, by decide,
    by decide, by decide +kernel⟩, by decide, by decide, not_allCanonical (by decide)⟩

/-- For `VerifyStoresTheVerdict`: the words pk ‖ R ‖ s stand at 1, with pk = A, R = A and s = 1. -/
def verifying (pk r : List Nat) (s : Nat) : Machine.State := busy t0tc1 1 (cells 0 ([5] ++ pk ++ r ++ [s, 0, 0, 0, 0]))

theorem witness_VerifyStoresTheVerdict :
    ((busy aw4 0 []).plen.toNat = 0 ∧ ¬Room full 15 27 ∧ ¬Room full 16 1) ∧
      (Operand (verifying encA encA 1) 0 [5] ∧ Operand (verifying encA encA 1) 1 (words encA ++ words encA ++ [1, 0, 0, 0, 0]) ∧
        Room (verifying encA encA 1) 65535 1 ∧ AllCanonical [5] ∧ scalarValue [1, 0, 0, 0, 0] < t0tc1.groupN ∧
        ∃ q, q ≠ .identity ∧ EncodesPoint t0tc1 (words encA) q) ∧
      (t0tc1.groupN ≤ scalarValue [2, 0, 0, 0, 0] ∧ EncodesPoint t0tc1 (words (List.replicate 10 0 ++ [1])) .identity) ∧
      (CanonicalCoords (words (encA.set 10 2)) ∧ ∀ q, ¬EncodesPoint t0tc1 (words (encA.set 10 2)) q) ∧
      ¬CanonicalCoords (words (encA.set 0 0xFFFFFFFF00000001)) :=
  ⟨by decide, ⟨by decide, by decide, by decide, allCanonical (by decide), by decide, _, by simp, encodes_A⟩,
    ⟨by decide, encodes_O⟩, ⟨by decide, not_encodes_flag_two _ _ (by decide)⟩, by decide⟩

theorem witness_BaseFieldLaws : 0xFFFFFFFF00000000 < P ∧ 1 < P ∧ 0xFFFFFFFF00000000 ≠ 0 := by decide

theorem witness_ArithmeticUnitPorts :
    (adderUnit AdderOp.sub.code 0 0xFFFFFFFF00000000).nc = false ∧ (adderUnit AdderOp.neg.code 0 0xFFFFFFFFFFFFFFFF).nc = false ∧
      (adderUnit AdderOp.add.code 0 0xFFFFFFFF00000001).nc = true ∧ (multiplierUnit 1 0xFFFFFFFF00000000).nc = false ∧
      (multiplierUnit 1 0xFFFFFFFF00000001).nc = true := by decide

theorem witness_WordDatapathsComputeTheResidues : (0xFFFFFFFF00000000#64).toNat < P ∧ (0#64).toNat < P := by decide

theorem witness_ExtensionFieldIsAField :
    extCanonical ⟨0xFFFFFFFF00000000, 1, 0, 0, 0⟩ ∧ (⟨0xFFFFFFFF00000000, 1, 0, 0, 0⟩ : Ext) ≠ extZero ∧
      extCanonical ⟨0, 0, 0, 0, 1⟩ ∧ 0xFFFFFFFF00000000 < P := by decide

/-- For `PermuteIteratesElementwiseRounds`: round 1 of T0 is partial, and 3 elements of ones give 3^7 mod P and 3. -/
theorem witness_PermuteIteratesElementwiseRounds :
    (∀ j, j < 12 → (t0tc1.permRc.getD 1 []).getD j 0 < P) ∧ (List.replicate 12 1).length = 12 ∧
      (∀ x ∈ List.replicate 12 1, x < P) ∧ (2187 :: List.replicate 11 3).length = 12 ∧
      ∀ j, j < 12 → (2187 :: List.replicate 11 3).getD j 0 =
        if 1 < t0tc1.permRf / 2 ∨ t0tc1.permRf / 2 + t0tc1.permRp ≤ 1 ∨ j = 0
        then (((List.replicate 12 1).getD j 0 + (t0tc1.permRc.getD 1 []).getD j 0) % P) ^ 7 % P
        else ((List.replicate 12 1).getD j 0 + (t0tc1.permRc.getD 1 []).getD j 0) % P := by decide

/-- For the two statements about the sponge: an input of one whole chunk, under each policy. -/
theorem witness_SpongeFollowsTheSchedule_and_NoPaddingMakesTrailingZeroInvisible :
    (∀ x ∈ List.range 8, x < P) ∧ 1 = (List.range 8).length / 8 ∧ 0 = (List.range 8).length % 8 ∧
      (t0tc1.spongePolicy = .literal ∧ (List.range 8).length % 8 ≠ 7) ∧
      ({ t0tc1 with spongePolicy := .ceil } : Config).spongePolicy = .ceil ∧ (List.range 7).length % 8 ≠ 0 := by decide

theorem witness_LimbsRecomposeTheNumber : 2 ^ 320 - 1 < 2 ^ 320 := by decide +kernel

/-- For `WellFormedWordsAreEncodings`: canonical coordinates with the flags 0, 1 and 2; A and O encode points. -/
theorem witness_WellFormedWordsAreEncodings :
    ((words encA).length = 11 ∧ CanonicalCoords (words encA) ∧ feAt (words encA) 10 = 0 ∧ ∃ q, EncodesPoint t0tc1 (words encA) q) ∧
      (CanonicalCoords (words (List.replicate 10 0 ++ [1])) ∧ feAt (words (List.replicate 10 0 ++ [1])) 10 = 1 ∧
        ∃ q, EncodesPoint t0tc1 (words (List.replicate 10 0 ++ [1])) q) ∧
      (CanonicalCoords (words (encA.set 10 2)) ∧ feAt (words (encA.set 10 2)) 10 ≠ 0 ∧ feAt (words (encA.set 10 2)) 10 ≠ 1) :=
  ⟨⟨by decide, by decide, by decide, _, encodes_A⟩, ⟨by decide, by decide, _, encodes_O⟩, by decide⟩

/-- For `PointAddSpecialCases` and `PointAddStaysInTheGroup`: A and the point of order 2 of TC1. -/
theorem witness_PointAddSpecialCases_and_PointAddStaysInTheGroup :
    (extCanonical t0tc1.curveA2 ∧ extCanonical t0tc1.curveA4 ∧ extCanonical t0tc1.curveA6) ∧
      (∃ x y, InGroup t0tc1 (.affine x y) ∧ extAdd y y ≠ extZero) ∧ InGroup t0tc1 t0tc1.gen :=
  ⟨by decide, ⟨⟨1, 0, 0, 0, 0⟩,
      ⟨0x26F517103F2DCD63, 0xFDC01CAF3A218056, 0xC0F86C1B25551BD6, 0x45E8D6E78ABB60B2, 0x0CC1B055291181D0⟩, by decide, by decide⟩,
    (by decide : InGroup t0tc1 (.affine ⟨0, 0, 0, 0, 0⟩ ⟨0, 0, 0, 0, 0⟩))⟩

/-- The multiples of the point of order 2. -/
theorem times_gen (a : Nat) : pointTimes t0tc1 a t0tc1.gen = if a % 2 = 0 then .identity else t0tc1.gen := by
  induction a with
  | zero => rfl
  | succ a ih =>
    rw [pointTimes, ih]
    rcases Nat.mod_two_eq_zero_or_one a with h | h
    · rw [if_pos h, if_neg (by omega)]; rfl
    · rw [if_neg (by omega), if_pos (by omega)]; decide +kernel

theorem multiples_add : MultiplesAdd t0tc1 t0tc1.gen := by
  intro a b
  rw [times_gen, times_gen, times_gen]
  rcases Nat.mod_two_eq_zero_or_one a with h | h <;> rcases Nat.mod_two_eq_zero_or_one b with h' | h'
  · rw [if_pos h, if_pos h', if_pos (by omega)]; rfl
  · rw [if_pos h, if_neg (by omega), if_neg (by omega)]; rfl
  · rw [if_neg (by omega), if_pos h', if_neg (by omega)]; rfl
  · rw [if_neg (by omega), if_neg (by omega), if_pos (by omega)]; decide +kernel

theorem multiples_in_group : MultiplesInGroup t0tc1 t0tc1.gen := by
  intro a
  rw [times_gen]
  split
  · trivial
  · exact (by decide : InGroup t0tc1 (.affine ⟨0, 0, 0, 0, 0⟩ ⟨0, 0, 0, 0, 0⟩))

theorem witness_ScalarMulIsIteratedAddition_and_ScalarMulLaws :
    MultiplesAdd t0tc1 t0tc1.gen ∧ 0 < t0tc1.groupN ∧ t0tc1.groupN < 2 ^ 320 ∧ 2 ≤ t0tc1.groupN ∧ 2 % t0tc1.groupN = 0 ∧
      pointTimes t0tc1 t0tc1.groupN t0tc1.gen = .identity :=
  ⟨multiples_add, by decide, by decide +kernel, by decide, by decide, times_gen 2⟩

/-- For `SignThenVerifyAccepts`: T0 with TC1 meets its premises, and the key 1 signs the message 5. -/
theorem witness_SignThenVerifyAccepts :
    t0tc1.gen ≠ .identity ∧ 2 ≤ t0tc1.groupN ∧ t0tc1.groupN < 2 ^ 320 ∧ t0tc1.groupN.Prime ∧
      pointTimes t0tc1 t0tc1.groupN t0tc1.gen = .identity ∧ MultiplesAdd t0tc1 t0tc1.gen ∧ MultiplesInGroup t0tc1 t0tc1.gen ∧
      AllCanonical [5] ∧ 1 ≤ [(5 : Word)].length ∧ 1 % t0tc1.groupN ≠ 0 ∧ ∃ sig, signMessage t0tc1 (numbers [5]) 1 = .ok sig :=
  ⟨by decide, by decide, by decide +kernel, Nat.prime_two, times_gen 2, multiples_add, multiples_in_group, 
    allCanonical (by decide), by decide, by decide, List.replicate 11 0 ++ [0, 0, 0, 0, 0], by decide +kernel⟩

end Sys2Proof.Tests
end

section
/-!
The configuration is kept (spec/00_scope.md R9): by every host action, by every command and by every reset, and so by every step.
-/

namespace Sys2Proof.Machine

/-! What the host's writes and polls leave of the configuration. -/

@[simp] theorem writeCtrl_config (s : State) (v : Word) : (writeCtrl s v).config = s.config := by
  unfold writeCtrl
  split
  · exact softReset_config s
  · split
    · exact s.clearStatus_config
    · rfl

@[simp] theorem writeCmd_config (s : State) (v : Word) : (writeCmd s v).config = s.config := by
  unfold writeCmd
  split
  · rfl
  · exact s.accept_config v

@[simp] theorem hostCsrWrite_config (s : State) (i : BitVec 3) (v : Word) : (hostCsrWrite s i v).config = s.config := by
  unfold hostCsrWrite
  split
  · exact writeCmd_config s v
  · rfl
  · exact writeCtrl_config s v
  · rfl

@[simp] theorem hostWait_config (s : State) : (hostWait s).config = s.config := by
  unfold hostWait
  split <;> exact hostCsrRead_config s 2

/-! What a host access to WMEM that does not fault leads to. -/

/-- A host read that does not fault returns the word and changes nothing else (R71). -/
theorem hostMemRead_next {s t : State} {a : Nat} (h : hostMemRead s a = .next t) :
    a < s.config.wmemWords ∧ s.status.busy = false ∧
      ∃ v, s.wmem.read a = some v ∧ t = { s with replies := v :: s.replies } := by
  unfold hostMemRead at h
  split at h
  · cases h
  · next ha =>
    split at h
    · cases h
    · next hb =>
      split at h
      · cases h
      · next v hv =>
        cases h
        exact ⟨Nat.lt_of_not_le ha, Bool.eq_false_of_not_eq_true hb, v, hv, rfl⟩

/-- A host write that does not fault stores the word and changes nothing else (R71). -/
theorem hostMemWrite_next {s t : State} {a : Nat} {v : Word} (h : hostMemWrite s a v = .next t) :
    a < s.config.wmemWords ∧ s.status.busy = false ∧ t = { s with wmem := s.wmem.write a v } := by
  unfold hostMemWrite at h
  split at h
  · cases h
  · next ha =>
    split at h
    · cases h
    · next hb =>
      cases h
      exact ⟨Nat.lt_of_not_le ha, Bool.eq_false_of_not_eq_true hb, rfl⟩

/-! Each agent keeps the configuration. -/

theorem hostAct_keeps_config {op : HostOp} {s t : State} (h : hostAct op s = .next t) : t.config = s.config := by
  cases op with
  | csrRead i => cases h; exact hostCsrRead_config s i
  | csrWrite i v => cases h; exact hostCsrWrite_config s i v
  | memRead a => obtain ⟨-, -, v, -, rfl⟩ := hostMemRead_next h; rfl
  | memWrite a v => obtain ⟨-, -, rfl⟩ := hostMemWrite_next h; rfl
  | wait => cases h; exact hostWait_config s

theorem exec_keeps_config {i : Instr} {s t : State} (h : exec i s = .next t) : t.config = s.config := by
  rcases exec_cases i s with ⟨c, -, he⟩ | ⟨x, he, -⟩ | ⟨r, -, -, he⟩ <;> cases he.symm.trans h
  · exact s.completeError_config c
  · exact State.completeOk_config _

theorem engineStep_keeps_config {s t : State} (h : engineStep s = .next t) : t.config = s.config := by
  rcases engineStep_cases s with ⟨e, -, he⟩ | ⟨i, -, he⟩
  · cases he.symm.trans h
    exact s.completeError_config .illegalCmd
  · exact exec_keeps_config (he.symm.trans h)

/-- Settles O7: of the four things a step can be (`step_cases`), none changes the configuration (R9). -/
theorem stepKeepsConfiguration : Obligations.StepKeepsConfiguration := by
  intro s t h
  rcases step_cases s with hs | ⟨op, rest, -, hs⟩ | ⟨-, hs⟩ | hs
  · cases hs.symm.trans h
    exact s.turnTaken_config
  · exact (hostAct_keeps_config (hs.symm.trans h)).trans s.turnTaken_config
  · exact (engineStep_keeps_config (hs.symm.trans h)).trans s.turnTaken_config
  · cases hs.symm.trans h
    exact hardwareReset_config s.turnTaken

end Sys2Proof.Machine
end

section
/-!
The host's CSR writes, said once (spec/10_state.md R33 to R38; spec/20_memory.md R72, R75): what CMD and CTRL do with the word
written to them, which indices ignore it, and everything a CSR write can lead to.
-/

namespace Sys2Proof.Machine

theorem writeCmd_busy {s : State} (v : Word) (h : s.status.busy = true) :
    writeCmd s v = { s with status := s.status.dropped } := by simp [writeCmd, h]

theorem writeCmd_idle {s : State} (v : Word) (h : s.status.busy = false) : writeCmd s v = s.accept v := by
  simp [writeCmd, h]

theorem writeCtrl_srst (s : State) {v : Word} (h : v.getLsbD 1 = true) : writeCtrl s v = softReset s := by
  simp [writeCtrl, h]

theorem writeCtrl_clr (s : State) {v : Word} (h1 : v.getLsbD 1 = false) (h0 : v.getLsbD 0 = true) :
    writeCtrl s v = s.clearStatus := by
  unfold writeCtrl
  rw [h1, h0]; rfl

theorem writeCtrl_idle (s : State) {v : Word} (h1 : v.getLsbD 1 = false) (h0 : v.getLsbD 0 = false) :
    writeCtrl s v = s := by
  unfold writeCtrl
  rw [h1, h0]; rfl

/-- The host's write to CTRL (index 3 of R32). -/
theorem hostAct_csrWrite_ctrl (s : State) (v : Word) : hostAct (.csrWrite 3 v) s = .next (writeCtrl s v) := rfl

/-- STATUS, CFG and the reserved indices ignore the host's writes (R72). -/
theorem hostAct_csrWrite_ignored (s : State) {i : BitVec 3} (v : Word)
    (h : i = 2 ∨ i = 4 ∨ i = 5 ∨ i = 6 ∨ i = 7) : hostAct (.csrWrite i v) s = .next s := by
  rcases h with rfl | rfl | rfl | rfl | rfl <;> rfl

/-- CTRL has no storage and reads 0 (R37). -/
theorem csrValue_ctrl (s : State) : csrValue s 3 = 0 := rfl

theorem csrValue_cfg (s : State) : csrValue s 4 = cfgWord s.config := rfl

/-- Everything a CSR write can lead to: a command dropped or accepted, a new LEN, a soft reset, a cleared STATUS, or nothing. -/
theorem hostCsrWrite_cases (s : State) (i : BitVec 3) (v : Word) :
    hostCsrWrite s i v = { s with status := s.status.dropped } ∨ hostCsrWrite s i v = s.accept v ∨
      hostCsrWrite s i v = { s with len := v } ∨ hostCsrWrite s i v = softReset s ∨
      hostCsrWrite s i v = s.clearStatus ∨ hostCsrWrite s i v = s := by
  unfold hostCsrWrite
  split
  · cases hb : s.status.busy with
    | true => exact .inl (writeCmd_busy v hb)
    | false => exact .inr (.inl (writeCmd_idle v hb))
  · exact .inr (.inr (.inl rfl))
  · cases h1 : v.getLsbD 1 with
    | true => exact .inr (.inr (.inr (.inl (writeCtrl_srst s h1))))
    | false =>
      cases h0 : v.getLsbD 0 with
      | true => exact .inr (.inr (.inr (.inr (.inl (writeCtrl_clr s h1 h0)))))
      | false => exact .inr (.inr (.inr (.inr (.inr (writeCtrl_idle s h1 h0)))))
  · exact .inr (.inr (.inr (.inr (.inr rfl))))

/-- Settles O13: the two bits of a CTRL write that act, SRST before CLR (R37). -/
theorem ctrlWriteClearsOrResets : Obligations.CtrlWriteClearsOrResets := by
  intro s v
  rw [hostAct_csrWrite_ctrl]
  refine ⟨fun h1 => ?_, fun h1 h0 => ?_, fun h1 h0 => ?_, csrValue_ctrl s⟩
  · rw [writeCtrl_srst s h1]
  · rw [writeCtrl_clr s h1 h0]; rfl
  · rw [writeCtrl_idle s h1 h0]

end Sys2Proof.Machine
end

section
/-!
The invariant of the state (spec/10_state.md R44): it holds after reset, and every transition of STATUS, every host action, every
command and every reset keeps it, and so every step.
-/

namespace Sys2Proof

open Machine

/-! The transitions of STATUS (R44) keep its invariants; most of them establish them. -/

theorem statusConsistent_zero : StatusConsistent Status.zero := by simp [StatusConsistent]

theorem statusConsistent_accepted (t : Status) : StatusConsistent t.accepted := by simp [StatusConsistent]

theorem statusConsistent_completedOk (t : Status) : StatusConsistent t.completedOk := by simp [StatusConsistent]

theorem statusConsistent_completedError (t : Status) {c : ErrCode} (hc : c ≠ .none) :
    StatusConsistent (t.completedError c) := by simp [StatusConsistent, hc]

theorem statusConsistent_cleared (t : Status) : StatusConsistent t.cleared := by simp [StatusConsistent]

/-- A dropped command sets OVR, of which the invariants do not speak. -/
theorem StatusConsistent.dropped {t : Status} (h : StatusConsistent t) : StatusConsistent t.dropped := h

/-! The range check of a command (R112) is what keeps its result inside WMEM. -/

theorem inside_writeRange_of_range {n a : Nat} {m : Memory} {vs : List Word}
    (hr : Range.inside n ⟨a, vs.length⟩ = true) (h : MemoryInside n m) : MemoryInside n (m.writeRange a vs) := by
  have hr : vs = [] ∨ a + vs.length ≤ n := by simpa [Range.inside] using hr
  rcases hr with rfl | hr
  · exact h
  · exact Memory.inside_writeRange n m a vs hr h

theorem dest_inside_of_shape_inside {n : Nat} {sh : Shape} (h : sh.inside n = true) : sh.d.inside n = true :=
  (Bool.and_eq_true_iff.1 h).2

/-! Every update of the state that a step is made of keeps the invariant. -/

theorem stateInv_resetWith (c : Config) : StateInv (State.resetWith c) :=
  ⟨List.Pairwise.nil, List.forall_mem_nil _, statusConsistent_zero⟩

theorem stateInv_hardwareReset (s : State) : StateInv (hardwareReset s) :=
  ⟨List.Pairwise.nil, List.forall_mem_nil _, statusConsistent_zero⟩

section Updates

variable {s : State} (h : StateInv s)
include h

theorem StateInv.turnTaken : StateInv s.turnTaken := ⟨h.wf, h.inside, h.status⟩

theorem StateInv.withProgram (p : List HostOp) : StateInv { s with program := p } := ⟨h.wf, h.inside, h.status⟩

theorem StateInv.withLen (v : Word) : StateInv { s with len := v } := ⟨h.wf, h.inside, h.status⟩

theorem StateInv.withReply (v : Word) : StateInv { s with replies := v :: s.replies } := ⟨h.wf, h.inside, h.status⟩

theorem StateInv.hostCsrRead (i : BitVec 3) : StateInv (hostCsrRead s i) := h.withReply (csrValue s i)

theorem StateInv.dropped : StateInv { s with status := s.status.dropped } := ⟨h.wf, h.inside, h.status.dropped⟩

theorem StateInv.accept (v : Word) : StateInv (s.accept v) := ⟨h.wf, h.inside, statusConsistent_accepted s.status⟩

theorem StateInv.clearStatus : StateInv s.clearStatus := ⟨h.wf, h.inside, statusConsistent_cleared s.status⟩

theorem StateInv.completeOk : StateInv s.completeOk := ⟨h.wf, h.inside, statusConsistent_completedOk s.status⟩

theorem StateInv.completeError {c : ErrCode} (hc : c ≠ .none) : StateInv (s.completeError c) :=
  ⟨h.wf, h.inside, statusConsistent_completedError s.status hc⟩

/-- The soft reset only takes words out of WMEM (R421). -/
theorem StateInv.softReset : StateInv (softReset s) := by
  refine ⟨?_, ?_, statusConsistent_zero⟩ <;> rw [softReset_wmem] <;> split
  · exact Memory.wf_eraseRange _ _ _ h.wf
  · exact h.wf
  · exact Memory.inside_eraseRange _ _ _ _ h.inside
  · exact h.inside

theorem StateInv.write {a : Nat} (ha : a < s.config.wmemWords) (v : Word) :
    StateInv { s with wmem := s.wmem.write a v } :=
  ⟨Memory.wf_write _ a v h.wf, Memory.inside_write _ _ a v ha h.inside, h.status⟩

theorem StateInv.writeRange {a : Nat} {vs : List Word} (hr : Range.inside s.config.wmemWords ⟨a, vs.length⟩ = true) :
    StateInv { s with wmem := s.wmem.writeRange a vs } :=
  ⟨Memory.wf_writeRange _ a vs h.wf, inside_writeRange_of_range hr h.inside, h.status⟩

/-! The agents: the host, and the engine with a command in flight. -/

theorem StateInv.hostCsrWrite (i : BitVec 3) (v : Word) : StateInv (hostCsrWrite s i v) := by
  rcases hostCsrWrite_cases s i v with he | he | he | he | he | he <;> rw [he]
  · exact h.dropped
  · exact h.accept v
  · exact h.withLen v
  · exact h.softReset
  · exact h.clearStatus
  · exact h

theorem StateInv.hostWait : StateInv (hostWait s) := by
  unfold Machine.hostWait
  split
  · exact (h.hostCsrRead 2).withProgram _
  · exact h.hostCsrRead 2

theorem StateInv.hostAct {op : HostOp} {t : State} (ht : hostAct op s = .next t) : StateInv t := by
  cases op with
  | csrRead i => cases ht; exact h.hostCsrRead i
  | csrWrite i v => cases ht; exact h.hostCsrWrite i v
  | memRead a => obtain ⟨-, -, v, -, rfl⟩ := hostMemRead_next ht; exact h.withReply v
  | memWrite a v => obtain ⟨ha, -, rfl⟩ := hostMemWrite_next ht; exact h.write ha v
  | wait => cases ht; exact h.hostWait

/-- A command ends with an error code, which is not NONE, or with its result words in its destination, which lies inside WMEM. -/
theorem StateInv.exec {i : Instr} {t : State} (ht : exec i s = .next t) : StateInv t := by
  rcases exec_cases i s with ⟨c, hc, he⟩ | ⟨x, he, -⟩ | ⟨r, hr, hi, he⟩ <;> cases he.symm.trans ht
  · exact h.completeError hc
  · refine (h.writeRange ?_).completeOk
    rw [hr]
    exact dest_inside_of_shape_inside hi

theorem StateInv.engineStep {t : State} (ht : engineStep s = .next t) : StateInv t := by
  rcases engineStep_cases s with ⟨e, -, he⟩ | ⟨i, -, he⟩
  · cases he.symm.trans ht
    exact h.completeError (by simp)
  · exact h.exec (he.symm.trans ht)

end Updates

/-- Settles O6: each of the four things a step can be (`step_cases`) keeps the invariant (R44). -/
theorem stepKeepsInvariant : Obligations.StepKeepsInvariant := by
  intro s t hinv h
  rcases step_cases s with hs | ⟨op, rest, -, hs⟩ | ⟨-, hs⟩ | hs
  · cases hs.symm.trans h
    exact hinv.turnTaken
  · exact (hinv.turnTaken.withProgram rest).hostAct (hs.symm.trans h)
  · exact hinv.turnTaken.engineStep (hs.symm.trans h)
  · cases hs.symm.trans h
    exact stateInv_hardwareReset s.turnTaken

/-- Settles O5: the reset state of every configuration meets the invariant, and so does the machine's. -/
theorem resetSatisfiesInvariant : Obligations.ResetSatisfiesInvariant :=
  ⟨stateInv_resetWith Config.build, fun _ => Iff.rfl⟩

end Sys2Proof
end

section
/-!
STATUS and CFG as registers (spec/10_state.md R35, R36), and what hardware reset leaves in the registers (R45).
-/

namespace Sys2Proof.Machine

/-- Every bit of STATUS: the four flags at the bottom, the code from bit 8 up, and no other bit set (R35). -/
theorem Status.getLsbD_word (t : Status) (k : Nat) :
    t.word.getLsbD k =
      if k = 0 then t.busy else if k = 1 then t.done else if k = 2 then t.err else if k = 3 then t.ovr
      else decide (8 ≤ k) && t.errCode.code.getLsbD (k - 8) := by
  unfold Status.word
  iterate 6 rw [BitVec.getLsbD_append]
  simp only [BitVec.getLsbD_zero, BitVec.getLsbD_ofBool]
  match k with
  | 0 | 1 | 2 | 3 => simp
  | k + 4 =>
    by_cases hk : k < 4
    · simp [Nat.not_le.2 hk, show k + 4 < 8 by omega]
    · simpa [ Nat.not_lt.1 hk, show ¬k + 4 < 8 by omega] using BitVec.lt_of_getLsbD

theorem Status.word_errCode (t : Status) : t.word.extractLsb' 8 8 = t.errCode.code := by
  unfold Status.word
  rw [BitVec.extractLsb'_append_eq_of_le (by decide)]
  exact BitVec.extractLsb'_append_eq_right

theorem Status.word_zero : Status.zero.word = 0 := by decide

/-- Settles O9: the bits from `Status.getLsbD_word` and `Status.word_errCode`, the code numbers as R380 lists them. -/
theorem statusRegisterBits : Obligations.StatusRegisterBits := by
  refine ⟨fun t => ⟨?busy, ?done, ?err, ?ovr, fun k h4 h8 => ?low, t.word_errCode, fun k h16 => ?high⟩,
    ⟨rfl, rfl, rfl, rfl, rfl, rfl, rfl, rfl⟩, Status.word_zero, fun s v => hostAct_csrWrite_ignored s v (.inl rfl)⟩
  case busy | done | err | ovr => rw [Status.getLsbD_word]; rfl
  case low =>
    have : k ≠ 0 ∧ k ≠ 1 ∧ k ≠ 2 ∧ k ≠ 3 ∧ ¬8 ≤ k := by omega
    simp [Status.getLsbD_word, this]
  case high =>
    have hk : k ≠ 0 ∧ k ≠ 1 ∧ k ≠ 2 ∧ k ≠ 3 := by omega
    have hcode : t.errCode.code.getLsbD (k - 8) = false := BitVec.getLsbD_of_ge _ _ (by omega)
    simp [Status.getLsbD_word, hk, hcode]

/-! The fields of CFG (R36): only AW depends on the configuration; the five above it form a constant. -/

theorem cfgWord_aw (c : Config) : (cfgWord c).extractLsb' 0 8 = BitVec.ofNat 8 c.wmemAw := BitVec.extractLsb'_append_eq_right

theorem cfgWord_above_aw (c : Config) (k n : Nat) :
    (cfgWord c).extractLsb' (8 + k) n = (0x0000000105080C#56).extractLsb' k n := by
  unfold cfgWord
  rw [BitVec.extractLsb'_append_eq_of_le (Nat.le_add_right 8 k), Nat.add_sub_cancel_left]
  rfl

theorem cfgWord_default {c : Config} (h : c.wmemAw = 16) : cfgWord c = 0x0000000105080C10 := by
  rw [cfgWord, h]; rfl

/-- Settles O10: each field is cut out of the constant above AW. -/
theorem cfgRegisterFields : Obligations.CfgRegisterFields := by
  refine ⟨fun c => ⟨cfgWord_aw c, ?_, ?_, ?_, ?_, ?_, cfgWord_default⟩,
    fun s v => hostAct_csrWrite_ignored s v (.inr (.inl rfl))⟩
  · exact cfgWord_above_aw c 0 8
  · exact cfgWord_above_aw c 8 8
  · exact cfgWord_above_aw c 16 8
  · exact cfgWord_above_aw c 24 8
  · exact cfgWord_above_aw c 32 24

/-- Settles O4: the values of `State.resetWith`, field by field (R45). -/
theorem resetLeavesTheSpecValues : Obligations.ResetLeavesTheSpecValues := by
  refine ⟨fun c => ⟨State.resetWith_cmd c, State.resetWith_len c, ?_, State.resetWith_plen c, csrValue_cfg _, csrValue_ctrl _,
    fun a => ?_, State.resetWith_config c, ?_⟩, Config.build, rfl⟩
  · rw [State.resetWith_status]; exact Status.word_zero
  · rw [State.resetWith_wmem]; exact Memory.read_nil a
  · rw [State.resetWith_status]; exact Status.zero_busy

end Sys2Proof.Machine
end

section
/-!
The host port (spec/20_memory.md R71 to R75): what a CSR index reads, what a CMD write becomes, and the outcome of each access to
WMEM at an address the port can present.
-/

namespace Sys2Proof.Machine

/-! The CSR map (R32), beside `csrValue_ctrl` and `csrValue_cfg`. -/

theorem csrValue_cmd (s : State) : csrValue s 0 = s.cmd := rfl

theorem csrValue_len (s : State) : csrValue s 1 = s.len := rfl

theorem csrValue_status (s : State) : csrValue s 2 = s.status.word := rfl

/-- The reserved indices read 0 (R38). -/
theorem csrValue_reserved (s : State) {i : BitVec 3} (h : i = 5 ∨ i = 6 ∨ i = 7) : csrValue s i = 0 := by
  rcases h with rfl | rfl | rfl <;> rfl

/-- The host's read of a CSR (R72): only the record of returned words grows. -/
theorem hostAct_csrRead (s : State) (i : BitVec 3) :
    hostAct (.csrRead i) s = .next { s with replies := csrValue s i :: s.replies } := rfl

/-- Settles O8: `hostAct_csrRead`, the CSR map index by index, and `hostAct_csrWrite_ignored` (R72). -/
theorem csrReadHasNoSideEffect : Obligations.CsrReadHasNoSideEffect :=
  ⟨hostAct_csrRead,
    fun s => ⟨csrValue_cmd s, csrValue_len s, csrValue_status s, csrValue_ctrl s, csrValue_cfg s,
      csrValue_reserved s (.inl rfl), csrValue_reserved s (.inr (.inl rfl)), csrValue_reserved s (.inr (.inr rfl))⟩,
    fun s _ v hi => hostAct_csrWrite_ignored s v hi⟩

/-- The host's write to CMD (index 0 of R32). -/
theorem hostAct_csrWrite_cmd (s : State) (v : Word) : hostAct (.csrWrite 0 v) s = .next (writeCmd s v) := rfl

/-- Settles O11: BUSY decides between acceptance (`writeCmd_idle`) and dropping (`writeCmd_busy`), whatever the word (R75). -/
theorem cmdWriteAcceptedOrDropped : Obligations.CmdWriteAcceptedOrDropped := by
  intro s v
  rw [hostAct_csrWrite_cmd]
  refine ⟨fun hidle => ?_, fun hbusy => ?_⟩
  · rw [writeCmd_idle v hidle]; rfl
  · rw [writeCmd_busy v hbusy]; rfl

/-! The host's accesses to WMEM (R71, R73), for an address below WMEM_WORDS. -/

section MemoryAccess

variable {s : State} {a : Nat} (ha : a < s.config.wmemWords)
include ha

theorem hostMemRead_busy (hb : s.status.busy = true) : hostMemRead s a = .fault (.hostBusyAccess a) := by
  simp [hostMemRead, Nat.not_le.2 ha, hb]

theorem hostMemRead_unspecified (hb : s.status.busy = false) (hv : s.wmem.read a = none) :
    hostMemRead s a = .fault (.uninitRead a) := by
  simp [hostMemRead, Nat.not_le.2 ha, hb, hv]

theorem hostMemRead_written {v : Word} (hb : s.status.busy = false) (hv : s.wmem.read a = some v) :
    hostMemRead s a = .next { s with replies := v :: s.replies } := by
  simp [hostMemRead, Nat.not_le.2 ha, hb, hv]

theorem hostMemWrite_busy (v : Word) (hb : s.status.busy = true) : hostMemWrite s a v = .fault (.hostBusyAccess a) := by
  simp [hostMemWrite, Nat.not_le.2 ha, hb]

theorem hostMemWrite_idle (v : Word) (hb : s.status.busy = false) :
    hostMemWrite s a v = .next { s with wmem := s.wmem.write a v } := by
  simp [hostMemWrite, Nat.not_le.2 ha, hb]

end MemoryAccess

/-- Settles O16: the accesses case by case, with the two laws of `Memory.write`: the word written reads back, and no other word
changes (R71, R73). -/
theorem hostMemoryAccess : Obligations.HostMemoryAccess := by
  refine ⟨fun _ => rfl, fun s a v ha => ⟨fun hidle => ?_, fun hidle hv => hostMemRead_written ha hidle hv,
    fun hidle hv => hostMemRead_unspecified ha hidle hv,
    fun hbusy => ⟨hostMemRead_busy ha hbusy, hostMemWrite_busy ha v hbusy⟩⟩⟩
  exact ⟨s.wmem.write a v, hostMemWrite_idle ha v hidle, Memory.read_write_same s.wmem a v,
    fun b hb => Memory.read_write_other s.wmem a b v hb.symm⟩

end Sys2Proof.Machine
end

section
/-!
The decoder and the encoder of the command word (spec/30_encoding.md R100, R108, R113, R119): the opcode map inverts `opcode`, and
it is defined exactly on the assigned opcodes.
-/

namespace Sys2Proof

open Machine

/-! The opcode map (R108), in both directions. -/

theorem opcode_lt (i : Instr) : opcode i < 2 ^ 8 := by cases i <;> simp [opcode]

theorem opcode_mem_assignedOpcodes (i : Instr) : opcode i ∈ assignedOpcodes := by cases i <;> simp [opcode, assignedOpcodes]

theorem decodeOpcode_opcode (i : Instr) : decodeOpcode (opcode i) i.sa i.sb i.da = .ok i := by cases i <;> rfl

/-- What the map gives is the command of the opcode, with SB where the shape of R109 has a second source (log 14). -/
theorem decodeOpcode_ok {op sa sb da : Nat} {i : Instr} (h : decodeOpcode op sa sb da = .ok i) :
    op = opcode i ∧ i.da = da ∧ i.sa = sa ∧ i.sb = if 0 < (shapeOf 0 i).b.len then sb else 0 := by
  unfold decodeOpcode at h
  split at h <;> cases h <;> exact ⟨rfl, rfl, rfl, rfl⟩

/-- Each of the 25 assigned opcodes has its command. -/
theorem decodeOpcode_assigned (sa sb da : Nat) : ∀ op ∈ assignedOpcodes, ∃ i, decodeOpcode op sa sb da = .ok i := by
  simp [assignedOpcodes, decodeOpcode]

theorem decodeOpcode_error_iff {op sa sb da : Nat} :
    (∃ e, decodeOpcode op sa sb da = .error e) ↔ op ∉ assignedOpcodes := by
  cases hd : decodeOpcode op sa sb da with
  | error e =>
    refine iff_of_true ⟨e, rfl⟩ fun hop => ?_
    obtain ⟨i, hi⟩ := decodeOpcode_assigned sa sb da op hop
    cases hd.symm.trans hi
  | ok i =>
    obtain ⟨hop, -⟩ := decodeOpcode_ok hd
    exact iff_of_false (by simp) (not_not_intro (hop ▸ opcode_mem_assignedOpcodes i))

/-! The decoder (R119): the reserved bits, then the opcode map. -/

theorem decode_of_fieldRSV_eq_zero {w : Word} (h : fieldRSV w = 0) :
    decode w = decodeOpcode (fieldOP w) (fieldSA w) (fieldSB w) (fieldDA w) := if_pos h

theorem decode_of_fieldRSV_ne_zero {w : Word} (h : fieldRSV w ≠ 0) : decode w = .error (.reservedBits (fieldRSV w)) := if_neg h

/-- The illegal command words of R113. -/
theorem decode_error_iff {w : Word} : (∃ e, decode w = .error e) ↔ fieldRSV w ≠ 0 ∨ fieldOP w ∉ assignedOpcodes := by
  by_cases h : fieldRSV w = 0
  · rw [decode_of_fieldRSV_eq_zero h, decodeOpcode_error_iff]
    simp [h]
  · exact ⟨fun _ => .inl h, fun _ => ⟨_, decode_of_fieldRSV_ne_zero h⟩⟩

theorem fieldRSV_eq_zero_of_decode_ok {w : Word} {i : Instr} (h : decode w = .ok i) : fieldRSV w = 0 := by
  by_contra hrsv
  cases (decode_of_fieldRSV_ne_zero hrsv).symm.trans h

/-- Settles O2: the fields of an encoded command are its opcode and operands (`Laws.EncodedFields.of_opcode`), and the opcode map
takes them back to the command. -/
theorem decodeInvertsEncode : Obligations.DecodeInvertsEncode := by
  intro i hwf
  obtain ⟨hop, hsa, hsb, hda, hrsv⟩ := Laws.EncodedFields.of_opcode (opcode_lt i) hwf
  rw [decode_of_fieldRSV_eq_zero hrsv, hop, hsa, hsb, hda]
  exact decodeOpcode_opcode i

/-- Settles O3: the fields by definition, the illegal words by `decode_error_iff`, the legal ones by `decodeOpcode_ok`. -/
theorem decoderIsTotal : Obligations.DecoderIsTotal := by
  refine fun w => ⟨⟨rfl, rfl, rfl, rfl, rfl⟩, decode_error_iff, fun i h => ?_⟩
  have hrsv := fieldRSV_eq_zero_of_decode_ok h
  exact ⟨hrsv, decodeOpcode_ok ((decode_of_fieldRSV_eq_zero hrsv).symm.trans h)⟩

/-- Settles O1: the decoder evaluated on the words of the spec. -/
theorem decodesWordsOfTheSpec : Obligations.DecodesWordsOfTheSpec := by
  unfold Obligations.DecodesWordsOfTheSpec
  decide

end Sys2Proof
end

section
/-!
The turns (spec/20_memory.md R81, R88; spec/30_encoding.md R113, R115, R118): what a poll of `wait` is, what a busy engine does with
the word in CMD, and whose turn is the free one.
-/

namespace Sys2Proof.Machine

/-! A poll of `wait` is a read of STATUS, kept in the program while BUSY is 1 (R118, log 22). -/

theorem hostWait_idle {s : State} (h : s.status.busy = false) :
    hostWait s = { s with replies := s.status.word :: s.replies } := by
  rw [hostWait, h, ← csrValue_status]; rfl

theorem hostWait_busy {s : State} (h : s.status.busy = true) :
    hostWait s = { s with replies := s.status.word :: s.replies, program := .wait :: s.program } := by
  rw [hostWait, h, ← csrValue_status]; rfl

theorem hostAct_wait (s : State) : hostAct .wait s = .next (hostWait s) := rfl

/-- Settles O17: the expansions by definition, `wait` by its two cases (R118). -/
theorem pseudoCommandsExpand : Obligations.PseudoCommandsExpand := by
  refine ⟨fun d a => ⟨rfl, rfl, rfl⟩, fun i n => rfl, rfl, rfl, fun s hidle => ?_, fun s hbusy => ?_⟩
  · rw [hostAct_wait, hostWait_idle hidle]
  · rw [hostAct_wait, hostWait_busy hbusy]

/-! The engine's turn with a command in flight (R113, R115). -/

theorem engineTurn_legal {s : State} {i : Instr} (hbusy : s.status.busy = true) (hd : decode s.cmd = .ok i) :
    engineTurn s = exec i s := by
  rw [engineTurn_busy hbusy, engineStep, hd]

theorem engineTurn_illegal {s : State} {e : DecodeError} (hbusy : s.status.busy = true) (hd : decode s.cmd = .error e) :
    engineTurn s = .next (s.completeError .illegalCmd) := by
  rw [engineTurn_busy hbusy, engineStep, hd]

/-! With no turn listed, a busy engine acts, else the host (R88, log 12). -/

theorem freeTurn_busy {s : State} (h : s.status.busy = true) : freeTurn s = engineTurn s := by simp [freeTurn, engineTurn, h]

theorem freeTurn_idle {s : State} (h : s.status.busy = false) : freeTurn s = hostTurn s := by simp [freeTurn, h]

/-! The step with the engine's or the host's turn listed. -/

theorem step_engine {s : State} {rest : List Turn} (h : s.turns = .engine :: rest) :
    step s = engineTurn { s with turns := rest } := step_turn h

theorem step_host {s : State} {rest : List Turn} (h : s.turns = .host :: rest) :
    step s = hostTurn { s with turns := rest } := step_turn h

/-- A word numbered as a 64-bit number is placed as it is. -/
theorem State.withFetchWord_toNat (s : State) (w : Word) : s.withFetchWord 64 w.toNat = s.withCommand w := by
  rw [State.withFetchWord, Nat.mod_eq_of_lt w.isLt, BitVec.ofNat_toNat, BitVec.setWidth_eq]

/-- A placed word is accepted, and the next step is the engine's turn on it (log 7). -/
theorem step_withCommand (s : State) (w : Word) : step (s.withCommand w) = engineTurn (s.accept w) :=
  step_engine (s.withCommand_turns w)

/-- Settles O18: a listed turn by `step_turn`, the free turn by `step_free`, then what the agent of the turn does. -/
theorem stepExecutesTheCommandInFlight : Obligations.StepExecutesTheCommandInFlight := by
  refine ⟨?engineListed, ?engineFree, fun s rest ht => step_engine ht, ?engineTurnFree, ?hostListed, ?hostFree,
    fun s rest ht => step_turn ht, ?nothingListed, ?nothingFree, ?placed⟩
  case engineListed =>
    intro s i rest ht hbusy hd
    rw [step_engine ht]
    exact engineTurn_legal hbusy hd
  case engineFree =>
    intro s i ht hbusy hd
    rw [step_free ht, freeTurn_busy hbusy, engineTurn_legal hbusy hd]
  case engineTurnFree =>
    intro s ht hbusy
    rw [step_free ht, freeTurn_busy hbusy]
  case hostListed =>
    intro s rest op ops ht hp
    rw [step_host ht]
    exact hostTurn_cons hp
  case hostFree =>
    intro s op ops ht hidle hp
    rw [step_free ht, freeTurn_idle hidle, hostTurn_cons hp]
  case nothingListed =>
    rintro s rest (⟨ht, hidle⟩ | ⟨ht, hp⟩)
    · rw [step_engine ht]
      exact engineTurn_idle hidle
    · rw [step_host ht]
      exact hostTurn_nil hp
  case nothingFree =>
    intro s ht hidle hp
    rw [step_free ht, freeTurn_idle hidle, hostTurn_nil hp]
  case placed =>
    intro s w i hd
    rw [s.withFetchWord_toNat w, step_withCommand]
    exact engineTurn_legal s.status.accepted_busy hd

/-- Settles O19: an idle engine accepts every word (`writeCmd_idle`), and a busy one completes the illegal words of
`decode_error_iff` with ILLEGAL_CMD (R113). -/
theorem illegalCommandCompletesWithIllegalCmd : Obligations.IllegalCommandCompletesWithIllegalCmd := by
  refine ⟨fun s w hidle => ⟨s.accept w, ?_, s.accept_cmd w, s.status.accepted_busy⟩, fun s hbusy hill => ?_, rfl, by decide⟩
  · rw [hostAct_csrWrite_cmd, writeCmd_idle w hidle]
  · obtain ⟨e, he⟩ := decode_error_iff.2 hill
    exact engineTurn_illegal hbusy he

end Sys2Proof.Machine
end

section
/-!
What all 25 commands share (spec/30_encoding.md R111, R112, R115): the checks that come before any read, the words a completion
stores, and what a command leaves unchanged.
-/

namespace Sys2Proof.Machine

/-! The two checks of R112, in their order. -/

section Checks

variable {i : Instr} {s : State}

theorem exec_badLength (h : lengthLegal s.config.wmemWords s.plen.toNat i = false) :
    exec i s = .next (s.completeError .badLength) := by
  obtain ⟨rule, he, -⟩ := exec_runCommand i s s rfl
  exact he.trans (runCommand_badLength h)

theorem exec_addrRange (h : lengthLegal s.config.wmemWords s.plen.toNat i = true)
    (hr : (shapeOf s.plen.toNat i).inside s.config.wmemWords = false) :
    exec i s = .next (s.completeError .addrRange) := by
  obtain ⟨rule, he, -⟩ := exec_runCommand i s s rfl
  exact he.trans (runCommand_addrRange h hr)

end Checks

/-- A range that passes the end of WMEM fails the check: it does not wrap (R112). -/
theorem Range.inside_eq_false {n : Nat} {r : Range} (hlen : 0 < r.len) (h : n < r.base + r.len) : r.inside n = false := by
  simp [Range.inside, Nat.ne_of_gt hlen, h]

/-- One range outside WMEM is enough. -/
theorem Shape.inside_eq_false {n : Nat} {sh : Shape} {r : Range} (hr : r = sh.a ∨ r = sh.b ∨ r = sh.d)
    (h : r.inside n = false) : sh.inside n = false := by
  rcases hr with rfl | rfl | rfl <;> simp [Shape.inside, h]

/-- Settles O20: both checks stand before the rule of every command (`exec_badLength`, `exec_addrRange`), so its operands do not
matter (R112). -/
theorem lengthAndRangeChecksComeFirst : Obligations.LengthAndRangeChecksComeFirst := by
  refine ⟨fun s d a hlong => ?hash, fun s d a b hL => ?signature, fun s i r hlegal hr hlen hpast => ?range⟩
  case hash =>
    have hcheck : decide (s.plen.toNat ≤ s.config.wmemWords) = false := decide_eq_false (Nat.not_le.2 hlong)
    exact ⟨exec_badLength hcheck, exec_badLength hcheck, exec_badLength hcheck⟩
  case signature =>
    have hcheck : (decide (1 ≤ s.plen.toNat) && decide (s.plen.toNat ≤ s.config.wmemWords)) = false := by
      rcases hL with h | h <;> simp [h]
    exact ⟨exec_badLength hcheck, exec_badLength hcheck⟩
  case range => exact exec_addrRange hlegal (Shape.inside_eq_false hr (Range.inside_eq_false hlen hpast))

/-! The words of a result in WMEM (R111). -/

theorem getD_words (r : List Nat) (k : Nat) : (words r).getD k 0 = BitVec.ofNat 64 (r.getD k 0) :=
  List.getD_map r 0 (BitVec.ofNat 64)

theorem finish_wmem (s : State) (d : Nat) (r : List Nat) : (finish s d r).wmem = s.wmem.writeRange d (words r) := rfl

/-- Settles O25: the two laws of `Memory.writeRange`, inside the range and outside it (R111, R115). -/
theorem finishStoresTheResultWords : Obligations.FinishStoresTheResultWords := by
  refine fun s d r => ⟨fun k hk => ?_, fun x hx => ?_, rfl⟩
  · rw [finish_wmem, Memory.read_writeRange_inside _ _ _ _ (by simpa using hk), getD_words]
  · rw [finish_wmem, Memory.read_writeRange_outside _ _ _ _ (by simpa using hx)]

/-- Settles O24: a command that reaches a next state completed with an error, which leaves WMEM alone, or stored as many words as
its destination has (`exec_cases`). -/
theorem commandFrame : Obligations.CommandFrame := by
  intro s t i h
  rcases exec_cases i s with ⟨c, -, he⟩ | ⟨x, he, -⟩ | ⟨r, hr, -, he⟩ <;> cases he.symm.trans h
  · exact ⟨rfl, rfl, rfl, rfl, rfl, rfl, rfl, rfl, rfl, rfl, fun herr => absurd herr (by simp), fun _ _ => rfl⟩
  · refine ⟨rfl, rfl, rfl, rfl, rfl, rfl, rfl, rfl, rfl, rfl, fun _ => rfl, fun x hx => ?_⟩
    rw [State.completeOk_wmem]
    exact Memory.read_writeRange_outside _ _ _ _ (hr ▸ hx)

end Sys2Proof.Machine
end

section
/-!
The base field (spec/40_base_field.md R141 to R149): P is prime, and the model's functions are the residues and meet the field's laws.
-/

namespace Sys2Proof.Machine

/-! P is prime (R4), by Lucas' test with the generator 7. -/

theorem P_sub_one_eq : P - 1 = 2 ^ 32 * 3 * 5 * 17 * 257 * 65537 := by norm_num

theorem prime_dvd_P_sub_one {q : Nat} (hq : q.Prime) (h : q ∣ P - 1) :
    q = 2 ∨ q = 3 ∨ q = 5 ∨ q = 17 ∨ q = 257 ∨ q = 65537 := by
  have eq_of_dvd : ∀ {p : Nat}, p.Prime → q ∣ p → q = p := fun hp => (Nat.prime_dvd_prime_iff_eq hq hp).1
  rw [P_sub_one_eq] at h
  simp only [hq.dvd_mul] at h
  rcases h with ((((h | h) | h) | h) | h) | h
  · exact .inl (eq_of_dvd Nat.prime_two (hq.dvd_of_dvd_pow h))
  · exact .inr (.inl (eq_of_dvd Nat.prime_three h))
  · exact .inr (.inr (.inl (eq_of_dvd Nat.prime_five h)))
  · exact .inr (.inr (.inr (.inl (eq_of_dvd (by norm_num) h))))
  · exact .inr (.inr (.inr (.inr (.inl (eq_of_dvd (by norm_num) h)))))
  · exact .inr (.inr (.inr (.inr (.inr (eq_of_dvd (by norm_num) h)))))

theorem P_prime : P.Prime := by
  refine lucas_primality P 7 (by reduce_mod_char) fun q hq hdvd => ?_
  rcases prime_dvd_P_sub_one hq hdvd with rfl | rfl | rfl | rfl | rfl | rfl <;>
    (norm_num1; reduce_mod_char; decide)

/-- Fermat's little theorem for the numbers below P. -/
theorem pow_P_sub_one {a : Nat} (h0 : a ≠ 0) (ha : a < P) : a ^ (P - 1) % P = 1 := by
  have hfermat := Nat.ModEq.pow_totient (Nat.coprime_of_lt_prime h0 ha P_prime).symm
  rw [Nat.totient_prime P_prime] at hfermat
  exact hfermat

/-! The inverse (R145). -/

theorem fpPow_lt (bits a e : Nat) : fpPow bits a e < P := by
  induction bits generalizing a e with
  | zero => exact P_prime.one_lt
  | succ k ih =>
    simp only [fpPow]
    split
    · exact fpMul_lt _ _
    · exact ih _ _

theorem fpInv_eq (a : Nat) : fpInv a = a ^ (P - 2) % P := by
  rw [fpInv, ← Nat.mod_eq_of_lt (fpPow_lt 64 a (P - 2)), fpPow_eq 64 a (P - 2) (by norm_num)]

theorem fpMul_fpInv {a : Nat} (h0 : a ≠ 0) (ha : a < P) : fpMul a (fpInv a) = 1 := by
  rw [fpInv_eq, fpMul_eq, Nat.mul_mod_mod, ← pow_succ']
  exact pow_P_sub_one h0 ha

/-! The laws of R149. -/

theorem fpAdd_zero {a : Nat} (ha : a < P) : fpAdd a 0 = a := by
  rw [fpAdd_eq a 0 ha P_pos, Nat.add_zero, Nat.mod_eq_of_lt ha]

theorem fpMul_one {a : Nat} (ha : a < P) : fpMul a 1 = a := by
  rw [fpMul_eq, Nat.mul_one, Nat.mod_eq_of_lt ha]

theorem fpSub_eq_fpAdd_fpNeg {a b : Nat} (ha : a < P) (hb : b < P) : fpSub a b = fpAdd a (fpNeg b) := by
  rw [fpSub_eq a b ha hb, fpAdd_eq a _ ha (fpNeg_lt hb), fpNeg_eq b hb, Nat.add_mod_mod, Nat.add_sub_assoc hb.le]

theorem fpAdd_fpNeg {a : Nat} (ha : a < P) : fpAdd a (fpNeg a) = 0 := by
  rw [← fpSub_eq_fpAdd_fpNeg ha ha]
  simp [fpSub]

/-- Settles O47: the functions are the residues, and a·a⁻¹ = 1 is Fermat's little theorem for the prime P (R149). -/
theorem baseFieldLaws : Obligations.BaseFieldLaws :=
  ⟨by norm_num, fun a b ha hb =>
    ⟨⟨fpAdd_eq a b ha hb, fpSub_eq a b ha hb, fpNeg_eq a ha, fpMul_eq a b, fpInv_eq a⟩,
      fpAdd_zero ha, fpMul_one ha, fpAdd_fpNeg ha, fun h0 => fpMul_fpInv h0 ha, fpSub_eq_fpAdd_fpNeg ha hb⟩⟩

/-! The difference and the negation as residues of integers, as R151 and R152 write them. -/

theorem fpSub_eq_emod {a b : Nat} (ha : a < P) (hb : b < P) : (fpSub a b : Int) = ((a : Int) - b) % P := by
  rw [fpSub_eq a b ha hb]
  simp only [P] at *
  omega

theorem fpNeg_eq_emod {a : Nat} (ha : a < P) : (fpNeg a : Int) = (-(a : Int)) % P := by
  rw [fpNeg_eq a ha]
  simp only [P] at *
  omega

end Sys2Proof.Machine
end

section
/-!
The base-field commands (spec/40_base_field.md R150 to R157): each is the execution frame around a rule on one or two words.
-/

namespace Sys2Proof.Machine

/-- The fields of `enc` are its arguments (`Laws.enc_fields`), so the opcode map alone says what the words of an opcode decode to. -/
theorem encodedAs_of_decodeOpcode {op : Nat} {mk : Nat → Nat → Nat → Instr} (hop : op < 2 ^ 8)
    (h : ∀ sa sb da, decodeOpcode op sa sb da = .ok (mk da sa sb)) : EncodedAs op mk := by
  intro da sa sb hda hsa hsb
  obtain ⟨h1, h2, h3, h4, h5⟩ := Laws.enc_fields op sa sb da hop hsa hsb hda
  rw [decode_of_fieldRSV_eq_zero h5, h1, h2, h3, h4]
  exact h sa sb da

/-- The command `i` is the execution frame around `rule`, its ranges are `sh` whatever LEN is, and it ignores LEN (R102). -/
structure RunsRule (i : Instr) (sh : Shape) (rule : List Word → List Word → Except ErrCode (List Word)) : Prop where
  exec_eq : ∀ s, exec i s = runCommand i s rule
  shape_eq : ∀ L, shapeOf L i = sh
  length_legal : ∀ n L, lengthLegal n L i = true

namespace RunsRule

variable {i : Instr} {rule : List Word → List Word → Except ErrCode (List Word)} {s : State} {a b d na nb nd : Nat}
  {va vb : List Word}

/-- With its operands in WMEM and room for its result, the command stores what its rule gives. -/
theorem stores (h : RunsRule i ⟨⟨a, na⟩, ⟨b, nb⟩, ⟨d, nd⟩⟩ rule) (ha : Operand s a va) (hal : va.length = na)
    (hb : Operand s b vb) (hbl : vb.length = nb) (hd : Room s d nd) {r : List Nat} (hr : rule va vb = .ok (words r)) :
    exec i s = .next (finish s d r) := by
  have hsh := h.shape_eq s.plen.toNat
  rw [h.exec_eq, runCommand_operands_ok (h.length_legal _ _) (by rwa [hsh]) (by rwa [hsh]) (by rwa [hsh]) (by rwa [hsh])
    (by rwa [hsh]) hr, hsh]

/-- The same where its rule gives an error. -/
theorem fails (h : RunsRule i ⟨⟨a, na⟩, ⟨b, nb⟩, ⟨d, nd⟩⟩ rule) (ha : Operand s a va) (hal : va.length = na)
    (hb : Operand s b vb) (hbl : vb.length = nb) (hd : Room s d nd) {c : ErrCode} (hr : rule va vb = .error c) :
    exec i s = .next (s.completeError c) := by
  have hsh := h.shape_eq s.plen.toNat
  rw [h.exec_eq, runCommand_operands_error (h.length_legal _ _) (by rwa [hsh]) (by rwa [hsh]) (by rwa [hsh]) (by rwa [hsh])
    (by rwa [hsh]) hr]

/-- A used range without room in WMEM completes with ADDR_RANGE (R112). -/
theorem noRoom {sh : Shape} {r : Range} (h : RunsRule i sh rule) (hr : r = sh.a ∨ r = sh.b ∨ r = sh.d)
    (hlen : 0 < r.len) (hroom : ¬Room s r.base r.len) : exec i s = .next (s.completeError .addrRange) := by
  have hsh := h.shape_eq s.plen.toNat
  exact lengthAndRangeChecksComeFirst.2.2 s i r (h.length_legal _ _) (by rwa [hsh]) hlen (Nat.lt_of_not_le hroom)

/-- One source and a destination, each of at least one word. -/
theorem noRoom_one (h : RunsRule i ⟨⟨a, na + 1⟩, ⟨0, 0⟩, ⟨d, nd + 1⟩⟩ rule)
    (hroom : ¬Room s a (na + 1) ∨ ¬Room s d (nd + 1)) : exec i s = .next (s.completeError .addrRange) := by
  rcases hroom with hroom | hroom
  · exact h.noRoom (.inl rfl) (Nat.succ_pos na) hroom
  · exact h.noRoom (.inr (.inr rfl)) (Nat.succ_pos nd) hroom

/-- Two sources and a destination, each of at least one word. -/
theorem noRoom_two (h : RunsRule i ⟨⟨a, na + 1⟩, ⟨b, nb + 1⟩, ⟨d, nd + 1⟩⟩ rule)
    (hroom : ¬Room s a (na + 1) ∨ ¬Room s b (nb + 1) ∨ ¬Room s d (nd + 1)) :
    exec i s = .next (s.completeError .addrRange) := by
  rcases hroom with hroom | hroom | hroom
  · exact h.noRoom (.inl rfl) (Nat.succ_pos na) hroom
  · exact h.noRoom (.inr (.inl rfl)) (Nat.succ_pos nb) hroom
  · exact h.noRoom (.inr (.inr rfl)) (Nat.succ_pos nd) hroom

end RunsRule

/-! The rules on one-word operands (R103): a function of the elements, with NONCANONICAL for a word that is not below P. -/

theorem canonical_singleton (x : Word) : canonical [x] = decide (x.toNat < P) := by simp [canonical]

theorem feAt_singleton (x : Word) : feAt [x] 0 = x.toNat := rfl

/-- The rule of FADD, FSUB and FMUL. -/
def elementsRule (f : Nat → Nat → Nat) (va vb : List Word) : Except ErrCode (List Word) :=
  if !(canonical va && canonical vb) then .error .noncanonical else .ok (words [f (feAt va 0) (feAt vb 0)])

/-- The rule of FNEG and FPOW7. -/
def elementRule (f : Nat → Nat) (va _vb : List Word) : Except ErrCode (List Word) :=
  if !canonical va then .error .noncanonical else .ok (words [f (feAt va 0)])

/-- The rule of FINV. -/
def inverseRule (va _vb : List Word) : Except ErrCode (List Word) :=
  if !canonical va then .error .noncanonical
  else if feAt va 0 = 0 then .error .nonInvertible
  else .ok (words [fpInv (feAt va 0)])

section Rules

variable {x z : Word}

theorem elementsRule_canonical (f : Nat → Nat → Nat) (hx : x.toNat < P) (hz : z.toNat < P) :
    elementsRule f [x] [z] = .ok (words [f x.toNat z.toNat]) := by
  simp [elementsRule, canonical_singleton, feAt_singleton, hx, hz]

theorem elementsRule_noncanonical (f : Nat → Nat → Nat) (h : P ≤ x.toNat ∨ P ≤ z.toNat) :
    elementsRule f [x] [z] = .error .noncanonical := by
  rcases h with h | h <;> simp [elementsRule, canonical_singleton, Nat.not_lt.2 h]

theorem elementRule_canonical (f : Nat → Nat) (hx : x.toNat < P) (vb : List Word) :
    elementRule f [x] vb = .ok (words [f x.toNat]) := by
  simp [elementRule, canonical_singleton, feAt_singleton, hx]

theorem elementRule_noncanonical (f : Nat → Nat) (hx : P ≤ x.toNat) (vb : List Word) :
    elementRule f [x] vb = .error .noncanonical := by
  simp [elementRule, canonical_singleton, Nat.not_lt.2 hx]

theorem inverseRule_nonzero (h0 : x.toNat ≠ 0) (hx : x.toNat < P) (vb : List Word) :
    inverseRule [x] vb = .ok (words [fpInv x.toNat]) := by
  simp [inverseRule, canonical_singleton, feAt_singleton, hx, h0]

theorem inverseRule_zero (h0 : x.toNat = 0) (vb : List Word) : inverseRule [x] vb = .error .nonInvertible := by
  simp [inverseRule, canonical_singleton, feAt_singleton, h0]

theorem inverseRule_noncanonical (hx : P ≤ x.toNat) (vb : List Word) : inverseRule [x] vb = .error .noncanonical := by
  simp [inverseRule, canonical_singleton, Nat.not_lt.2 hx]

end Rules

/-! What each command runs (R109). -/

theorem runsRule_fadd (d a b : Nat) : RunsRule (.fadd d a b) ⟨⟨a, 1⟩, ⟨b, 1⟩, ⟨d, 1⟩⟩ (elementsRule fpAdd) :=
  ⟨fun _ => rfl, fun _ => rfl, fun _ _ => rfl⟩

theorem runsRule_fsub (d a b : Nat) : RunsRule (.fsub d a b) ⟨⟨a, 1⟩, ⟨b, 1⟩, ⟨d, 1⟩⟩ (elementsRule fpSub) :=
  ⟨fun _ => rfl, fun _ => rfl, fun _ _ => rfl⟩

theorem runsRule_fmul (d a b : Nat) : RunsRule (.fmul d a b) ⟨⟨a, 1⟩, ⟨b, 1⟩, ⟨d, 1⟩⟩ (elementsRule fpMul) :=
  ⟨fun _ => rfl, fun _ => rfl, fun _ _ => rfl⟩

theorem runsRule_fneg (d a : Nat) : RunsRule (.fneg d a) ⟨⟨a, 1⟩, ⟨0, 0⟩, ⟨d, 1⟩⟩ (elementRule fpNeg) :=
  ⟨fun _ => rfl, fun _ => rfl, fun _ _ => rfl⟩

theorem runsRule_fpow7 (d a : Nat) : RunsRule (.fpow7 d a) ⟨⟨a, 1⟩, ⟨0, 0⟩, ⟨d, 1⟩⟩ (elementRule pow7) :=
  ⟨fun _ => rfl, fun _ => rfl, fun _ _ => rfl⟩

theorem runsRule_finv (d a : Nat) : RunsRule (.finv d a) ⟨⟨a, 1⟩, ⟨0, 0⟩, ⟨d, 1⟩⟩ inverseRule :=
  ⟨fun _ => rfl, fun _ => rfl, fun _ _ => rfl⟩

theorem runsRule_fred (d a : Nat) : RunsRule (.fred d a) ⟨⟨a, 2⟩, ⟨0, 0⟩, ⟨d, 1⟩⟩
    fun va _ => .ok (words [reduce128 (2 ^ 64 * feAt va 1 + feAt va 0)]) :=
  ⟨fun _ => rfl, fun _ => rfl, fun _ _ => rfl⟩

theorem runsRule_fcanon (d a : Nat) : RunsRule (.fcanon d a) ⟨⟨a, 1⟩, ⟨0, 0⟩, ⟨d, 1⟩⟩
    fun va _ => .ok (words [reduce128 (feAt va 0)]) :=
  ⟨fun _ => rfl, fun _ => rfl, fun _ _ => rfl⟩

namespace RunsRule

variable {i : Instr} {s : State} {a b d : Nat} {x z : Word}

section TwoElements

variable {f : Nat → Nat → Nat} (h : RunsRule i ⟨⟨a, 1⟩, ⟨b, 1⟩, ⟨d, 1⟩⟩ (elementsRule f))
  (ha : Operand s a [x]) (hb : Operand s b [z]) (hd : Room s d 1)
include h ha hb hd

theorem elements_canonical (hx : x.toNat < P) (hz : z.toNat < P) : exec i s = .next (finish s d [f x.toNat z.toNat]) :=
  h.stores ha rfl hb rfl hd (elementsRule_canonical f hx hz)

theorem elements_noncanonical (hxz : P ≤ x.toNat ∨ P ≤ z.toNat) : exec i s = .next (s.completeError .noncanonical) :=
  h.fails ha rfl hb rfl hd (elementsRule_noncanonical f hxz)

end TwoElements

section OneElement

variable {f : Nat → Nat} (h : RunsRule i ⟨⟨a, 1⟩, ⟨0, 0⟩, ⟨d, 1⟩⟩ (elementRule f)) (ha : Operand s a [x]) (hd : Room s d 1)
include h ha hd

theorem element_canonical (hx : x.toNat < P) : exec i s = .next (finish s d [f x.toNat]) :=
  h.stores ha rfl (operand_none s) rfl hd (elementRule_canonical f hx [])

theorem element_noncanonical (hx : P ≤ x.toNat) : exec i s = .next (s.completeError .noncanonical) :=
  h.fails ha rfl (operand_none s) rfl hd (elementRule_noncanonical f hx [])

end OneElement

end RunsRule

/-! The commands. -/

/-- Settles O26: FADD runs `fpAdd`, which is the residue of the sum (R150). -/
theorem faddAddsModuloP : Obligations.FaddAddsModuloP := by
  refine ⟨encodedAs_of_decodeOpcode (by decide) fun _ _ _ => rfl, fun s d a b =>
    ⟨(runsRule_fadd d a b).noRoom_two, fun x z hx hz hd =>
      ⟨fun hxP hzP => ?_, (runsRule_fadd d a b).elements_noncanonical hx hz hd⟩⟩⟩
  rw [← fpAdd_eq _ _ hxP hzP]
  exact (runsRule_fadd d a b).elements_canonical hx hz hd hxP hzP

/-- Settles O27: FSUB runs `fpSub`, which is the residue of the difference (R151). -/
theorem fsubSubtractsModuloP : Obligations.FsubSubtractsModuloP := by
  refine ⟨encodedAs_of_decodeOpcode (by decide) fun _ _ _ => rfl, fun s d a b =>
    ⟨(runsRule_fsub d a b).noRoom_two, fun x z hx hz hd =>
      ⟨fun hxP hzP => ?_, (runsRule_fsub d a b).elements_noncanonical hx hz hd⟩⟩⟩
  rw [← fpSub_eq_emod hxP hzP, Int.toNat_natCast]
  exact (runsRule_fsub d a b).elements_canonical hx hz hd hxP hzP

/-- Settles O28: FNEG runs `fpNeg`, which is the residue of the negation (R152). -/
theorem fnegNegatesModuloP : Obligations.FnegNegatesModuloP := by
  refine ⟨encodedAs_of_decodeOpcode (by decide) fun _ _ _ => rfl, fun s d a =>
    ⟨(runsRule_fneg d a).noRoom_one, fun x hx hd =>
      ⟨fun hxP => ?_, (runsRule_fneg d a).element_noncanonical hx hd⟩⟩⟩
  rw [← fpNeg_eq_emod hxP, Int.toNat_natCast]
  exact (runsRule_fneg d a).element_canonical hx hd hxP

/-- Settles O29: FMUL runs `fpMul`, the residue of the exact product (R153). -/
theorem fmulMultipliesModuloP : Obligations.FmulMultipliesModuloP := by
  refine ⟨encodedAs_of_decodeOpcode (by decide) fun _ _ _ => rfl, fun s d a b =>
    ⟨(runsRule_fmul d a b).noRoom_two, fun x z hx hz hd =>
      ⟨fun hxP hzP => ?_, (runsRule_fmul d a b).elements_noncanonical hx hz hd⟩⟩⟩
  rw [← fpMul_eq]
  exact (runsRule_fmul d a b).elements_canonical hx hz hd hxP hzP

/-- Settles O30: FINV runs `inverseRule`, whose three cases are those of R154. -/
theorem finvInvertsOrSignalsZero : Obligations.FinvInvertsOrSignalsZero := by
  refine ⟨encodedAs_of_decodeOpcode (by decide) fun _ _ _ => rfl, fun s d a =>
    ⟨(runsRule_finv d a).noRoom_one, fun x hx hd => ⟨fun h0 hxP => ?_, fun h0 => ?_, fun hxP => ?_⟩⟩⟩
  · rw [← fpInv_eq]
    exact (runsRule_finv d a).stores hx rfl (operand_none s) rfl hd (inverseRule_nonzero h0 hxP [])
  · exact (runsRule_finv d a).fails hx rfl (operand_none s) rfl hd (inverseRule_zero h0 [])
  · exact (runsRule_finv d a).fails hx rfl (operand_none s) rfl hd (inverseRule_noncanonical hxP [])

/-- Settles O31: FPOW7 runs `pow7`, whose chain of multiplications is the seventh power (R155). -/
theorem fpow7RaisesToTheSeventhPower : Obligations.Fpow7RaisesToTheSeventhPower := by
  refine ⟨encodedAs_of_decodeOpcode (by decide) fun _ _ _ => rfl, fun s d a =>
    ⟨(runsRule_fpow7 d a).noRoom_one, fun x hx hd =>
      ⟨fun hxP => ?_, (runsRule_fpow7 d a).element_noncanonical hx hd⟩⟩⟩
  rw [← pow7_eq]
  exact (runsRule_fpow7 d a).element_canonical hx hd hxP

/-- Settles O32: FRED and FCANON store the residue of their words as they are, with no check of canonicality (R156, R157). -/
theorem fredAndFcanonReduceAnyWords : Obligations.FredAndFcanonReduceAnyWords :=
  ⟨encodedAs_of_decodeOpcode (by decide) fun _ _ _ => rfl, encodedAs_of_decodeOpcode (by decide) fun _ _ _ => rfl,
    fun s d a => ⟨(runsRule_fred d a).noRoom_one, (runsRule_fcanon d a).noRoom_one,
      fun _ _ hv hd => (runsRule_fred d a).stores hv rfl (operand_none s) rfl hd rfl,
      fun _ hv hd => (runsRule_fcanon d a).stores hv rfl (operand_none s) rfl hd rfl⟩⟩

end Sys2Proof.Machine
end

section
/-!
The adder, the multiplier and the reducer as units (spec/40_base_field.md R140 to R147): their ports, and the datapaths that keep 64
bits of a sum or a difference.
-/

namespace Sys2Proof.Machine

/-! The `op` port of the adder (R140). -/

theorem AdderOp.ofCode_code (op : AdderOp) : AdderOp.ofCode op.code = op := by cases op <;> rfl

theorem AdderOp.code_ofCode (c : BitVec 2) : (AdderOp.ofCode c).code = c := by decide +revert

/-! The adder: one equation for its ports. -/

/-- An operand that the operation uses is not canonical (R140). -/
abbrev AdderOp.Noncanonical (op : AdderOp) (a b : Word) : Prop := P ≤ a.toNat ∨ ((op = .add ∨ op = .sub) ∧ P ≤ b.toNat)

/-- The number an operation computes (R141); the reserved one computes none. -/
def AdderOp.value (op : AdderOp) (a b : Nat) : Option Nat :=
  match op with
  | .add => some (fpAdd a b)
  | .sub => some (fpSub a b)
  | .neg => some (fpNeg a)
  | .reserved => none

theorem adderUnit_eq (op : AdderOp) (a b : Word) :
    adderUnit op.code a b =
      if op.Noncanonical a b then ⟨none, true⟩ else ⟨(op.value a.toNat b.toNat).map (BitVec.ofNat 64), false⟩ := by
  unfold adderUnit
  rw [AdderOp.ofCode_code]
  cases op with
  | add => simp [AdderOp.Noncanonical, AdderOp.value]
  | sub => simp [AdderOp.Noncanonical, AdderOp.value]
  | neg => simp [AdderOp.Noncanonical, AdderOp.value]
  | reserved => by_cases ha : P ≤ a.toNat <;> simp [AdderOp.Noncanonical, AdderOp.value, ha]

section Adder

variable {op : AdderOp} {a b : Word}

theorem adderUnit_nc_iff : (adderUnit op.code a b).nc = true ↔ op.Noncanonical a b := by
  rw [adderUnit_eq]
  split <;> simp [*]

theorem adderUnit_y_none (h : (adderUnit op.code a b).nc = true ∨ op = .reserved) : (adderUnit op.code a b).y = none := by
  rw [adderUnit_nc_iff] at h
  rw [adderUnit_eq]
  split
  · rfl
  · next hn => rw [h.resolve_left hn]; rfl

/-- On canonical operands `y` shows the number computed, whole, when it is below P. -/
theorem adderUnit_y_some {v : Nat} (hn : ¬op.Noncanonical a b) (hv : op.value a.toNat b.toNat = some v) (hlt : v < P) :
    ∃ y : Word, (adderUnit op.code a b).y = some y ∧ y.toNat = v := by
  refine ⟨BitVec.ofNat 64 v, ?_, toNat_ofNat_lt hlt⟩
  rw [adderUnit_eq, if_neg hn, hv]
  rfl

end Adder

/-! The reducer and the multiplier (R143, R146). -/

theorem reducerUnit_toNat (x : BitVec 128) : (reducerUnit x).toNat = x.toNat % P := toNat_ofNat_lt (Nat.mod_lt _ P_pos)

/-- The product of two words fits the 128-bit port of the reducer. -/
theorem toNat_setWidth_mul (a b : Word) : (a.setWidth 128 * b.setWidth 128).toNat = a.toNat * b.toNat := by
  have hlt : a.toNat * b.toNat < 2 ^ 64 * 2 ^ 64 := Nat.mul_lt_mul'' a.isLt b.isLt
  rw [BitVec.toNat_mul, BitVec.toNat_setWidth_of_le (by decide), BitVec.toNat_setWidth_of_le (by decide),
    Nat.mod_eq_of_lt (hlt.trans_le (by decide))]

theorem multiplierUnit_noncanonical {a b : Word} (h : P ≤ a.toNat ∨ P ≤ b.toNat) : multiplierUnit a b = ⟨none, true⟩ :=
  if_pos h

theorem multiplierUnit_canonical {a b : Word} (h : ¬(P ≤ a.toNat ∨ P ≤ b.toNat)) :
    multiplierUnit a b = ⟨some (reducerUnit (a.setWidth 128 * b.setWidth 128)), false⟩ := if_neg h

theorem multiplierUnit_nc_iff {a b : Word} : (multiplierUnit a b).nc = true ↔ P ≤ a.toNat ∨ P ≤ b.toNat := by
  by_cases h : P ≤ a.toNat ∨ P ≤ b.toNat
  · simp [multiplierUnit_noncanonical h, h]
  · simp [multiplierUnit_canonical h, h]

/-- Settles O48: the adder by `adderUnit_eq` and the residues of `fpAdd`, `fpSub` and `fpNeg`, the reducer and the multiplier by
what their ports carry. -/
theorem arithmeticUnitPorts : Obligations.ArithmeticUnitPorts := by
  refine ⟨⟨rfl, rfl, rfl, rfl⟩, fun c => ⟨_, AdderOp.code_ofCode c⟩,
    fun op a b => ⟨adderUnit_nc_iff, adderUnit_y_none, fun hnc hop => ?adder⟩, reducerUnit_toNat,
    fun a b => ⟨multiplierUnit_nc_iff, fun hnc => ?noProduct, fun hnc => ?product⟩⟩
  case adder =>
    have hn : ¬op.Noncanonical a b := by simp [← adderUnit_nc_iff, hnc]
    have ha : a.toNat < P := Nat.lt_of_not_le fun h => hn (.inl h)
    cases op with
    | add =>
      have hb : b.toNat < P := Nat.lt_of_not_le fun h => hn (.inr ⟨.inl rfl, h⟩)
      obtain ⟨y, hy, hyv⟩ := adderUnit_y_some hn rfl (fpAdd_lt ha hb)
      exact ⟨y, hy, hyv ▸ fpAdd_lt ha hb, fun _ => hyv, nofun, nofun, fun _ => hyv.trans (fpAdd_eq _ _ ha hb), nofun, nofun⟩
    | sub =>
      have hb : b.toNat < P := Nat.lt_of_not_le fun h => hn (.inr ⟨.inr rfl, h⟩)
      obtain ⟨y, hy, hyv⟩ := adderUnit_y_some hn rfl (fpSub_lt ha hb)
      exact ⟨y, hy, hyv ▸ fpSub_lt ha hb, nofun, fun _ => hyv, nofun, nofun, fun _ => hyv ▸ fpSub_eq_emod ha hb, nofun⟩
    | neg =>
      obtain ⟨y, hy, hyv⟩ := adderUnit_y_some hn rfl (fpNeg_lt ha)
      exact ⟨y, hy, hyv ▸ fpNeg_lt ha, nofun, nofun, fun _ => hyv, nofun, nofun, fun _ => hyv ▸ fpNeg_eq_emod ha⟩
    | reserved => exact absurd rfl hop
  case noProduct => rw [multiplierUnit_noncanonical (multiplierUnit_nc_iff.1 hnc)]
  case product =>
    have hc : ¬(P ≤ a.toNat ∨ P ≤ b.toNat) := by simp [← multiplierUnit_nc_iff, hnc]
    rw [multiplierUnit_canonical hc]
    exact ⟨_, rfl, by rw [reducerUnit_toNat, toNat_setWidth_mul]⟩

/-! The datapaths of 64 bits (R142, R147): since 2^64 = P + EPS, a carry out of 64 bits is mended by adding EPS, and a borrow by
taking EPS off. -/

/-- A sum that is mended when it carries out of 64 bits. -/
def addMendingCarry (a b : Word) : Word := if (a + b).ult a then a + b + BitVec.ofNat 64 EPS else a + b

/-- The last step of a reduction: P is taken off once where it fits. -/
def subPOnce (t : Word) : Word := if (BitVec.ofNat 64 P).ule t then t - BitVec.ofNat 64 P else t

theorem adderAdd64_toNat {a b : Word} (ha : a.toNat < P) (hb : b.toNat < P) :
    (adderAdd64 a b).toNat = fpAdd a.toNat b.toNat := by
  simp only [adderAdd64, fpAdd, BitVec.ult_iff_lt, BitVec.ule_iff_le, P, EPS] at *
  split_ifs <;> bv_omega

/-- The minuend may be any word: a borrow is mended as long as the true difference is at least -P. -/
theorem adderSub64_toNat {a b : Word} (h : b.toNat ≤ a.toNat + P) : (adderSub64 a b).toNat = fpSub a.toNat b.toNat := by
  simp only [adderSub64, fpSub, BitVec.ult_iff_lt, P, EPS] at *
  split_ifs <;> bv_omega

theorem addMendingCarry_toNat {a b : Word} (h : a.toNat + b.toNat < 2 ^ 64 + P) :
    (addMendingCarry a b).toNat = if a.toNat + b.toNat < 2 ^ 64 then a.toNat + b.toNat else a.toNat + b.toNat - P := by
  simp only [addMendingCarry, BitVec.ult_iff_lt, P, EPS] at *
  split_ifs <;> bv_omega

/-- A word is below 2·P, so one P is enough. -/
theorem subPOnce_toNat (t : Word) : (subPOnce t).toNat = t.toNat % P := by
  simp only [subPOnce, BitVec.ule_iff_le, P]
  split_ifs <;> bv_omega

theorem toNat_mul_EPS {w : Word} (h : w.toNat < 2 ^ 32) : (w * BitVec.ofNat 64 EPS).toNat = w.toNat * EPS := by
  simp only [EPS]
  bv_omega

/-- A field of 32 bits of a number of 128 bits, as a word. -/
theorem toNat_setWidth_extractLsb' (x : BitVec 128) (k : Nat) :
    ((x.extractLsb' k 32).setWidth 64).toNat = x.toNat / 2 ^ k % 2 ^ 32 := by
  rw [BitVec.toNat_setWidth_of_le (by decide), BitVec.extractLsb'_toNat, Nat.shiftRight_eq_div_pow]

/-- The reduction in its steps: the top 32 bits are taken off, since 2^96 is -1 modulo P, the next 32 are put on with the factor EPS,
which is 2^64 modulo P, and the rest is brought below P. -/
theorem solinas_eq (x : BitVec 128) :
    solinas x = subPOnce (addMendingCarry (adderSub64 (x.extractLsb' 0 64) ((x.extractLsb' 96 32).setWidth 64))
      ((x.extractLsb' 64 32).setWidth 64 * BitVec.ofNat 64 EPS)) := rfl

/-- What the steps compute, for the three parts of a number of 128 bits, has the number's residue. -/
theorem solinas_residue {lo mid hi t : Nat} (hhi : hi < 2 ^ 32) (ht : t = fpSub lo hi + mid * EPS) :
    (if t < 2 ^ 64 then t else t - P) % P = (lo + 2 ^ 64 * mid + 2 ^ 96 * hi) % P := by
  simp only [fpSub, P, EPS] at *
  split_ifs at * <;> omega

theorem fpSub_add_mul_EPS_lt {lo mid hi : Nat} (hlo : lo < 2 ^ 64) (hmid : mid < 2 ^ 32) :
    fpSub lo hi + mid * EPS < 2 ^ 64 + P := by
  simp only [fpSub, P, EPS]
  split_ifs <;> omega

/-- The steps of `solinas_eq` on the parts of a number of 128 bits. -/
theorem solinasSteps_toNat {lo mid hi : Word} (hmid : mid.toNat < 2 ^ 32) (hhi : hi.toNat < 2 ^ 32) :
    (subPOnce (addMendingCarry (adderSub64 lo hi) (mid * BitVec.ofNat 64 EPS))).toNat =
      (lo.toNat + 2 ^ 64 * mid.toNat + 2 ^ 96 * hi.toNat) % P := by
  have hsub : (adderSub64 lo hi).toNat = fpSub lo.toNat hi.toNat :=
    adderSub64_toNat (hhi.le.trans (Nat.le_add_left_of_le (by decide)))
  have hmul := toNat_mul_EPS hmid
  have hlt : (adderSub64 lo hi).toNat + (mid * BitVec.ofNat 64 EPS).toNat < 2 ^ 64 + P := by
    rw [hsub, hmul]
    exact fpSub_add_mul_EPS_lt lo.isLt hmid
  rw [subPOnce_toNat, addMendingCarry_toNat hlt]
  exact solinas_residue hhi (by rw [hsub, hmul])

theorem solinas_toNat (x : BitVec 128) : (solinas x).toNat = x.toNat % P := by
  have hlo : (x.extractLsb' 0 64).toNat = x.toNat % 2 ^ 64 := BitVec.extractLsb'_toNat 0 64 x
  have hmid := toNat_setWidth_extractLsb' x 64
  have hhi := toNat_setWidth_extractLsb' x 96
  have hparts : x.toNat % 2 ^ 64 + 2 ^ 64 * (x.toNat / 2 ^ 64 % 2 ^ 32) + 2 ^ 96 * (x.toNat / 2 ^ 96 % 2 ^ 32) = x.toNat := by
    omega
  rw [solinas_eq, solinasSteps_toNat (hmid.trans_lt (Nat.mod_lt _ (by decide))) (hhi.trans_lt (Nat.mod_lt _ (by decide))),
    hlo, hmid, hhi, hparts]

/-- Settles O49: the adder's two datapaths, and the Solinas reduction as the residue that the reducer answers (R142, R147). -/
theorem wordDatapathsComputeTheResidues : Obligations.WordDatapathsComputeTheResidues := by
  refine ⟨fun a b ha hb => ⟨adderAdd64_toNat ha hb, adderSub64_toNat (hb.le.trans (Nat.le_add_left _ _))⟩,
    fun x => BitVec.eq_of_toNat_eq ?_⟩
  rw [solinas_toNat, reducerUnit_toNat]

end Sys2Proof.Machine
end

section
/-!
An extension element by its coefficients (spec/41_extension_field.md R190): what R191, R200 and R201 compute of each.
-/

namespace Sys2Proof.Machine

/-- The element with coefficients x 0 to x 4. -/
def extOf (x : Nat → Nat) : Ext := ⟨x 0, x 1, x 2, x 3, x 4⟩

theorem extList_extOf (x : Nat → Nat) : extList (extOf x) = (List.range 5).map x := rfl

theorem extOf_getD_extList (a : Ext) : extOf (fun k => (extList a).getD k 0) = a := rfl

theorem extAt_eq_extOf (v : List Word) : extAt v 0 = extOf (feAt v) := rfl

theorem extOf_eq_iff {x z : Nat → Nat} : extOf x = extOf z ↔ ∀ k, k < 5 → x k = z k := by
  simp only [extOf, Ext.mk.injEq]
  refine ⟨fun ⟨h0, h1, h2, h3, h4⟩ k hk => ?_, fun h => ⟨h 0 (by decide), h 1 (by decide), h 2 (by decide), h 3 (by decide),
    h 4 (by decide)⟩⟩
  interval_cases k <;> assumption

theorem extZero_canonical : extCanonical extZero := by decide

theorem extOne_canonical : extCanonical extOne := by decide

theorem getD_extList_lt {a : Ext} (ha : extCanonical a) (k : Nat) : (extList a).getD k 0 < P := by
  obtain ⟨h0, h1, h2, h3, h4⟩ := ha
  match k with
  | 0 => exact h0
  | 1 => exact h1
  | 2 => exact h2
  | 3 => exact h3
  | 4 => exact h4
  | _ + 5 => exact P_pos

section Coefficients

variable {x z : Nat → Nat}

theorem extAdd_extOf (hx : ∀ k, x k < P) (hz : ∀ k, z k < P) :
    extAdd (extOf x) (extOf z) = extOf fun k => (x k + z k) % P := by
  simp only [extAdd, extOf, fpAdd_eq _ _ (hx _) (hz _)]

theorem extSub_extOf (hx : ∀ k, x k < P) (hz : ∀ k, z k < P) :
    extSub (extOf x) (extOf z) = extOf fun k => (x k + P - z k) % P := by
  simp only [extSub, extOf, fpSub_eq _ _ (hx _) (hz _)]

theorem extNeg_extOf (hx : ∀ k, x k < P) : extNeg (extOf x) = extOf fun k => (P - x k) % P := by
  simp only [extNeg, extOf, fpNeg_eq _ (hx _)]

/-- Coefficient k is Σ_{i+j=k} x_i·z_j + W·Σ_{i+j=k+5} x_i·z_j (R191). -/
theorem extMul_extOf (x z : Nat → Nat) :
    extMul (extOf x) (extOf z) = extOf fun k => ((List.range 5).map fun j =>
      if j ≤ k then x j * z (k - j) else 3 * (x j * z (k + 5 - j))).sum % P := by
  simp only [extMul, extOf, Ext.mk.injEq]
  refine ⟨?_, ?_, ?_, ?_, ?_⟩ <;>
    exact congrArg (· % P) (by simp [List.range_succ]; ring)

end Coefficients

end Sys2Proof.Machine
end

section
/-!
The quintic extension (spec/41_extension_field.md R190 to R194). An element is read as its value in Fp[X]/(X^5 − 3), where the
operations of the model are those of the quotient ring; canonical elements with one value are equal, so the ring's laws hold of the
model. X^5 − 3 is irreducible, so that the ring is a field, and the inverse is the conjugate product over the norm (R192).
-/

namespace Sys2Proof.Machine

open Polynomial (X C)

/-! The ring Fp[X]/(X^5 − W) of R190, and the value of an element in it. -/

/-- X^5 − W over Fp (R190). -/
noncomputable def quintic : Polynomial (ZMod P) := X ^ 5 - C 3

/-- Fp[X]/(X^5 − W) (R190). -/
abbrev QuinticRing : Type := AdjoinRoot quintic

/-- The class of X. -/
noncomputable def quinticRoot : QuinticRing := AdjoinRoot.root quintic

/-- c0 + c1·X + c2·X^2 + c3·X^3 + c4·X^4 (R190). -/
noncomputable def extPoly (a : Ext) : Polynomial (ZMod P) :=
  C (a.c0 : ZMod P) + C (a.c1 : ZMod P) * X + C (a.c2 : ZMod P) * X ^ 2 + C (a.c3 : ZMod P) * X ^ 3 + C (a.c4 : ZMod P) * X ^ 4

/-- The value of an element. -/
noncomputable def extVal (a : Ext) : QuinticRing := AdjoinRoot.mk quintic (extPoly a)

theorem extVal_eq (a : Ext) :
    extVal a = a.c0 + a.c1 * quinticRoot + a.c2 * quinticRoot ^ 2 + a.c3 * quinticRoot ^ 3 + a.c4 * quinticRoot ^ 4 := by
  simp [extVal, extPoly, quinticRoot]

theorem eval₂_quintic (x : QuinticRing) : quintic.eval₂ (AdjoinRoot.of quintic) x = x ^ 5 - 3 := by
  change Polynomial.eval₂ _ x (X ^ 5 - C 3) = _
  rw [Polynomial.eval₂_sub, Polynomial.eval₂_X_pow, Polynomial.eval₂_C, map_ofNat]

/-- The reduction rule X^5 = W (R191). -/
theorem quinticRoot_pow_five : quinticRoot ^ 5 = 3 :=
  sub_eq_zero.1 ((eval₂_quintic quinticRoot).symm.trans (AdjoinRoot.eval₂_root quintic))

theorem natCast_mod_P (n : Nat) : ((n % P : Nat) : QuinticRing) = n := by
  rw [← map_natCast (AdjoinRoot.of quintic), ZMod.natCast_mod, map_natCast]

/-! Canonical elements with one value are equal: their polynomials have degree at most 4. -/

theorem fact_P_prime : Fact P.Prime := ⟨P_prime⟩

theorem natCast_inj_of_lt {x z : Nat} (hx : x < P) (hz : z < P) (h : (x : ZMod P) = z) : x = z := by
  rwa [ZMod.natCast_eq_natCast_iff', Nat.mod_eq_of_lt hx, Nat.mod_eq_of_lt hz] at h

theorem quintic_degree [Fact P.Prime] : quintic.degree = 5 := Polynomial.degree_X_pow_sub_C (by decide) 3

theorem extPoly_degree_lt (a : Ext) : (extPoly a).degree < 5 := by
  unfold extPoly
  compute_degree!

theorem coeff_extPoly (x : Nat → Nat) {k : Nat} (hk : k < 5) : (extPoly (extOf x)).coeff k = x k := by
  interval_cases k <;> simp [extPoly, extOf, Polynomial.coeff_X, Polynomial.coeff_X_pow]

theorem extPoly_injOn {a b : Ext} (ha : extCanonical a) (hb : extCanonical b) (h : extPoly a = extPoly b) : a = b := by
  rw [← extOf_getD_extList a, ← extOf_getD_extList b, extOf_eq_iff]
  intro k hk
  refine natCast_inj_of_lt (getD_extList_lt ha k) (getD_extList_lt hb k) ?_
  rw [← coeff_extPoly (fun k => (extList a).getD k 0) hk, ← coeff_extPoly (fun k => (extList b).getD k 0) hk, extOf_getD_extList,
    extOf_getD_extList, h]

theorem extVal_injOn {a b : Ext} (ha : extCanonical a) (hb : extCanonical b) (h : extVal a = extVal b) : a = b := by
  have := fact_P_prime
  have hdvd : quintic ∣ extPoly a - extPoly b := AdjoinRoot.mk_eq_mk.1 h
  have hdeg : (extPoly a - extPoly b).degree < quintic.degree := by
    rw [quintic_degree]
    exact (Polynomial.degree_sub_le _ _).trans_lt (max_lt (extPoly_degree_lt a) (extPoly_degree_lt b))
  exact extPoly_injOn ha hb (sub_eq_zero.1 (Polynomial.eq_zero_of_dvd_of_degree_lt hdvd hdeg))

/-! The value of each operation. -/

theorem extVal_zero : extVal extZero = 0 := by simp [extVal_eq, extZero]

theorem extVal_embed (x : Nat) : extVal (extEmbed x) = x := by simp [extVal_eq, extEmbed]

theorem extVal_one : extVal extOne = 1 := (extVal_embed 1).trans Nat.cast_one

theorem natCast_fpAdd {x z : Nat} (hx : x < P) (hz : z < P) : (fpAdd x z : QuinticRing) = x + z := by
  rw [fpAdd_eq x z hx hz, natCast_mod_P, Nat.cast_add]

theorem natCast_fpMul (x z : Nat) : (fpMul x z : QuinticRing) = x * z := by
  rw [fpMul_eq, natCast_mod_P, Nat.cast_mul]

theorem extVal_add {a b : Ext} (ha : extCanonical a) (hb : extCanonical b) : extVal (extAdd a b) = extVal a + extVal b := by
  obtain ⟨ha0, ha1, ha2, ha3, ha4⟩ := ha
  obtain ⟨hb0, hb1, hb2, hb3, hb4⟩ := hb
  simp only [extVal_eq, extAdd, natCast_fpAdd ha0 hb0, natCast_fpAdd ha1 hb1, natCast_fpAdd ha2 hb2, natCast_fpAdd ha3 hb3,
    natCast_fpAdd ha4 hb4]
  ring

theorem extVal_mul (a b : Ext) : extVal (extMul a b) = extVal a * extVal b := by
  simp only [extVal_eq, extMul, natCast_mod_P]
  push_cast
  linear_combination -((a.c1 * b.c4 + a.c2 * b.c3 + a.c3 * b.c2 + a.c4 * b.c1) +
    (a.c2 * b.c4 + a.c3 * b.c3 + a.c4 * b.c2) * quinticRoot + (a.c3 * b.c4 + a.c4 * b.c3) * quinticRoot ^ 2 +
    a.c4 * b.c4 * quinticRoot ^ 3 : QuinticRing) * quinticRoot_pow_five

theorem extVal_scale (k : Nat) (a : Ext) : extVal (extScale k a) = k * extVal a := by
  simp only [extVal_eq, extScale, natCast_fpMul]
  ring

/-! The ring is a field: 3 is no fifth power, since its power to (P − 1)/5 is not 1. -/

theorem three_pow_ne_one : (3 : ZMod P) ^ ((P - 1) / 5) ≠ 1 := by
  norm_num1
  reduce_mod_char
  decide

theorem quintic_irreducible : Irreducible quintic := by
  have := fact_P_prime
  refine X_pow_sub_C_irreducible_of_prime Nat.prime_five fun b hb => ?_
  have hb0 : b ≠ 0 := by
    rintro rfl
    exact absurd hb (by reduce_mod_char; decide)
  refine three_pow_ne_one ?_
  rw [← hb, ← pow_mul]
  exact ZMod.pow_card_sub_one_eq_one hb0

/-! The conjugation φ (R192): the ring's endomorphism that takes X to γ·X. -/

theorem GAMMA_pow_five : GAMMA ^ 5 % P = 1 := by decide

theorem natCast_GAMMA_pow_five : (GAMMA : QuinticRing) ^ 5 = 1 := by
  rw [← Nat.cast_pow, ← natCast_mod_P, GAMMA_pow_five, Nat.cast_one]

theorem eval₂_GAMMA_mul_quinticRoot : quintic.eval₂ (AdjoinRoot.of quintic) (GAMMA * quinticRoot) = 0 := by
  rw [eval₂_quintic, mul_pow, natCast_GAMMA_pow_five, quinticRoot_pow_five, one_mul, sub_self]

/-- φ (R192). -/
noncomputable def conjHom : QuinticRing →+* QuinticRing :=
  AdjoinRoot.lift (AdjoinRoot.of quintic) (GAMMA * quinticRoot) eval₂_GAMMA_mul_quinticRoot

theorem conjHom_quinticRoot : conjHom quinticRoot = GAMMA * quinticRoot := AdjoinRoot.lift_root _

theorem extVal_frob (k : Nat) (a : Ext) :
    extVal (extFrob k a) = a.c0 + GAMMA ^ k * a.c1 * quinticRoot + GAMMA ^ (2 * k) * a.c2 * quinticRoot ^ 2 +
      GAMMA ^ (3 * k) * a.c3 * quinticRoot ^ 3 + GAMMA ^ (4 * k) * a.c4 * quinticRoot ^ 4 := by
  simp only [extVal_eq, extFrob, natCast_fpMul, natCast_mod_P, Nat.cast_pow]

theorem conjHom_extVal_frob (k : Nat) (a : Ext) : conjHom (extVal (extFrob k a)) = extVal (extFrob (k + 1) a) := by
  simp only [extVal_frob, map_add, map_mul, map_pow, map_natCast, conjHom_quinticRoot]
  generalize (GAMMA : QuinticRing) = g
  ring

theorem extVal_frob_zero (a : Ext) : extVal (extFrob 0 a) = extVal a := by simp [extVal_frob 0, extVal_eq a]

theorem extVal_frob_five (a : Ext) : extVal (extFrob 5 a) = extVal a := by
  simp only [extVal_frob 5, extVal_eq a, mul_comm _ 5, pow_mul, natCast_GAMMA_pow_five, one_pow, one_mul]

theorem conjHom_extVal (a : Ext) : conjHom (extVal a) = extVal (extFrob 1 a) := by
  rw [← extVal_frob_zero, conjHom_extVal_frob]

/-- The value of C (R192). -/
theorem extVal_conj (a : Ext) :
    extVal (extConj a) =
      extVal (extFrob 1 a) * extVal (extFrob 2 a) * (extVal (extFrob 3 a) * extVal (extFrob 4 a)) := by
  simp only [extConj, extVal_mul]

/-- φ permutes the five factors of a·C. -/
theorem conjHom_extVal_mul_conj (a : Ext) :
    conjHom (extVal (extMul a (extConj a))) = extVal (extMul a (extConj a)) := by
  rw [extVal_mul, extVal_conj]
  simp only [map_mul, conjHom_extVal_frob, Nat.reduceAdd]
  rw [conjHom_extVal, extVal_frob_five]
  ring

/-! The norm (R192): an element that φ fixes is an embedded one. -/

theorem extFrob_canonical {a : Ext} (ha : extCanonical a) (k : Nat) : extCanonical (extFrob k a) :=
  ⟨ha.1, fpMul_lt _ _, fpMul_lt _ _, fpMul_lt _ _, fpMul_lt _ _⟩

theorem eq_zero_of_fpMul_eq {g x : Nat} (hg : g % P ≠ 1) (hx : x < P) (h : fpMul g x = x) : x = 0 := by
  by_contra h0
  have hmod : g * x ≡ 1 * x [MOD P] := by rw [Nat.ModEq, ← fpMul_eq, h, one_mul, Nat.mod_eq_of_lt hx]
  exact hg (Nat.ModEq.cancel_right_of_coprime (Nat.coprime_of_lt_prime h0 hx P_prime) hmod)

/-- γ^j is not 1 for j = 1 to 4, so φ fixes no nonzero coefficient but the constant one. -/
theorem eq_extEmbed_of_extFrob_eq {a : Ext} (ha : extCanonical a) (h : extFrob 1 a = a) : a = extEmbed a.c0 := by
  obtain ⟨a0, a1, a2, a3, a4⟩ := a
  obtain ⟨-, h1, h2, h3, h4⟩ := ha
  simp only [extFrob, Ext.mk.injEq] at h
  obtain ⟨-, hf1, hf2, hf3, hf4⟩ := h
  simp only [extEmbed, Ext.mk.injEq]
  exact ⟨trivial, eq_zero_of_fpMul_eq (by decide) h1 hf1, eq_zero_of_fpMul_eq (by decide) h2 hf2,
    eq_zero_of_fpMul_eq (by decide) h3 hf3, eq_zero_of_fpMul_eq (by decide) h4 hf4⟩

/-- a·C is the norm, embedded (R192). -/
theorem extMul_extConj (a : Ext) : extMul a (extConj a) = extEmbed (extNorm a) := by
  have hc : extCanonical (extMul a (extConj a)) := extMul_canonical _ _
  refine eq_extEmbed_of_extFrob_eq hc (extVal_injOn (extFrob_canonical hc 1) hc ?_)
  rw [← conjHom_extVal, conjHom_extVal_mul_conj]

/-! The inverse (R192). -/

theorem extVal_ne_zero {a : Ext} (ha : extCanonical a) (h0 : a ≠ extZero) : extVal a ≠ 0 := by
  rw [← extVal_zero]
  exact fun h => h0 (extVal_injOn ha extZero_canonical h)

section Field

variable [Fact P.Prime] [Fact (Irreducible quintic)]

theorem extVal_frob_ne_zero {a : Ext} (h : extVal a ≠ 0) (k : Nat) : extVal (extFrob k a) ≠ 0 := by
  induction k with
  | zero => rwa [extVal_frob_zero]
  | succ k ih => rwa [← conjHom_extVal_frob, map_ne_zero]

theorem extNorm_ne_zero {a : Ext} (ha : extCanonical a) (h0 : a ≠ extZero) : extNorm a ≠ 0 := by
  intro hn
  have hv := extVal_ne_zero ha h0
  have hprod : extVal (extMul a (extConj a)) = 0 := by rw [extMul_extConj, hn]; exact extVal_zero
  simp [extVal_mul, extVal_conj, hv, extVal_frob_ne_zero hv] at hprod

end Field

/-- a·(C·n⁻¹) = n·n⁻¹ = 1 (R192). -/
theorem extMul_extInv {a : Ext} (ha : extCanonical a) (h0 : a ≠ extZero) : extMul a (extInv a) = extOne := by
  have := fact_P_prime
  have : Fact (Irreducible quintic) := ⟨quintic_irreducible⟩
  refine extVal_injOn (extMul_canonical _ _) extOne_canonical ?_
  have hnorm : extVal a * extVal (extConj a) = extNorm a := by rw [← extVal_mul, extMul_extConj, extVal_embed]
  calc extVal (extMul a (extInv a))
      = extNorm a * fpInv (extNorm a) := by rw [extVal_mul, extInv, extVal_scale, mul_left_comm, hnorm, mul_comm]
    _ = 1 := by
      rw [← natCast_fpMul, fpMul_fpInv (extNorm_ne_zero ha h0) (Nat.mod_lt _ P_pos), Nat.cast_one]
    _ = extVal extOne := extVal_one.symm

/-! The laws of R194: those of the ring, since the results are canonical (`extVal_injOn`). -/

section Laws

variable {a b c : Ext} (ha : extCanonical a) (hb : extCanonical b) (hc : extCanonical c)

include ha in
theorem extAdd_zero : extAdd a extZero = a :=
  extVal_injOn (extAdd_canonical ha extZero_canonical) ha (by rw [extVal_add ha extZero_canonical, extVal_zero, add_zero])

include ha in
theorem extMul_one : extMul a extOne = a :=
  extVal_injOn (extMul_canonical _ _) ha (by rw [extVal_mul, extVal_one, mul_one])

theorem extMul_comm : extMul a b = extMul b a :=
  extVal_injOn (extMul_canonical _ _) (extMul_canonical _ _) (by rw [extVal_mul, extVal_mul, mul_comm])

theorem extMul_assoc : extMul (extMul a b) c = extMul a (extMul b c) :=
  extVal_injOn (extMul_canonical _ _) (extMul_canonical _ _) (by simp only [extVal_mul, mul_assoc])

include ha in
theorem extAdd_extNeg : extAdd a (extNeg a) = extZero := by
  obtain ⟨h0, h1, h2, h3, h4⟩ := ha
  simp only [extAdd, extNeg, extZero, fpAdd_fpNeg h0, fpAdd_fpNeg h1, fpAdd_fpNeg h2, fpAdd_fpNeg h3, fpAdd_fpNeg h4]

include ha hb

theorem extAdd_comm : extAdd a b = extAdd b a :=
  extVal_injOn (extAdd_canonical ha hb) (extAdd_canonical hb ha) (by rw [extVal_add ha hb, extVal_add hb ha, add_comm])

theorem extSub_eq_extAdd_extNeg : extSub a b = extAdd a (extNeg b) := by
  obtain ⟨ha0, ha1, ha2, ha3, ha4⟩ := ha
  obtain ⟨hb0, hb1, hb2, hb3, hb4⟩ := hb
  simp only [extSub, extAdd, extNeg, fpSub_eq_fpAdd_fpNeg ha0 hb0, fpSub_eq_fpAdd_fpNeg ha1 hb1, fpSub_eq_fpAdd_fpNeg ha2 hb2,
    fpSub_eq_fpAdd_fpNeg ha3 hb3, fpSub_eq_fpAdd_fpNeg ha4 hb4]

include hc

theorem extAdd_assoc : extAdd (extAdd a b) c = extAdd a (extAdd b c) := by
  have hab := extAdd_canonical ha hb
  have hbc := extAdd_canonical hb hc
  refine extVal_injOn (extAdd_canonical hab hc) (extAdd_canonical ha hbc) ?_
  rw [extVal_add hab hc, extVal_add ha hb, extVal_add ha hbc, extVal_add hb hc, add_assoc]

omit ha

theorem extMul_extAdd : extMul a (extAdd b c) = extAdd (extMul a b) (extMul a c) := by
  have hab := extMul_canonical a b
  have hac := extMul_canonical a c
  refine extVal_injOn (extMul_canonical _ _) (extAdd_canonical hab hac) ?_
  rw [extVal_mul, extVal_add hb hc, extVal_add hab hac, extVal_mul, extVal_mul, mul_add]

end Laws

/-! Embedding is a homomorphism (R194). -/

theorem extMul_extEmbed (x z : Nat) : extMul (extEmbed x) (extEmbed z) = extEmbed (fpMul x z) := by
  simp [extMul, extEmbed, fpMul_eq]

theorem extAdd_extEmbed (x z : Nat) : extAdd (extEmbed x) (extEmbed z) = extEmbed (fpAdd x z) := by
  simp [extAdd, extEmbed, show fpAdd 0 0 = 0 from rfl]

/-- Settles O50: the coefficients are those of `extAdd_extOf` to `extMul_extOf`, the laws those of Fp[X]/(X^5 − 3), and the inverse
is the conjugate product over the norm (`extMul_extInv`). -/
theorem extensionFieldIsAField : Obligations.ExtensionFieldIsAField := by
  refine ⟨⟨rfl, rfl, fun _ => rfl, fun a b ha hb => ?coefficients⟩,
    ⟨extZero_canonical, extOne_canonical, by decide, fun a b ha hb =>
      ⟨extAdd_canonical ha hb, extNeg_canonical ha, extSub_canonical ha hb, extMul_canonical a b⟩⟩,
    fun a b c ha hb hc => ⟨extAdd_assoc ha hb hc, extAdd_comm ha hb, extAdd_zero ha, extAdd_extNeg ha,
      extSub_eq_extAdd_extNeg ha hb, extMul_assoc, extMul_comm, extMul_one ha, extMul_extAdd hb hc⟩,
    fun x z _ _ => ⟨extMul_extEmbed x z, extAdd_extEmbed x z⟩,
    fun a ha h0 => ⟨extInv_canonical a, extMul_extInv ha h0⟩⟩
  case coefficients =>
    have hx := getD_extList_lt ha
    have hz := getD_extList_lt hb
    exact ⟨rfl, congrArg extList (extAdd_extOf hx hz), congrArg extList (extSub_extOf hx hz), congrArg extList (extNeg_extOf hx),
      congrArg extList (extMul_extOf ((extList a).getD · 0) ((extList b).getD · 0))⟩

end Sys2Proof.Machine
end

section
/-!
The extension-field commands (spec/41_extension_field.md R200 to R205): each is the execution frame around a rule that first checks
that every source word is below P.
-/

namespace Sys2Proof.Machine

/-! Operand words as coefficients (R103, R104). -/

theorem feAt_of_lt {v : List Word} {k : Nat} (h : k < v.length) : feAt v k = v[k].toNat := by
  rw [feAt, List.getD_eq_getElem _ _ h]

theorem allCanonical_singleton {x : Word} : AllCanonical [x] ↔ x.toNat < P := List.forall_mem_singleton

theorem allCanonical_iff_feAt {v : List Word} : AllCanonical v ↔ ∀ k, k < v.length → feAt v k < P := by
  rw [AllCanonical, List.forall_mem_iff_forall_getElem]
  exact forall₂_congr fun k h => by rw [feAt_of_lt h]

/-- A word that is not there counts as 0, which is canonical. -/
theorem feAt_lt {v : List Word} (h : AllCanonical v) (k : Nat) : feAt v k < P := by
  rcases Nat.lt_or_ge k v.length with hk | hk
  · exact allCanonical_iff_feAt.1 h k hk
  · rw [feAt, List.getD_eq_default _ _ hk]
    exact P_pos

theorem extAt_eq_zero_iff {v : List Word} : extAt v 0 = extZero ↔ ∀ k, k < 5 → feAt v k = 0 :=
  extOf_eq_iff (x := feAt v) (z := fun _ => 0)

/-- Five words are determined by their element: each word by its number. -/
theorem extAt_inj {va vb : List Word} (hla : va.length = 5) (hlb : vb.length = 5) : extAt va 0 = extAt vb 0 ↔ va = vb := by
  refine ⟨fun h => List.ext_getElem (hla.trans hlb.symm) fun k hka hkb => ?_, fun h => h ▸ rfl⟩
  have hk := extOf_eq_iff.1 h k (hla ▸ hka)
  rw [feAt_of_lt hka, feAt_of_lt hkb] at hk
  exact BitVec.eq_of_toNat_eq hk

/-! The rules, on operands of any length. -/

/-- The rule of a command whose two operands must be canonical and that then stores `g` of them. -/
def canonicalPairRule (g : List Word → List Word → List Nat) (va vb : List Word) : Except ErrCode (List Word) :=
  if !(canonical va && canonical vb) then .error .noncanonical else .ok (words (g va vb))

/-- The same for a command with one operand. -/
def canonicalRule (g : List Word → List Nat) (va _vb : List Word) : Except ErrCode (List Word) :=
  if !canonical va then .error .noncanonical else .ok (words (g va))

/-- The rule of EINV. -/
def extInverseRule (va _vb : List Word) : Except ErrCode (List Word) :=
  if !canonical va then .error .noncanonical
  else if extAt va 0 = extZero then .error .nonInvertible
  else .ok (words (extList (extInv (extAt va 0))))

section Rules

variable {va vb : List Word}

theorem canonicalPairRule_canonical (g : List Word → List Word → List Nat) (ha : AllCanonical va) (hb : AllCanonical vb) :
    canonicalPairRule g va vb = .ok (words (g va vb)) := by
  simp [canonicalPairRule, canonical_of_all ha, canonical_of_all hb]

theorem canonicalPairRule_noncanonical (g : List Word → List Word → List Nat) (h : ¬AllCanonical va ∨ ¬AllCanonical vb) :
    canonicalPairRule g va vb = .error .noncanonical := by
  rcases h with h | h <;> simp [canonicalPairRule, canonical_of_not_all h]

theorem canonicalRule_canonical (g : List Word → List Nat) (ha : AllCanonical va) :
    canonicalRule g va vb = .ok (words (g va)) := by
  simp [canonicalRule, canonical_of_all ha]

theorem canonicalRule_noncanonical (g : List Word → List Nat) (ha : ¬AllCanonical va) :
    canonicalRule g va vb = .error .noncanonical := by
  simp [canonicalRule, canonical_of_not_all ha]

theorem extInverseRule_nonzero (ha : AllCanonical va) (h0 : extAt va 0 ≠ extZero) :
    extInverseRule va vb = .ok (words (extList (extInv (extAt va 0)))) := by
  simp [extInverseRule, canonical_of_all ha, h0]

theorem extInverseRule_zero (ha : AllCanonical va) (h0 : extAt va 0 = extZero) :
    extInverseRule va vb = .error .nonInvertible := by
  simp [extInverseRule, canonical_of_all ha, h0]

theorem extInverseRule_noncanonical (ha : ¬AllCanonical va) : extInverseRule va vb = .error .noncanonical := by
  simp [extInverseRule, canonical_of_not_all ha]

end Rules

/-! What each command runs (R109). -/

theorem runsRule_eadd (d a b : Nat) : RunsRule (.eadd d a b) ⟨⟨a, 5⟩, ⟨b, 5⟩, ⟨d, 5⟩⟩
    (canonicalPairRule fun va vb => extList (extAdd (extAt va 0) (extAt vb 0))) :=
  ⟨fun _ => rfl, fun _ => rfl, fun _ _ => rfl⟩

theorem runsRule_esub (d a b : Nat) : RunsRule (.esub d a b) ⟨⟨a, 5⟩, ⟨b, 5⟩, ⟨d, 5⟩⟩
    (canonicalPairRule fun va vb => extList (extSub (extAt va 0) (extAt vb 0))) :=
  ⟨fun _ => rfl, fun _ => rfl, fun _ _ => rfl⟩

theorem runsRule_emul (d a b : Nat) : RunsRule (.emul d a b) ⟨⟨a, 5⟩, ⟨b, 5⟩, ⟨d, 5⟩⟩
    (canonicalPairRule fun va vb => extList (extMul (extAt va 0) (extAt vb 0))) :=
  ⟨fun _ => rfl, fun _ => rfl, fun _ _ => rfl⟩

theorem runsRule_eeq (d a b : Nat) : RunsRule (.eeq d a b) ⟨⟨a, 5⟩, ⟨b, 5⟩, ⟨d, 1⟩⟩
    (canonicalPairRule fun va vb => [if extAt va 0 = extAt vb 0 then 1 else 0]) :=
  ⟨fun _ => rfl, fun _ => rfl, fun _ _ => rfl⟩

theorem runsRule_eembed (d a : Nat) : RunsRule (.eembed d a) ⟨⟨a, 1⟩, ⟨0, 0⟩, ⟨d, 5⟩⟩
    (canonicalRule fun va => extList (extEmbed (feAt va 0))) :=
  ⟨fun _ => rfl, fun _ => rfl, fun _ _ => rfl⟩

theorem runsRule_einv (d a : Nat) : RunsRule (.einv d a) ⟨⟨a, 5⟩, ⟨0, 0⟩, ⟨d, 5⟩⟩ extInverseRule :=
  ⟨fun _ => rfl, fun _ => rfl, fun _ _ => rfl⟩

namespace RunsRule

variable {i : Instr} {s : State} {a b d na nb nd : Nat} {va vb : List Word}

section Pair

variable {g : List Word → List Word → List Nat} (h : RunsRule i ⟨⟨a, na⟩, ⟨b, nb⟩, ⟨d, nd⟩⟩ (canonicalPairRule g))
  (ha : Operand s a va) (hla : va.length = na) (hb : Operand s b vb) (hlb : vb.length = nb) (hd : Room s d nd)
include h ha hla hb hlb hd

theorem pair_canonical (hca : AllCanonical va) (hcb : AllCanonical vb) : exec i s = .next (finish s d (g va vb)) :=
  h.stores ha hla hb hlb hd (canonicalPairRule_canonical g hca hcb)

theorem pair_noncanonical (hc : ¬AllCanonical va ∨ ¬AllCanonical vb) : exec i s = .next (s.completeError .noncanonical) :=
  h.fails ha hla hb hlb hd (canonicalPairRule_noncanonical g hc)

end Pair

section Single

variable {g : List Word → List Nat} (h : RunsRule i ⟨⟨a, na⟩, ⟨0, 0⟩, ⟨d, nd⟩⟩ (canonicalRule g))
  (ha : Operand s a va) (hla : va.length = na) (hd : Room s d nd)
include h ha hla hd

theorem single_canonical (hca : AllCanonical va) : exec i s = .next (finish s d (g va)) :=
  h.stores ha hla (operand_none s) rfl hd (canonicalRule_canonical g hca)

theorem single_noncanonical (hca : ¬AllCanonical va) : exec i s = .next (s.completeError .noncanonical) :=
  h.fails ha hla (operand_none s) rfl hd (canonicalRule_noncanonical g hca)

end Single

end RunsRule

/-! The commands. -/

/-- Settles O33: the coefficients of the sum are `fpAdd` and those of the difference `fpSub` of the operands' words, the residues of
R200 and R201. -/
theorem eaddAndEsubActComponentwise : Obligations.EaddAndEsubActComponentwise := by
  refine ⟨encodedAs_of_decodeOpcode (by decide) fun _ _ _ => rfl, encodedAs_of_decodeOpcode (by decide) fun _ _ _ => rfl,
    fun s d a b => ⟨fun hroom => ⟨(runsRule_eadd d a b).noRoom_two hroom, (runsRule_esub d a b).noRoom_two hroom⟩,
      fun va vb hla hlb ha hb hd => ⟨fun hca hcb => ⟨?sum, ?difference⟩, fun hc =>
        ⟨(runsRule_eadd d a b).pair_noncanonical ha hla hb hlb hd hc,
          (runsRule_esub d a b).pair_noncanonical ha hla hb hlb hd hc⟩⟩⟩⟩
  case sum =>
    simp only [← fpAdd_eq _ _ (feAt_lt hca _) (feAt_lt hcb _)]
    exact (runsRule_eadd d a b).pair_canonical ha hla hb hlb hd hca hcb
  case difference =>
    simp only [← fpSub_eq_emod (feAt_lt hca _) (feAt_lt hcb _), Int.toNat_natCast]
    exact (runsRule_esub d a b).pair_canonical ha hla hb hlb hd hca hcb

/-- Settles O34: EMUL runs `extMul`, whose coefficients are the sums of R191 (`extMul_extOf`). -/
theorem emulMultipliesModuloTheQuintic : Obligations.EmulMultipliesModuloTheQuintic := by
  refine ⟨encodedAs_of_decodeOpcode (by decide) fun _ _ _ => rfl, fun s d a b =>
    ⟨(runsRule_emul d a b).noRoom_two, fun va vb hla hlb ha hb hd =>
      ⟨fun hca hcb => ?_, (runsRule_emul d a b).pair_noncanonical ha hla hb hlb hd⟩⟩⟩
  rw [← extList_extOf, ← extMul_extOf, ← extAt_eq_extOf, ← extAt_eq_extOf]
  exact (runsRule_emul d a b).pair_canonical ha hla hb hlb hd hca hcb

/-- Settles O35: EINV runs `extInverseRule`, whose three cases are those of R203; five zero words are canonical. -/
theorem einvInvertsOrSignalsZero : Obligations.EinvInvertsOrSignalsZero := by
  refine ⟨encodedAs_of_decodeOpcode (by decide) fun _ _ _ => rfl, fun s d a =>
    ⟨(runsRule_einv d a).noRoom_one, fun va hla ha hd => ⟨fun hca hne => ?nonzero, fun hz => ?zero, fun hca => ?noncanonical⟩⟩⟩
  case nonzero =>
    obtain ⟨k, hk, hne⟩ := hne
    have h0 : extAt va 0 ≠ extZero := fun h => hne (extAt_eq_zero_iff.1 h k hk)
    exact (runsRule_einv d a).stores ha hla (operand_none s) rfl hd (extInverseRule_nonzero hca h0)
  case zero =>
    have hca : AllCanonical va := allCanonical_iff_feAt.2 fun k hk => by rw [hz k (hla ▸ hk)]; exact P_pos
    exact (runsRule_einv d a).fails ha hla (operand_none s) rfl hd (extInverseRule_zero hca (extAt_eq_zero_iff.2 hz))
  case noncanonical =>
    exact (runsRule_einv d a).fails ha hla (operand_none s) rfl hd (extInverseRule_noncanonical hca)

/-- Settles O36: EEMBED stores the coefficients of `extEmbed`, the word and four zeros (R204). -/
theorem eembedEmbedsTheConstantTerm : Obligations.EembedEmbedsTheConstantTerm := by
  refine ⟨encodedAs_of_decodeOpcode (by decide) fun _ _ _ => rfl, fun s d a =>
    ⟨(runsRule_eembed d a).noRoom_one, fun x ha hd => ⟨fun hx => ?_, fun hx => ?_⟩⟩⟩
  · exact (runsRule_eembed d a).single_canonical ha rfl hd (allCanonical_singleton.2 hx)
  · exact (runsRule_eembed d a).single_noncanonical ha rfl hd fun h => Nat.not_lt.2 hx (allCanonical_singleton.1 h)

/-- Settles O37: EEQ compares the two elements, and five words are equal exactly when their elements are (`extAt_inj`, R205). -/
theorem eeqComparesAllCoefficients : Obligations.EeqComparesAllCoefficients := by
  refine ⟨encodedAs_of_decodeOpcode (by decide) fun _ _ _ => rfl, fun s d a b =>
    ⟨(runsRule_eeq d a b).noRoom_two, fun va vb hla hlb ha hb hd =>
      ⟨fun hca hcb => ?_, (runsRule_eeq d a b).pair_noncanonical ha hla hb hlb hd⟩⟩⟩
  simp only [← extAt_inj hla hlb]
  exact (runsRule_eeq d a b).pair_canonical ha hla hb hlb hd hca hcb

end Sys2Proof.Machine
end

section
/-!
The permutation (spec/42_permutation.md R230 to R236): the three steps of a round, element by element, and the rounds in order.
-/

namespace Sys2Proof.Machine

theorem getD_map_range (f : Nat → Nat) {n k : Nat} (hk : k < n) : ((List.range n).map f).getD k 0 = f k := by
  rw [List.getD_eq_getElem _ _ (by simpa using hk), List.getElem_map, List.getElem_range]

/-- Lists of one length with the same elements are equal. -/
theorem eq_of_getD_eq {s t : List Nat} (hl : s.length = t.length) (h : ∀ k, k < s.length → s.getD k 0 = t.getD k 0) : s = t := by
  refine List.ext_getElem hl fun k hs ht => ?_
  have hk := h k hs
  rwa [List.getD_eq_getElem _ _ hs, List.getD_eq_getElem _ _ ht] at hk

/-- An element that is not there counts as 0, which is canonical. -/
theorem getD_lt_of_forall_mem_lt {s : List Nat} (hs : ∀ x ∈ s, x < P) (k : Nat) : s.getD k 0 < P := by
  rcases Nat.lt_or_ge k s.length with hk | hk
  · rw [List.getD_eq_getElem _ _ hk]
    exact hs _ (List.getElem_mem hk)
  · rw [List.getD_eq_default _ _ hk]
    exact P_pos

section Round

variable {c : Config} {r k : Nat} {s : List Nat}

/-! The constants (R235). -/

@[simp] theorem addConstants_length : (addConstants c r s).length = 12 := by simp [addConstants]

theorem addConstants_getD (hk : k < 12) (hrc : (c.permRc.getD r []).getD k 0 < P) (hs : s.getD k 0 < P) :
    (addConstants c r s).getD k 0 = (s.getD k 0 + (c.permRc.getD r []).getD k 0) % P :=
  (getD_map_range _ hk).trans (fpAdd_eq _ _ hs hrc)

/-! The S-boxes (R231, R233): on every element of a full round, on element 0 of a partial one. -/

theorem fullRound_iff : fullRound c r = true ↔ r < c.permRf / 2 ∨ c.permRf / 2 + c.permRp ≤ r := by simp [fullRound]

@[simp] theorem sboxLayer_length : (sboxLayer c r s).length = s.length := by
  unfold sboxLayer
  split <;> simp

theorem sboxLayer_getD (hk : k < s.length) :
    (sboxLayer c r s).getD k 0 =
      if r < c.permRf / 2 ∨ c.permRf / 2 + c.permRp ≤ r ∨ k = 0 then pow7 (s.getD k 0) else s.getD k 0 := by
  simp only [← or_assoc, ← fullRound_iff, sboxLayer]
  by_cases hfull : fullRound c r = true
  · rw [if_pos hfull, if_pos (.inl hfull)]
    exact List.getD_map s 0 pow7
  · rcases Nat.eq_zero_or_pos k with rfl | hpos
    · simp [hfull, hk]
    · simp [hfull, hpos.ne, hpos.ne']

/-! The linear layer (R234). -/

/-- An entry that a row leaves out counts as 0. -/
theorem dotRow_eq_sum (m x : List Nat) : dotRow m x = ((List.range x.length).map fun j => m.getD j 0 * x.getD j 0).sum := by
  induction x generalizing m with
  | nil => cases m <;> rfl
  | cons x xs ih =>
    cases m with
    | nil => simp [dotRow]
    | cons m ms =>
      rw [dotRow, ih ms, List.length_cons, List.range_succ_eq_map, List.map_cons, List.map_map, List.sum_cons]
      rfl

theorem linearLayer_getD (hk : k < 12) :
    (linearLayer c s).getD k 0 =
      ((List.range s.length).map fun j => (c.permMds.getD k []).getD j 0 * s.getD j 0).sum % P := by
  rw [← dotRow_eq_sum]
  exact getD_map_range _ hk

theorem linearLayer_lt : ∀ x ∈ linearLayer c s, x < P := by
  intro x hx
  obtain ⟨i, -, rfl⟩ := List.mem_map.1 hx
  exact Nat.mod_lt _ P_pos

end Round

/-! The rounds in order (R236). -/

theorem permRounds_eq_foldl (c : Config) (n r : Nat) (s : List Nat) :
    permRounds c n r s = (List.range' r n).foldl (fun s r => permRound c r s) s := by
  induction n generalizing r s with
  | zero => rfl
  | succ n ih => rw [permRounds, ih, List.range'_succ, List.foldl_cons]

theorem permRounds_lt (c : Config) (n r : Nat) {s : List Nat} (hs : ∀ x ∈ s, x < P) : ∀ x ∈ permRounds c n r s, x < P := by
  induction n generalizing r s with
  | zero => exact hs
  | succ n ih => exact ih (r + 1) linearLayer_lt

theorem permute_eq_foldl (c : Config) (s : List Nat) :
    permute c s = (List.range (c.permRf + c.permRp)).foldl (fun s r => permRound c r s) s := by
  rw [List.range_eq_range', permute, permRounds_eq_foldl]

theorem permute_lt (c : Config) {s : List Nat} (hs : ∀ x ∈ s, x < P) : ∀ x ∈ permute c s, x < P :=
  permRounds_lt c _ 0 hs

/-- Settles O51: a list with the elements of the state after steps 1 and 2 is that state, so the round is the linear layer on it;
`permRounds` runs the rounds as a fold, and the state stays canonical because the last step of a round reduces modulo P. -/
theorem permuteIteratesElementwiseRounds : Obligations.PermuteIteratesElementwiseRounds := by
  refine ⟨fun c r s t hrc _ hcan ht helem => ?round, fun c s =>
    ⟨permute_eq_foldl c s, fun hs hcan => ⟨permute_length c s hs, permute_lt c hcan⟩⟩⟩
  case round =>
    have hst : sboxLayer c r (addConstants c r s) = t := by
      refine eq_of_getD_eq (by simp [ht]) fun k hk => ?_
      rw [sboxLayer_length, addConstants_length] at hk
      rw [sboxLayer_getD (by simpa using hk), addConstants_getD hk (hrc k hk) (getD_lt_of_forall_mem_lt hcan k), helem k hk,
        pow7_eq]
    refine ⟨linearLayer_length c _, fun i hi => ?_⟩
    rw [permRound, hst, linearLayer_getD hi, ht]

/-! The command (R240). -/

/-- PERM is the execution frame around a rule that takes its tables from the state's configuration. -/
theorem exec_perm_eq_canonicalRule (d a : Nat) (s : State) :
    exec (.perm d a) s = runCommand (.perm d a) s (canonicalRule fun va => permute s.config (numbers va)) := rfl

section Perm

variable {s : State} {d a : Nat}

theorem exec_perm_noRoom (hroom : ¬Room s a 12 ∨ ¬Room s d 12) : exec (.perm d a) s = .next (s.completeError .addrRange) := by
  rw [exec_perm_eq_canonicalRule]
  refine runCommand_noRoom rfl ?_
  rcases hroom with ha | hd
  · exact .inl ⟨Nat.succ_pos 11, ha⟩
  · exact .inr (.inr ⟨Nat.succ_pos 11, hd⟩)

variable {va : List Word} (hl : va.length = 12) (ha : Operand s a va) (hd : Room s d 12)
include hl ha hd

theorem exec_perm_canonical (hca : AllCanonical va) :
    exec (.perm d a) s = .next (finish s d (permute s.config (numbers va))) := by
  rw [exec_perm_eq_canonicalRule]
  exact runCommand_operands_ok rfl ha hl (operand_none s) rfl hd (canonicalRule_canonical _ hca)

theorem exec_perm_noncanonical (hca : ¬AllCanonical va) : exec (.perm d a) s = .next (s.completeError .noncanonical) := by
  rw [exec_perm_eq_canonicalRule]
  exact runCommand_operands_error rfl ha hl (operand_none s) rfl hd (canonicalRule_noncanonical _ hca)

end Perm

/-- Settles O38: PERM runs `permute` on the twelve source words once each is below P (R240). -/
theorem permStoresThePermutedState : Obligations.PermStoresThePermutedState :=
  ⟨encodedAs_of_decodeOpcode (by decide) fun _ _ _ => rfl, fun _ _ _ =>
    ⟨exec_perm_noRoom, fun _ hl ha hd => ⟨exec_perm_canonical hl ha hd, exec_perm_noncanonical hl ha hd⟩⟩⟩

end Sys2Proof.Machine
end

section
/-!
The sponge (spec/43_sponge.md R260 to R265). An element that is not there adds 0, so an incomplete chunk is absorbed as if zeros
filled it up: the state is a fold of one absorption step per permutation, and the missing padding of R265 can be read off that fold.
-/

namespace Sys2Proof.Machine

/-- A state of the sponge: 12 elements (R260), each below P. -/
def SpongeState (s : List Nat) : Prop := s.length = 12 ∧ ∀ x ∈ s, x < P

/-- The state after elements `start` to `start + n − 1` of `xs` are added into slots 0 to n − 1 (R261). -/
def addSlots (n : Nat) (xs s : List Nat) (start : Nat) : List Nat :=
  (List.range 12).map fun i => if i < n then (s.getD i 0 + xs.getD (start + i) 0) % P else s.getD i 0

/-- Chunk k absorbed, then the permutation (R262). -/
def absorbStep (c : Config) (xs s : List Nat) (k : Nat) : List Nat := permute c (addSlots 8 xs s (k * 8))

/-- How often the sponge permutes an input of L elements under each policy (R262). -/
def permutationCount (c : Config) (L : Nat) : Nat := if c.spongePolicy = .literal then L / 8 + 1 else (L + 7) / 8

theorem spongeState_init : SpongeState spongeInit := by
  unfold SpongeState
  decide

theorem SpongeState.getD_mod {s : List Nat} (hs : SpongeState s) (k : Nat) : s.getD k 0 % P = s.getD k 0 :=
  Nat.mod_eq_of_lt (getD_lt_of_forall_mem_lt hs.2 k)

/-! One chunk (R261). -/

/-- The slots past the chunk keep their elements, which is adding 0. -/
theorem absorbChunk_getD {s xs : List Nat} {k : Nat} (hs : ∀ x ∈ s, x < P) (hxs : ∀ x ∈ xs, x < P) (hk : k < s.length) :
    (absorbChunk s xs).getD k 0 = (s.getD k 0 + xs.getD k 0) % P := by
  induction s generalizing xs k with
  | nil => exact absurd hk (Nat.not_lt_zero k)
  | cons y s ih =>
    cases xs with
    | nil => exact (Nat.mod_eq_of_lt (getD_lt_of_forall_mem_lt hs k)).symm
    | cons x xs =>
      obtain ⟨hy, hs⟩ := List.forall_mem_cons.1 hs
      obtain ⟨hx, hxs⟩ := List.forall_mem_cons.1 hxs
      cases k with
      | zero => exact fpAdd_eq y x hy hx
      | succ k => exact ih hs hxs (Nat.lt_of_succ_lt_succ hk)

theorem getD_take_drop (xs : List Nat) (start n k : Nat) :
    ((xs.drop start).take n).getD k 0 = if k < n then xs.getD (start + k) 0 else 0 := by
  simp only [List.getD_eq_getElem?_getD, List.getElem?_take, List.getElem?_drop]
  split <;> rfl

section Slots

variable {xs s : List Nat} (hs : SpongeState s)
include hs

theorem absorbChunk_eq_addSlots (hxs : ∀ x ∈ xs, x < P) (n start : Nat) :
    absorbChunk s ((xs.drop start).take n) = addSlots n xs s start := by
  have hslice : ∀ x ∈ (xs.drop start).take n, x < P := fun x hx => hxs x (List.mem_of_mem_drop (List.mem_of_mem_take hx))
  refine eq_of_getD_eq (by simp [addSlots, hs.1]) fun k hk => ?_
  rw [absorbChunk_length] at hk
  rw [absorbChunk_getD hs.2 hslice hk, getD_take_drop, addSlots, getD_map_range _ (hs.1 ▸ hk)]
  split
  · rfl
  · rw [Nat.add_zero, hs.getD_mod]

theorem spongeState_absorbStep (c : Config) (k : Nat) : SpongeState (absorbStep c xs s k) := by
  have hlt : ∀ x ∈ addSlots 8 xs s (k * 8), x < P := by
    intro x hx
    obtain ⟨i, -, rfl⟩ := List.mem_map.1 hx
    split
    · exact Nat.mod_lt _ P_pos
    · exact getD_lt_of_forall_mem_lt hs.2 i
  exact ⟨permute_length c _ (by simp [addSlots]), permute_lt c hlt⟩

theorem addSlots_zero (start : Nat) : addSlots 0 xs s start = s :=
  eq_of_getD_eq (by simp [addSlots, hs.1]) fun k hk => by
    rw [addSlots, getD_map_range _ (by simpa [addSlots] using hk), if_neg (Nat.not_lt_zero k)]

/-- Past the end of the input nothing is added, so the number of slots does not matter there. -/
theorem addSlots_eq_of_length_le {m n start : Nat} (hmn : m ≤ n) (hlen : xs.length ≤ start + m) :
    addSlots m xs s start = addSlots n xs s start := by
  refine List.map_congr_left fun k _ => ?_
  by_cases hkm : k < m
  · rw [if_pos hkm, if_pos (by omega)]
  · rw [if_neg hkm, List.getD_eq_default xs _ (by omega), Nat.add_zero, hs.getD_mod, ite_self]

end Slots

/-! The full chunks (R262). -/

theorem spongeState_foldl (c : Config) (xs ks : List Nat) {s : List Nat} (hs : SpongeState s) :
    SpongeState (ks.foldl (absorbStep c xs) s) := by
  induction ks generalizing s with
  | nil => exact hs
  | cons k ks ih => exact ih (spongeState_absorbStep hs c k)

/-- From chunk k on, `absorbFull` is the fold of `absorbStep`. -/
theorem absorbFull_drop_eq_foldl (c : Config) {xs s : List Nat} (hxs : ∀ x ∈ xs, x < P) (hs : SpongeState s) (q k : Nat) :
    absorbFull c q s (xs.drop (k * 8)) = (List.range' k q).foldl (absorbStep c xs) s := by
  induction q generalizing s k with
  | zero => rfl
  | succ q ih =>
    rw [absorbFull, absorbChunk_eq_addSlots hs hxs, List.drop_drop, ← Nat.succ_mul, List.range'_succ, List.foldl_cons]
    exact ih (spongeState_absorbStep hs c k) (k + 1)

/-- The state after chunks 0 to q − 1, each absorbed and permuted; the last may reach past the end of the input. -/
def absorbedChunks (c : Config) (xs : List Nat) (q : Nat) : List Nat :=
  (List.range q).foldl (absorbStep c xs) spongeInit

theorem spongeState_absorbedChunks (c : Config) (xs : List Nat) (q : Nat) : SpongeState (absorbedChunks c xs q) :=
  spongeState_foldl c xs _ spongeState_init

theorem absorbedChunks_succ (c : Config) (xs : List Nat) (q : Nat) :
    absorbedChunks c xs (q + 1) = absorbStep c xs (absorbedChunks c xs q) q := by
  rw [absorbedChunks, List.range_succ, List.foldl_append]
  rfl

theorem absorbFull_eq_absorbedChunks (c : Config) {xs : List Nat} (hxs : ∀ x ∈ xs, x < P) (q : Nat) :
    absorbFull c q spongeInit xs = absorbedChunks c xs q := by
  rw [absorbedChunks, List.range_eq_range', ← absorbFull_drop_eq_foldl c hxs spongeState_init, Nat.zero_mul, List.drop_zero]

/-! The whole schedule (R264). -/

section Schedule

variable (c : Config) {xs : List Nat} (hxs : ∀ x ∈ xs, x < P) (nout : Nat)
include hxs

/-- The leftover is the slice of the input after its full chunks. -/
theorem sponge_eq_addSlots {q t : Nat} (hq : q = xs.length / 8) (ht : t = xs.length % 8) :
    sponge c xs nout = (if c.spongePolicy = .literal ∨ 0 < t
      then permute c (addSlots t xs (absorbedChunks c xs q) (q * 8))
      else addSlots t xs (absorbedChunks c xs q) (q * 8)).take nout := by
  have hlen : (xs.drop (q * 8)).length = t := by
    rw [List.length_drop]
    omega
  rw [← absorbChunk_eq_addSlots (spongeState_absorbedChunks c xs q) hxs, ← hlen, List.take_length,
    ← absorbFull_eq_absorbedChunks c hxs, hq]
  rfl

/-- The leftover, where it is permuted, counts as one more chunk. -/
theorem sponge_eq_absorbedChunks : sponge c xs nout = (absorbedChunks c xs (permutationCount c xs.length)).take nout := by
  have hs := spongeState_absorbedChunks c xs (xs.length / 8)
  rw [sponge_eq_addSlots c hxs nout rfl rfl]
  by_cases hperm : c.spongePolicy = .literal ∨ 0 < xs.length % 8
  · have hcount : permutationCount c xs.length = xs.length / 8 + 1 := by
      unfold permutationCount
      split
      · rfl
      · have hleft := hperm.resolve_left ‹_›
        omega
    rw [if_pos hperm, hcount, absorbedChunks_succ, absorbStep, addSlots_eq_of_length_le hs (n := 8) (by omega) (by omega)]
  · obtain ⟨hpolicy, hleft⟩ := not_or.1 hperm
    have hcount : permutationCount c xs.length = xs.length / 8 := by
      rw [permutationCount, if_neg hpolicy]
      omega
    rw [if_neg hperm, hcount, Nat.eq_zero_of_not_pos hleft, addSlots_zero hs]

end Schedule

/-- Settles O52: the fold of the statement is `absorbedChunks` and its last addition `addSlots` of the leftover. -/
theorem spongeFollowsTheSchedule : Obligations.SpongeFollowsTheSchedule := by
  rintro c xs full last q t nout hxs hq ht rfl rfl
  exact sponge_eq_addSlots c hxs nout hq ht

/-! The missing padding (R265). -/

theorem getD_append_zero (xs : List Nat) (k : Nat) : (xs ++ [0]).getD k 0 = xs.getD k 0 := by
  rcases Nat.lt_or_ge k xs.length with hk | hk
  · exact List.getD_append xs [0] 0 k hk
  · rw [List.getD_append_right xs [0] 0 k hk, List.getD_eq_default xs 0 hk]
    cases k - xs.length <;> rfl

theorem absorbedChunks_append_zero (c : Config) (xs : List Nat) (q : Nat) :
    absorbedChunks c (xs ++ [0]) q = absorbedChunks c xs q := by
  have hstep : absorbStep c (xs ++ [0]) = absorbStep c xs := by
    funext s k
    simp only [absorbStep, addSlots, getD_append_zero]
  rw [absorbedChunks, hstep, absorbedChunks]

/-- A trailing zero that costs no further permutation is invisible. -/
theorem sponge_append_zero (c : Config) {xs : List Nat} (hxs : ∀ x ∈ xs, x < P) (nout : Nat)
    (hcount : permutationCount c (xs.length + 1) = permutationCount c xs.length) :
    sponge c (xs ++ [0]) nout = sponge c xs nout := by
  have hxs0 : ∀ x ∈ xs ++ [0], x < P := List.forall_mem_append.2 ⟨hxs, List.forall_mem_singleton.2 P_pos⟩
  rw [sponge_eq_absorbedChunks c hxs0, sponge_eq_absorbedChunks c hxs, absorbedChunks_append_zero, List.length_append,
    List.length_singleton, hcount]

/-- Settles O53: at the lengths stated the zero fits into the chunk that is permuted last anyway. -/
theorem noPaddingMakesTrailingZeroInvisible : Obligations.NoPaddingMakesTrailingZeroInvisible := by
  refine fun c xs nout hxs => ⟨fun hpolicy hlen => sponge_append_zero c hxs nout ?literal,
    fun hpolicy hlen => sponge_append_zero c hxs nout ?ceil⟩
  case literal =>
    simp only [permutationCount, if_pos hpolicy]
    omega
  case ceil =>
    have hnot : c.spongePolicy ≠ .literal := by rw [hpolicy]; decide
    simp only [permutationCount, if_neg hnot]
    omega

end Sys2Proof.Machine
end

section
/-!
The hash commands (spec/43_sponge.md R270 to R272): one command up to the opcode and the number of squeezed words.
-/

namespace Sys2Proof.Machine

/-- The command `i` hashes the PLEN words at `a` and stores the first `n` squeezed words at `d`. -/
structure Hashes (i : Instr) (d a n : Nat) : Prop where
  exec_eq : ∀ s, exec i s = runCommand i s (canonicalRule fun va => sponge s.config (numbers va) n)
  shape_eq : ∀ L, shapeOf L i = ⟨⟨a, L⟩, ⟨0, 0⟩, ⟨d, n⟩⟩
  length_legal : ∀ w L, lengthLegal w L i = decide (L ≤ w)

theorem hashes_hashnp (d a : Nat) : Hashes (.hashnp d a) d a 4 := ⟨fun _ => rfl, fun _ => rfl, fun _ _ => rfl⟩

theorem hashes_hashn (d a : Nat) : Hashes (.hashn d a) d a 4 := ⟨fun _ => rfl, fun _ => rfl, fun _ _ => rfl⟩

theorem hashes_h2q (d a : Nat) : Hashes (.h2q d a) d a 5 := ⟨fun _ => rfl, fun _ => rfl, fun _ _ => rfl⟩

namespace Hashes

variable {i : Instr} {d a n : Nat} {s : State} (h : Hashes i d a n)
include h

theorem length_legal_of_le (hL : s.plen.toNat ≤ s.config.wmemWords) : lengthLegal s.config.wmemWords s.plen.toNat i = true :=
  (h.length_legal _ _).trans (decide_eq_true hL)

/-- The source is checked only when there is an input (R112). -/
theorem exec_noRoom (hn : 0 < n) (hL : s.plen.toNat ≤ s.config.wmemWords)
    (hroom : 0 < s.plen.toNat ∧ ¬Room s a s.plen.toNat ∨ ¬Room s d n) : exec i s = .next (s.completeError .addrRange) := by
  rw [h.exec_eq]
  refine runCommand_noRoom (h.length_legal_of_le hL) ?_
  rw [h.shape_eq]
  exact hroom.imp_right fun hd => .inr ⟨hn, hd⟩

variable {va : List Word} (hlen : va.length = s.plen.toNat) (ha : Operand s a va) (hL : s.plen.toNat ≤ s.config.wmemWords)
include hlen ha hL

theorem exec_canonical (hca : AllCanonical va) (hd : Room s d n) :
    exec i s = .next (finish s d (sponge s.config (numbers va) n)) := by
  have hsh := h.shape_eq s.plen.toNat
  rw [h.exec_eq, runCommand_operands_ok (h.length_legal_of_le hL) (by rwa [hsh]) (by rwa [hsh])
    (by rw [hsh]; exact operand_none s) (by rw [hsh]; rfl) (by rwa [hsh]) (canonicalRule_canonical _ hca), hsh]

theorem exec_noncanonical (hca : ¬AllCanonical va) (hd : Room s d n) : exec i s = .next (s.completeError .noncanonical) := by
  have hsh := h.shape_eq s.plen.toNat
  rw [h.exec_eq, runCommand_operands_error (h.length_legal_of_le hL) (by rwa [hsh]) (by rwa [hsh])
    (by rw [hsh]; exact operand_none s) (by rw [hsh]; rfl) (by rwa [hsh]) (canonicalRule_noncanonical _ hca)]

end Hashes

/-- Settles O39: the three commands are one execution frame (`Hashes`), with 4 or 5 squeezed words; the length check is O20's. -/
theorem hashCommandsStoreTheSqueezedWords : Obligations.HashCommandsStoreTheSqueezedWords := by
  refine ⟨encodedAs_of_decodeOpcode (by decide) fun _ _ _ => rfl, encodedAs_of_decodeOpcode (by decide) fun _ _ _ => rfl,
    encodedAs_of_decodeOpcode (by decide) fun _ _ _ => rfl, fun s d a => ?_⟩
  have hnp := hashes_hashnp d a
  have hn := hashes_hashn d a
  have h2q := hashes_h2q d a
  refine ⟨lengthAndRangeChecksComeFirst.1 s d a,
    fun hL hroom => ⟨hnp.exec_noRoom (by decide) hL hroom, hn.exec_noRoom (by decide) hL hroom⟩, h2q.exec_noRoom (by decide),
    fun va hlen ha hL => ⟨fun hca hd => ?digest, h2q.exec_canonical hlen ha hL, fun hca hd => ?digestError,
      h2q.exec_noncanonical hlen ha hL⟩⟩
  case digest => exact ⟨hnp.exec_canonical hlen ha hL hca hd, hn.exec_canonical hlen ha hL hca hd⟩
  case digestError => exact ⟨hnp.exec_noncanonical hlen ha hL hca hd, hn.exec_noncanonical hlen ha hL hca hd⟩

end Sys2Proof.Machine
end

section
/-!
The reference loop of scalar multiplication (spec/44_group.md R295, R296): on the identity, on the scalars 0 and 1, and on a point
whose multiples add as integers do (R294).
-/

namespace Sys2Proof

open Machine

theorem pointAdd_identity_left (c : Config) (q : Point) : pointAdd c .identity q = q := rfl

theorem pointAdd_identity_right (c : Config) (q : Point) : pointAdd c q .identity = q := by
  cases q <;> rfl

/-- Scanning bit n doubles, and then adds the point when the bit is 1. -/
theorem scalarLoop_succ (c : Config) (k : Nat) (q : Point) (n : Nat) (acc : Point) :
    scalarLoop c k q (n + 1) acc =
      scalarLoop c k q n (if k.testBit n then pointAdd c (pointDbl c acc) q else pointDbl c acc) := rfl

/-! What needs no associativity: the laws of R296 for every point. -/

theorem scalarLoop_identity (c : Config) (k n : Nat) : scalarLoop c k .identity n .identity = .identity := by
  induction n with
  | zero => rfl
  | succ n ih =>
    rw [scalarLoop_succ]
    split <;> exact ih

theorem scalarLoop_zero (c : Config) (q : Point) (n : Nat) : scalarLoop c 0 q n .identity = .identity := by
  induction n with
  | zero => rfl
  | succ n ih =>
    rw [scalarLoop_succ, Nat.zero_testBit]
    exact ih

/-- The bits of 1 above bit 0 leave the accumulator at O. -/
theorem scalarLoop_one (c : Config) (q : Point) (n : Nat) : scalarLoop c 1 q (n + 1) .identity = q := by
  induction n with
  | zero => rfl
  | succ n ih =>
    have hbit : Nat.testBit 1 (n + 1) = false := (Nat.testBit_succ 1 n).trans (Nat.zero_testBit n)
    rw [scalarLoop_succ, hbit]
    exact ih

theorem scalarMul_identity (c : Config) (k : Nat) : scalarMul c k .identity = .identity := scalarLoop_identity c _ _

theorem scalarMul_mod (c : Config) (k : Nat) (q : Point) : scalarMul c (k % c.groupN) q = scalarMul c k q := by
  rw [scalarMul, Nat.mod_mod, scalarMul]

theorem scalarMul_of_mod_eq_zero {c : Config} {k : Nat} (q : Point) (hk : k % c.groupN = 0) :
    scalarMul c k q = .identity := by
  rw [scalarMul, hk, scalarLoop_zero]

theorem scalarMul_one {c : Config} (q : Point) (hN : 2 ≤ c.groupN) : scalarMul c 1 q = q := by
  rw [scalarMul, Nat.mod_eq_of_lt hN]
  exact scalarLoop_one c q 319

/-! A point whose multiples add as integers do. -/

section Multiples

variable {c : Config} {q : Point} (hq : MultiplesAdd c q)
include hq

theorem pointDbl_pointTimes (m : Nat) : pointDbl c (pointTimes c m q) = pointTimes c (2 * m) q := by
  rw [two_mul]
  exact hq m m

/-- Before bit n−1 is scanned, the accumulator holds the multiple that the bits from n up stand for. -/
theorem scalarLoop_pointTimes (k n : Nat) :
    scalarLoop c k q n (pointTimes c (k / 2 ^ n) q) = pointTimes c k q := by
  induction n with
  | zero => rw [pow_zero, Nat.div_one]; rfl
  | succ n ih =>
    have hbit : k / 2 ^ n = 2 * (k / 2 ^ (n + 1)) + (k.testBit n).toNat := by
      rw [Nat.toNat_testBit, pow_succ, ← Nat.div_div_eq_div_mul]
      omega
    rw [scalarLoop_succ, pointDbl_pointTimes hq]
    rw [hbit] at ih
    cases h : k.testBit n with
    | false => simpa [h] using ih
    | true => simpa [h, pointTimes] using ih

variable (h0 : 0 < c.groupN) (hN : c.groupN < 2 ^ 320)

include h0 hN in
theorem scalarMul_eq_pointTimes_mod (k : Nat) : scalarMul c k q = pointTimes c (k % c.groupN) q := by
  have hhigh : k % c.groupN / 2 ^ 320 = 0 := Nat.div_eq_of_lt ((Nat.mod_lt k h0).trans hN)
  have hloop := scalarLoop_pointTimes hq (k % c.groupN) 320
  rwa [hhigh] at hloop

variable (hord : pointTimes c c.groupN q = .identity)

include hord in
theorem pointTimes_groupN_mul (m : Nat) : pointTimes c (c.groupN * m) q = .identity := by
  induction m with
  | zero => rfl
  | succ m ih =>
    calc pointTimes c (c.groupN * m + c.groupN) q
        = pointAdd c (pointTimes c (c.groupN * m) q) (pointTimes c c.groupN q) := (hq _ _).symm
      _ = .identity := by rw [ih, hord, pointAdd_identity_left]

include hord in
/-- For a point of order dividing GROUP_N the multiple depends on the residue only. -/
theorem pointTimes_mod_groupN (k : Nat) : pointTimes c (k % c.groupN) q = pointTimes c k q :=
  calc pointTimes c (k % c.groupN) q
      = pointAdd c (pointTimes c (c.groupN * (k / c.groupN)) q) (pointTimes c (k % c.groupN) q) := by
        rw [pointTimes_groupN_mul hq hord, pointAdd_identity_left]
    _ = pointTimes c k q := by rw [hq, Nat.div_add_mod]

include h0 hN hord in
theorem scalarMul_eq_pointTimes (k : Nat) : scalarMul c k q = pointTimes c k q :=
  (scalarMul_eq_pointTimes_mod hq h0 hN k).trans (pointTimes_mod_groupN hq hord k)

end Multiples

/-- Settles O58: the loop's invariant is `scalarLoop_pointTimes`, and k mod GROUP_N has no bit above the 320 scanned. -/
theorem scalarMulIsIteratedAddition : Obligations.ScalarMulIsIteratedAddition :=
  fun _ k _ hq h0 hN => scalarMul_eq_pointTimes_mod hq h0 hN k

/-- Settles O59: the laws of every point are those of the loop on the identity and on the scalars 0 and 1; where the order divides
GROUP_N, ScalarMul is the multiple itself, and multiples add. -/
theorem scalarMulLaws : Obligations.ScalarMulLaws := by
  refine ⟨fun c k q => ⟨scalarMul_identity c k, scalarMul_mod c k q, scalarMul_of_mod_eq_zero q, scalarMul_one q⟩,
    fun c q hq h0 hN hord a b => ?_⟩
  have hmul := scalarMul_eq_pointTimes hq h0 hN hord
  refine ⟨hmul a, ?_⟩
  rw [hmul, hmul, hmul]
  exact (hq a b).symm

end Sys2Proof
end

section
/-!
The group law (spec/44_group.md R290 to R293), through the Weierstrass curve over Fp[X]/(X^5 − 3): the values of the coordinates
satisfy its equation exactly when the point is on the curve, and the two slopes are the slope of the line through two of its points, so
that closure is `WeierstrassCurve.Affine.equation_add`.
-/

namespace Sys2Proof.Machine

/-! The values of the differences, the negatives and the inverses of the extension. -/

section Values

variable {a b : Ext} (ha : extCanonical a) (hb : extCanonical b)

include ha

theorem extVal_neg : extVal (extNeg a) = -extVal a := by
  refine eq_neg_of_add_eq_zero_right ?_
  rw [← extVal_add ha (extNeg_canonical ha), extAdd_extNeg ha, extVal_zero]

include hb in
theorem extVal_sub : extVal (extSub a b) = extVal a - extVal b := by
  rw [extSub_eq_extAdd_extNeg ha hb, extVal_add ha (extNeg_canonical hb), extVal_neg hb, sub_eq_add_neg]

theorem extVal_eq_zero_iff : extVal a = 0 ↔ a = extZero :=
  ⟨fun h => by_contra fun h0 => extVal_ne_zero ha h0 h, fun h => h ▸ extVal_zero⟩

theorem extVal_inv [Fact P.Prime] [Fact (Irreducible quintic)] (h0 : a ≠ extZero) : extVal (extInv a) = (extVal a)⁻¹ := by
  refine eq_inv_of_mul_eq_one_right ?_
  rw [← extVal_mul, extMul_extInv ha h0, extVal_one]

include hb

theorem extSub_eq_zero_iff : extSub a b = extZero ↔ a = b := by
  rw [← extVal_eq_zero_iff (extSub_canonical ha hb), extVal_sub ha hb, sub_eq_zero]
  exact ⟨extVal_injOn ha hb, congrArg extVal⟩

theorem extAdd_eq_zero_iff : extAdd a b = extZero ↔ extVal a = -extVal b := by
  rw [← extVal_eq_zero_iff (extAdd_canonical ha hb), extVal_add ha hb, add_eq_zero_iff_eq_neg]

omit hb

theorem extMul_two : extMul (extEmbed 2) a = extAdd a a := by
  refine extVal_injOn (extMul_canonical _ _) (extAdd_canonical ha ha) ?_
  rw [extVal_mul, extVal_embed, extVal_add ha ha, Nat.cast_ofNat, two_mul]

theorem extMul_extNeg_extNeg : extMul (extNeg a) (extNeg a) = extMul a a := by
  refine extVal_injOn (extMul_canonical _ _) (extMul_canonical _ _) ?_
  rw [extVal_mul, extVal_mul, extVal_neg ha, neg_mul_neg]

end Values

/-! The special cases (R292, R293). -/

theorem inGroup_pointNeg {c : Config} {q : Point} (hq : InGroup c q) : InGroup c (pointNeg q) := by
  cases q with
  | identity => trivial
  | affine x y =>
    obtain ⟨hx, hy, hcurve⟩ := hq
    refine ⟨hx, extNeg_canonical hy, ?_⟩
    rw [onCurve, extMul_extNeg_extNeg hy]
    exact hcurve

theorem pointAdd_pointNeg {c : Config} {q : Point} (hq : InGroup c q) : pointAdd c q (pointNeg q) = .identity := by
  cases q with
  | identity => rfl
  | affine x y =>
    obtain ⟨-, hy, -⟩ := hq
    simp [pointNeg, pointAdd, extAdd_extNeg hy]

theorem pointAdd_chord (c : Config) {x1 x2 : Ext} (y1 y2 : Ext) (hx : x1 ≠ x2) :
    pointAdd c (.affine x1 y1) (.affine x2 y2) = lineSum c (chordSlope x1 y1 x2 y2) x1 y1 x2 := if_neg hx

theorem pointAdd_opposite (c : Config) (x : Ext) {y1 y2 : Ext} (hy : extAdd y1 y2 = extZero) :
    pointAdd c (.affine x y1) (.affine x y2) = .identity := (if_pos rfl).trans (if_pos hy)

theorem pointAdd_tangent (c : Config) (x : Ext) {y1 y2 : Ext} (hy : extAdd y1 y2 ≠ extZero) :
    pointAdd c (.affine x y1) (.affine x y2) = lineSum c (tangentSlope c x y1) x y1 x := (if_pos rfl).trans (if_neg hy)

/-- Settles O56: the equations of `pointAdd`, one per special case and one per slope; a member and its negative have opposite y. -/
theorem pointAddSpecialCases : Obligations.PointAddSpecialCases := by
  refine fun c => ⟨⟨rfl, fun _ _ => rfl⟩, fun q => ⟨pointAdd_identity_left c q, pointAdd_identity_right c q⟩,
    fun q hq => ⟨pointAdd_pointNeg hq, inGroup_pointNeg hq⟩,
    fun x => pointAdd_opposite c x (extAdd_zero extZero_canonical), ?_⟩
  rintro x1 y1 x2 y2 l x3 (⟨hx, rfl⟩ | ⟨rfl, hy, rfl⟩) rfl
  · exact pointAdd_chord c y1 y2 hx
  · exact pointAdd_tangent c x1 hy

/-! The curve (R290) as a Weierstrass curve. -/

/-- y² = x³ + CURVE_A2·x² + CURVE_A4·x + CURVE_A6 over the extension (R290). -/
noncomputable def groupCurve (c : Config) : WeierstrassCurve.Affine QuinticRing where
  a₁ := 0
  a₂ := extVal c.curveA2
  a₃ := 0
  a₄ := extVal c.curveA4
  a₆ := extVal c.curveA6

section Curve

variable {c : Config} (h2 : extCanonical c.curveA2) (h4 : extCanonical c.curveA4) (h6 : extCanonical c.curveA6)

theorem groupCurve_negY (x y : QuinticRing) : (groupCurve c).negY x y = -y := by
  simp [groupCurve]

include h6 in
theorem extVal_curveRhs (x : Ext) : extVal (curveRhs c x) =
    extVal x ^ 3 + extVal c.curveA2 * extVal x ^ 2 + extVal c.curveA4 * extVal x + extVal c.curveA6 := by
  have hlow := extMul_canonical c.curveA4 x
  rw [curveRhs, extVal_add (extAdd_canonical (extMul_canonical _ _) (extMul_canonical _ _)) (extAdd_canonical hlow h6),
    extVal_add (extMul_canonical _ _) (extMul_canonical _ _), extVal_add hlow h6]
  simp only [extVal_mul]
  ring

include h6 in
theorem curveRhs_canonical (x : Ext) : extCanonical (curveRhs c x) :=
  extAdd_canonical (extAdd_canonical (extMul_canonical _ _) (extMul_canonical _ _))
    (extAdd_canonical (extMul_canonical _ _) h6)

include h6 in
/-- OnCurve is the curve's equation between the values. -/
theorem onCurve_iff_equation (x y : Ext) : onCurve c x y = true ↔ (groupCurve c).Equation (extVal x) (extVal y) := by
  have hval : extMul y y = curveRhs c x ↔ extVal (extMul y y) = extVal (curveRhs c x) :=
    ⟨congrArg extVal, extVal_injOn (extMul_canonical _ _) (curveRhs_canonical h6 x)⟩
  rw [onCurve, decide_eq_true_iff, hval, extVal_mul, extVal_curveRhs h6, WeierstrassCurve.Affine.equation_iff, ← pow_two]
  simp [groupCurve]

/-! The third point of a line, in values. -/

section Line

variable {x1 y1 x2 x3 l : Ext} (hx1 : extCanonical x1)
include hx1

include h2 in
theorem extVal_lineX (hx2 : extCanonical x2) : extVal (extSub (extSub (extSub (extMul l l) c.curveA2) x1) x2) =
    (groupCurve c).addX (extVal x1) (extVal x2) (extVal l) := by
  have hll := extSub_canonical (extMul_canonical l l) h2
  rw [extVal_sub (extSub_canonical hll hx1) hx2, extVal_sub hll hx1, extVal_sub (extMul_canonical l l) h2, extVal_mul]
  simp [groupCurve, pow_two]

theorem extVal_lineY (hy1 : extCanonical y1) (hx3 : extCanonical x3)
    (hval : extVal x3 = (groupCurve c).addX (extVal x1) (extVal x2) (extVal l)) :
    extVal (extSub (extMul l (extSub x1 x3)) y1) =
      (groupCurve c).addY (extVal x1) (extVal x2) (extVal y1) (extVal l) := by
  rw [WeierstrassCurve.Affine.addY, groupCurve_negY, WeierstrassCurve.Affine.negAddY, ← hval,
    extVal_sub (extMul_canonical _ _) hy1, extVal_mul, extVal_sub hx1 hx3]
  ring

end Line

section Slopes

variable [Fact P.Prime] [Fact (Irreducible quintic)] [DecidableEq QuinticRing]

theorem extVal_chordSlope {x1 y1 x2 y2 : Ext} (hx1 : extCanonical x1) (hy1 : extCanonical y1) (hx2 : extCanonical x2)
    (hy2 : extCanonical y2) (hx : x1 ≠ x2) :
    extVal (chordSlope x1 y1 x2 y2) = (groupCurve c).slope (extVal x1) (extVal x2) (extVal y1) (extVal y2) := by
  have hdiff : extSub x2 x1 ≠ extZero := fun h => hx ((extSub_eq_zero_iff hx2 hx1).1 h).symm
  rw [WeierstrassCurve.Affine.slope_of_X_ne fun h => hx (extVal_injOn hx1 hx2 h), chordSlope, extVal_mul,
    extVal_inv (extSub_canonical hx2 hx1) hdiff, extVal_sub hy2 hy1, extVal_sub hx2 hx1, ← div_eq_mul_inv,
    ← neg_sub (extVal y1), ← neg_sub (extVal x1)]
  exact neg_div_neg_eq (extVal y1 - extVal y2) (extVal x1 - extVal x2)

include h4 in
theorem extVal_tangentSlope (x : Ext) {y : Ext} (hy : extCanonical y) (h0 : extAdd y y ≠ extZero) :
    extVal (tangentSlope c x y) = (groupCurve c).slope (extVal x) (extVal x) (extVal y) (extVal y) := by
  have hne : extVal y ≠ (groupCurve c).negY (extVal x) (extVal y) := by
    rw [groupCurve_negY]
    exact fun h => h0 ((extAdd_eq_zero_iff hy hy).2 h)
  have h2y := extAdd_canonical hy hy
  rw [WeierstrassCurve.Affine.slope_of_Y_ne rfl hne, groupCurve_negY, tangentSlope, extMul_two hy, extVal_mul, extVal_inv h2y h0,
    extVal_add hy hy, extVal_add (extAdd_canonical (extMul_canonical _ _) (extMul_canonical _ _)) h4,
    extVal_add (extMul_canonical _ _) (extMul_canonical _ _), sub_neg_eq_add, ← div_eq_mul_inv]
  simp only [extVal_mul, extVal_embed, groupCurve]
  push_cast
  ring

include h2 h6 in
/-- The third point of a line with the curve's slope through two of its points is on the curve. -/
theorem inGroup_lineSum {x1 y1 x2 y2 l : Ext} (hq1 : InGroup c (.affine x1 y1)) (hq2 : InGroup c (.affine x2 y2))
    (hopp : ¬(x1 = x2 ∧ extAdd y1 y2 = extZero))
    (hl : extVal l = (groupCurve c).slope (extVal x1) (extVal x2) (extVal y1) (extVal y2)) :
    InGroup c (lineSum c l x1 y1 x2) := by
  obtain ⟨hx1, hy1, hc1⟩ := hq1
  obtain ⟨hx2, hy2, hc2⟩ := hq2
  have hx3 := extSub_canonical (extSub_canonical (extSub_canonical (extMul_canonical l l) h2) hx1) hx2
  have hvalx := extVal_lineX (l := l) h2 hx1 hx2
  refine ⟨hx3, extSub_canonical (extMul_canonical _ _) hy1, (onCurve_iff_equation h6 _ _).2 ?_⟩
  rw [extVal_lineY hx1 hy1 hx3 hvalx, hvalx, hl]
  refine WeierstrassCurve.Affine.equation_add ((onCurve_iff_equation h6 x1 y1).1 hc1) ((onCurve_iff_equation h6 x2 y2).1 hc2) ?_
  exact fun ⟨hx, hy⟩ => hopp ⟨extVal_injOn hx1 hx2 hx, (extAdd_eq_zero_iff hy1 hy2).2 (hy.trans (groupCurve_negY _ _))⟩

end Slopes

include h6 in
/-- In the branch of the tangent slope the two points are one (R293). -/
theorem eq_of_not_opposite {x y1 y2 : Ext} (hq1 : InGroup c (.affine x y1)) (hq2 : InGroup c (.affine x y2))
    (hopp : extAdd y1 y2 ≠ extZero) : y1 = y2 := by
  have := fact_P_prime
  have : Fact (Irreducible quintic) := ⟨quintic_irreducible⟩
  obtain ⟨-, hy1, hc1⟩ := hq1
  obtain ⟨-, hy2, hc2⟩ := hq2
  refine extVal_injOn hy1 hy2 (WeierstrassCurve.Affine.Y_eq_of_Y_ne ((onCurve_iff_equation h6 _ _).1 hc1)
    ((onCurve_iff_equation h6 _ _).1 hc2) rfl fun h => hopp ?_)
  exact (extAdd_eq_zero_iff hy1 hy2).2 (h.trans (groupCurve_negY _ _))

include h2 h4 h6 in
theorem inGroup_pointAdd {q1 q2 : Point} (hq1 : InGroup c q1) (hq2 : InGroup c q2) : InGroup c (pointAdd c q1 q2) := by
  have := fact_P_prime
  have : Fact (Irreducible quintic) := ⟨quintic_irreducible⟩
  classical
  match q1, q2, hq1, hq2 with
  | .identity, q2, _, hq2 => exact hq2
  | .affine x1 y1, .identity, hq1, _ => exact hq1
  | .affine x1 y1, .affine x2 y2, hq1, hq2 =>
    have ⟨hx1, hy1, _⟩ := hq1
    have ⟨hx2, hy2, _⟩ := hq2
    by_cases hx : x1 = x2
    · subst hx
      by_cases hopp : extAdd y1 y2 = extZero
      · rw [pointAdd_opposite c x1 hopp]
        trivial
      · rw [pointAdd_tangent c x1 hopp]
        obtain rfl := eq_of_not_opposite h6 hq1 hq2 hopp
        exact inGroup_lineSum h2 h6 hq1 hq2 (fun h => hopp h.2) (extVal_tangentSlope h4 x1 hy1 hopp)
    · rw [pointAdd_chord c y1 y2 hx]
      exact inGroup_lineSum h2 h6 hq1 hq2 (fun h => hx h.1) (extVal_chordSlope hx1 hy1 hx2 hy2 hx)

end Curve

/-- Settles O57: closure is that of the Weierstrass curve (`inGroup_pointAdd`); the chord's denominator is a difference of distinct
elements, and the tangent's is y1 + y1 = y1 + y2 (`eq_of_not_opposite`). -/
theorem pointAddStaysInTheGroup : Obligations.PointAddStaysInTheGroup := by
  refine fun c h2 h4 h6 => ⟨fun q1 q2 => inGroup_pointAdd h2 h4 h6, fun x1 y1 x2 y2 hq1 hq2 => ?_⟩
  have ⟨hx1, hy1, _⟩ := hq1
  have ⟨hx2, _, _⟩ := hq2
  refine ⟨fun hx h => ?_, ?_⟩
  · exact hx ((extSub_eq_zero_iff hx2 hx1).1 h).symm
  · rintro rfl hopp
    obtain rfl := eq_of_not_opposite h6 hq1 hq2 hopp
    rw [extMul_two hy1]
    exact ⟨rfl, hopp⟩

end Sys2Proof.Machine
end

section
/-!
The words of a point (spec/30_encoding.md R105, R110; spec/44_group.md R291): WellFormed by the flag word, and Enc and Decode as inverses
of each other between the members of the group set and the well-formed words.
-/

namespace Sys2Proof.Machine

/-! Words and numbers. -/

theorem feAt_words {xs : List Nat} (hxs : ∀ x ∈ xs, x < P) (k : Nat) : feAt (words xs) k = xs.getD k 0 := by
  have hget : (words xs).getD k 0 = BitVec.ofNat 64 (xs.getD k 0) := List.getD_map xs 0 (BitVec.ofNat 64)
  rw [feAt, hget]
  exact toNat_ofNat_lt (getD_lt_of_forall_mem_lt hxs k)

theorem words_map_feAt (v : List Word) : words ((List.range v.length).map (feAt v)) = v := by
  refine List.ext_getElem (by simp) fun k h hk => ?_
  simp [words, feAt_of_lt hk]

theorem forall_mem_take_ten {p : Nat → Prop} {v : List Word} (hv : v.length = 11) :
    (∀ w ∈ v.take 10, p w.toNat) ↔ ∀ k, k < 10 → p (feAt v k) := by
  rw [List.forall_mem_iff_forall_getElem]
  simp only [List.length_take, hv, List.getElem_take]
  exact forall₂_congr fun k hk => by rw [feAt_of_lt]

theorem extAt_canonical {v : List Word} {k : Nat} (h : ∀ j, j < 5 → feAt v (k + j) < P) : extCanonical (extAt v k) :=
  ⟨h 0 (by decide), h 1 (by decide), h 2 (by decide), h 3 (by decide), h 4 (by decide)⟩

/-! The two checks of a point operand (R110, R291). -/

section Checks

variable {c : Config} {v : List Word} (hv : v.length = 11)

include hv in
theorem pointCanonical_iff : pointCanonical v = true ↔ CanonicalCoords v := by
  rw [pointCanonical, canonical, List.all_eq_true]
  simp only [decide_eq_true_iff]
  exact forall_mem_take_ten (p := (· < P)) hv

include hv in
theorem pointWellFormed_flag_one (hf : feAt v 10 = 1) : pointWellFormed c v = true ↔ ∀ k, k < 10 → feAt v k = 0 := by
  rw [pointWellFormed, if_pos hf, List.all_eq_true]
  simp only [decide_eq_true_iff, ← BitVec.toNat_inj]
  exact forall_mem_take_ten (p := (· = 0)) hv

theorem pointWellFormed_flag_zero (hf : feAt v 10 = 0) : pointWellFormed c v = onCurve c (extAt v 0) (extAt v 5) := by
  simp [pointWellFormed, hf]

theorem pointWellFormed_flag_other (h0 : feAt v 10 ≠ 0) (h1 : feAt v 10 ≠ 1) : pointWellFormed c v = false := by
  simp [pointWellFormed, h0, h1]

end Checks

/-! Decode takes an encoding back to its point. -/

section Decode

variable {c : Config} {v : List Word} {q : Point}

theorem encPoint_lt (hq : InGroup c q) : ∀ x ∈ encPoint q, x < P := by
  cases q with
  | identity => decide
  | affine x y =>
    obtain ⟨hx, hy, -⟩ := hq
    simp [encPoint, extList, hx, hy]

/-- The words of an encoding are its numbers. -/
theorem feAt_of_encodes (h : EncodesPoint c v q) (k : Nat) : feAt v k = (encPoint q).getD k 0 := by
  obtain ⟨hq, rfl⟩ := h
  exact feAt_words (encPoint_lt hq) k

theorem canonicalCoords_of_encodes (h : EncodesPoint c v q) : CanonicalCoords v := fun k _ => by
  rw [feAt_of_encodes h]
  exact getD_lt_of_forall_mem_lt (encPoint_lt h.1) k

theorem extAt_of_encodes {x y : Ext} (h : EncodesPoint c v (.affine x y)) : extAt v 0 = x ∧ extAt v 5 = y := by
  simp only [extAt, feAt_of_encodes h]
  exact ⟨rfl, rfl⟩

theorem pointAt_of_encodes (h : EncodesPoint c v q) : pointAt v = q := by
  have hflag := feAt_of_encodes h 10
  cases q with
  | identity => exact if_pos hflag
  | affine x y =>
    obtain ⟨hx, hy⟩ := extAt_of_encodes h
    rw [pointAt, hflag, hx, hy]
    rfl

theorem length_of_encodes (h : EncodesPoint c v q) : v.length = 11 := by
  rw [h.2, words_length, encPoint_length]

theorem pointWellFormed_of_encodes (h : EncodesPoint c v q) : pointWellFormed c v = true := by
  have hflag := feAt_of_encodes h 10
  cases q with
  | identity =>
    refine (pointWellFormed_flag_one (length_of_encodes h) hflag).2 fun k hk => ?_
    rw [feAt_of_encodes h]
    interval_cases k <;> rfl
  | affine x y =>
    obtain ⟨hx, hy⟩ := extAt_of_encodes h
    obtain ⟨-, -, hcurve⟩ := h.1
    rw [pointWellFormed_flag_zero hflag, hx, hy]
    exact hcurve

/-- Well-formed words with canonical coordinates are the encoding of the point they decode to. -/
theorem encodes_pointAt (hv : v.length = 11) (hc : CanonicalCoords v) (hwf : pointWellFormed c v = true) :
    EncodesPoint c v (pointAt v) := by
  suffices h : InGroup c (pointAt v) ∧ (List.range 11).map (feAt v) = encPoint (pointAt v) by
    refine ⟨h.1, ?_⟩
    rw [← h.2, ← hv, words_map_feAt]
  by_cases h1 : feAt v 10 = 1
  · have hz := (pointWellFormed_flag_one hv h1).1 hwf
    rw [pointAt, if_pos h1]
    exact ⟨trivial, by simp [List.range_succ, encPoint, h1, hz]⟩
  · by_cases h0 : feAt v 10 = 0
    · rw [pointWellFormed_flag_zero h0] at hwf
      rw [pointAt, if_neg h1]
      have hx : extCanonical (extAt v 0) := extAt_canonical fun j hj => hc (0 + j) (by omega)
      have hy : extCanonical (extAt v 5) := extAt_canonical fun j hj => hc (5 + j) (by omega)
      exact ⟨⟨hx, hy, hwf⟩, by simp [List.range_succ, encPoint, extList, extAt, h0]⟩
    · rw [pointWellFormed_flag_other h0 h1] at hwf
      cases hwf

theorem pointWellFormed_iff_encodes (hv : v.length = 11) (hc : CanonicalCoords v) :
    pointWellFormed c v = true ↔ ∃ q, EncodesPoint c v q :=
  ⟨fun hwf => ⟨pointAt v, encodes_pointAt hv hc hwf⟩, fun ⟨_, h⟩ => pointWellFormed_of_encodes h⟩

end Decode

/-- Settles O55: WellFormed flag by flag, and `pointWellFormed_iff_encodes`; Decode determines the member encoded. -/
theorem wellFormedWordsAreEncodings : Obligations.WellFormedWordsAreEncodings := by
  refine ⟨rfl, fun _ _ => rfl, fun _ _ _ => and_congr_right' (and_congr_right' decide_eq_true_iff), fun c v hv hc =>
    ⟨pointWellFormed_flag_one hv, fun hf x y hx hy => ?_, pointWellFormed_flag_other, pointWellFormed_iff_encodes hv hc,
      fun q hq => ⟨pointAt_of_encodes hq, fun q' hq' => ?_⟩⟩⟩
  · subst hx hy
    rw [pointWellFormed_flag_zero hf]
    exact decide_eq_true_iff
  · rw [← pointAt_of_encodes hq', pointAt_of_encodes hq]

end Sys2Proof.Machine
end

section
/-!
The group commands (spec/44_group.md R310 to R314): each is the execution frame around a rule that knows the configuration's curve, and
that checks a point operand's coordinates before its form (spec/60_exceptions.md R382).
-/

namespace Sys2Proof.Machine

/-- The command `i` is the execution frame around `rule` of the configuration, its ranges are `sh` whatever LEN is, and it ignores LEN
(R102): `RunsRule` for a rule that the configuration's constants enter. -/
structure RunsConfigRule (i : Instr) (sh : Shape) (rule : Config → List Word → List Word → Except ErrCode (List Word)) : Prop where
  exec_eq : ∀ s, exec i s = runCommand i s (rule s.config)
  shape_eq : ∀ L, shapeOf L i = sh
  length_legal : ∀ n L, lengthLegal n L i = true

namespace RunsConfigRule

variable {i : Instr} {rule : Config → List Word → List Word → Except ErrCode (List Word)} {s : State} {a b d na nb nd : Nat}
  {va vb : List Word}

section Operands

variable (h : RunsConfigRule i ⟨⟨a, na⟩, ⟨b, nb⟩, ⟨d, nd⟩⟩ rule) (ha : Operand s a va) (hal : va.length = na)
  (hb : Operand s b vb) (hbl : vb.length = nb) (hd : Room s d nd)
include h ha hal hb hbl hd

/-- With its operands in WMEM and room for its result, the command stores what its rule gives. -/
theorem stores {r : List Nat} (hr : rule s.config va vb = .ok (words r)) : exec i s = .next (finish s d r) := by
  have hsh := h.shape_eq s.plen.toNat
  rw [h.exec_eq, runCommand_operands_ok (h.length_legal _ _) (by rwa [hsh]) (by rwa [hsh]) (by rwa [hsh]) (by rwa [hsh])
    (by rwa [hsh]) hr, hsh]

/-- The same where its rule gives an error. -/
theorem fails {e : ErrCode} (hr : rule s.config va vb = .error e) : exec i s = .next (s.completeError e) := by
  have hsh := h.shape_eq s.plen.toNat
  rw [h.exec_eq, runCommand_operands_error (h.length_legal _ _) (by rwa [hsh]) (by rwa [hsh]) (by rwa [hsh]) (by rwa [hsh])
    (by rwa [hsh]) hr]

end Operands

/-- A used range without room in WMEM completes with ADDR_RANGE (R112). -/
theorem noRoom {sh : Shape} (h : RunsConfigRule i sh rule)
    (hroom : (0 < sh.a.len ∧ ¬Room s sh.a.base sh.a.len) ∨ (0 < sh.b.len ∧ ¬Room s sh.b.base sh.b.len) ∨
      (0 < sh.d.len ∧ ¬Room s sh.d.base sh.d.len)) : exec i s = .next (s.completeError .addrRange) := by
  rw [h.exec_eq]
  exact runCommand_noRoom (h.length_legal _ _) (by rwa [h.shape_eq])

/-- One source and a destination, each of at least one word. -/
theorem noRoom_one (h : RunsConfigRule i ⟨⟨a, na + 1⟩, ⟨0, 0⟩, ⟨d, nd + 1⟩⟩ rule)
    (hroom : ¬Room s a (na + 1) ∨ ¬Room s d (nd + 1)) : exec i s = .next (s.completeError .addrRange) :=
  h.noRoom (hroom.imp (⟨na.succ_pos, ·⟩) fun hd => .inr ⟨nd.succ_pos, hd⟩)

/-- Two sources and a destination, each of at least one word. -/
theorem noRoom_two (h : RunsConfigRule i ⟨⟨a, na + 1⟩, ⟨b, nb + 1⟩, ⟨d, nd + 1⟩⟩ rule)
    (hroom : ¬Room s a (na + 1) ∨ ¬Room s b (nb + 1) ∨ ¬Room s d (nd + 1)) :
    exec i s = .next (s.completeError .addrRange) :=
  h.noRoom (hroom.imp (⟨na.succ_pos, ·⟩) (Or.imp (⟨nb.succ_pos, ·⟩) (⟨nd.succ_pos, ·⟩)))

end RunsConfigRule

/-! The checks of a point operand, by what its words encode. -/

section Operand

variable {c : Config} {v : List Word} {q : Point}

theorem pointCanonical_of_encodes (h : EncodesPoint c v q) : pointCanonical v = true :=
  (pointCanonical_iff (length_of_encodes h)).2 (canonicalCoords_of_encodes h)

variable (hv : v.length = 11)
include hv

theorem pointCanonical_of_not (hc : ¬CanonicalCoords v) : pointCanonical v = false := by
  rwa [Bool.eq_false_iff, Ne, pointCanonical_iff hv]

theorem pointWellFormed_of_not_encodes (hc : CanonicalCoords v) (h : ∀ q, ¬EncodesPoint c v q) : pointWellFormed c v = false := by
  rw [Bool.eq_false_iff, Ne, pointWellFormed_iff_encodes hv hc]
  exact not_exists.2 h

end Operand

/-! The rules. -/

/-- The rule of PADD. -/
def pointSumRule (c : Config) (va vb : List Word) : Except ErrCode (List Word) :=
  if !(pointCanonical va && pointCanonical vb) then .error .noncanonical
  else if !(pointWellFormed c va && pointWellFormed c vb) then .error .malformedPoint
  else .ok (words (encPoint (pointAdd c (pointAt va) (pointAt vb))))

/-- The rule of PDBL and PMUL: a point operand, of which a function that may use the second operand's words is stored. -/
def pointRule (g : Config → Point → List Word → Point) (c : Config) (va vb : List Word) : Except ErrCode (List Word) :=
  if !pointCanonical va then .error .noncanonical
  else if !pointWellFormed c va then .error .malformedPoint
  else .ok (words (encPoint (g c (pointAt va) vb)))

/-- The rule of PVALID. -/
def pointValidRule (c : Config) (va _vb : List Word) : Except ErrCode (List Word) :=
  .ok (words [if pointCanonical va && pointWellFormed c va then 1 else 0])

/-- The rule of PKGEN. -/
def publicKeyRule (c : Config) (va _vb : List Word) : Except ErrCode (List Word) :=
  if scalarAt va % c.groupN = 0 then .error .degenerateScalar
  else .ok (words (encPoint (scalarMul c (scalarAt va) c.gen)))

section Rules

variable {c : Config} {va vb : List Word}

theorem pointSumRule_encodes {q1 q2 : Point} (h1 : EncodesPoint c va q1) (h2 : EncodesPoint c vb q2) :
    pointSumRule c va vb = .ok (words (encPoint (pointAdd c q1 q2))) := by
  simp [pointSumRule, pointCanonical_of_encodes h1, pointCanonical_of_encodes h2, pointWellFormed_of_encodes h1,
    pointWellFormed_of_encodes h2, pointAt_of_encodes h1, pointAt_of_encodes h2]

theorem pointValidRule_encodes {q : Point} (h : EncodesPoint c va q) : pointValidRule c va vb = .ok (words [1]) := by
  simp [pointValidRule, pointCanonical_of_encodes h, pointWellFormed_of_encodes h]

theorem pointRule_encodes (g : Config → Point → List Word → Point) {q : Point} (h : EncodesPoint c va q) :
    pointRule g c va vb = .ok (words (encPoint (g c q vb))) := by
  simp [pointRule, pointCanonical_of_encodes h, pointWellFormed_of_encodes h, pointAt_of_encodes h]

variable (hla : va.length = 11)
include hla

theorem pointRule_noncanonical (g : Config → Point → List Word → Point) (hc : ¬CanonicalCoords va) :
    pointRule g c va vb = .error .noncanonical := by
  simp [pointRule, pointCanonical_of_not hla hc]

theorem pointRule_malformed (g : Config → Point → List Word → Point) (hc : CanonicalCoords va) (h : ∀ q, ¬EncodesPoint c va q) :
    pointRule g c va vb = .error .malformedPoint := by
  simp [pointRule, (pointCanonical_iff hla).2 hc, pointWellFormed_of_not_encodes hla hc h]

/-- Words that encode no point fail one of the two checks. -/
theorem pointValidRule_not_encodes (h : ∀ q, ¬EncodesPoint c va q) : pointValidRule c va vb = .ok (words [0]) := by
  by_cases hc : CanonicalCoords va
  · simp [pointValidRule, pointWellFormed_of_not_encodes hla hc h]
  · simp [pointValidRule, pointCanonical_of_not hla hc]

variable (hlb : vb.length = 11)
include hlb

theorem pointSumRule_noncanonical (hc : ¬CanonicalCoords va ∨ ¬CanonicalCoords vb) :
    pointSumRule c va vb = .error .noncanonical := by
  rcases hc with hc | hc
  · simp [pointSumRule, pointCanonical_of_not hla hc]
  · simp [pointSumRule, pointCanonical_of_not hlb hc]

theorem pointSumRule_malformed (hca : CanonicalCoords va) (hcb : CanonicalCoords vb)
    (h : (∀ q, ¬EncodesPoint c va q) ∨ ∀ q, ¬EncodesPoint c vb q) : pointSumRule c va vb = .error .malformedPoint := by
  have hpa := (pointCanonical_iff hla).2 hca
  have hpb := (pointCanonical_iff hlb).2 hcb
  rcases h with h | h
  · simp [pointSumRule, hpa, hpb, pointWellFormed_of_not_encodes hla hca h]
  · simp [pointSumRule, hpa, hpb, pointWellFormed_of_not_encodes hlb hcb h]

end Rules

section PublicKey

variable {c : Config} {va vb : List Word} (hla : va.length = 5)
include hla

theorem publicKeyRule_usable (h : scalarValue va % c.groupN ≠ 0) :
    publicKeyRule c va vb = .ok (words (encPoint (scalarMul c (scalarValue va) c.gen))) := by
  rw [publicKeyRule, scalarAt_eq hla, if_neg h]

theorem publicKeyRule_degenerate (h : scalarValue va % c.groupN = 0) : publicKeyRule c va vb = .error .degenerateScalar := by
  rw [publicKeyRule, scalarAt_eq hla, if_pos h]

end PublicKey

/-! What each command runs (R109). -/

theorem runsConfigRule_padd (d a b : Nat) : RunsConfigRule (.padd d a b) ⟨⟨a, 11⟩, ⟨b, 11⟩, ⟨d, 11⟩⟩ pointSumRule :=
  ⟨fun _ => rfl, fun _ => rfl, fun _ _ => rfl⟩

theorem runsConfigRule_pdbl (d a : Nat) : RunsConfigRule (.pdbl d a) ⟨⟨a, 11⟩, ⟨0, 0⟩, ⟨d, 11⟩⟩
    (pointRule fun c q _ => pointAdd c q q) :=
  ⟨fun _ => rfl, fun _ => rfl, fun _ _ => rfl⟩

theorem runsConfigRule_pvalid (d a : Nat) : RunsConfigRule (.pvalid d a) ⟨⟨a, 11⟩, ⟨0, 0⟩, ⟨d, 1⟩⟩ pointValidRule :=
  ⟨fun _ => rfl, fun _ => rfl, fun _ _ => rfl⟩

theorem runsConfigRule_pmul (d a b : Nat) : RunsConfigRule (.pmul d a b) ⟨⟨a, 11⟩, ⟨b, 5⟩, ⟨d, 11⟩⟩
    (pointRule fun c q vb => scalarMul c (scalarAt vb) q) :=
  ⟨fun _ => rfl, fun _ => rfl, fun _ _ => rfl⟩

theorem runsConfigRule_pkgen (d a : Nat) : RunsConfigRule (.pkgen d a) ⟨⟨a, 5⟩, ⟨0, 0⟩, ⟨d, 11⟩⟩ publicKeyRule :=
  ⟨fun _ => rfl, fun _ => rfl, fun _ _ => rfl⟩

/-! The commands. -/

/-- Settles O40: PADD runs `pointSumRule`, whose checks are decided by what the two operands encode (R310). -/
theorem paddAddsPoints : Obligations.PaddAddsPoints := by
  refine ⟨encodedAs_of_decodeOpcode (by decide) fun _ _ _ => rfl, fun s d a b => ?_⟩
  have h := runsConfigRule_padd d a b
  refine ⟨h.noRoom_two, fun va vb hla hlb ha hb hd => ⟨fun q1 q2 h1 h2 => ?sum, fun hc => ?noncanonical,
    fun hca hcb hne => ?malformed⟩⟩
  case sum => exact h.stores ha hla hb hlb hd (pointSumRule_encodes h1 h2)
  case noncanonical => exact h.fails ha hla hb hlb hd (pointSumRule_noncanonical hla hlb hc)
  case malformed => exact h.fails ha hla hb hlb hd (pointSumRule_malformed hla hlb hca hcb hne)

/-- Settles O41: PDBL runs `pointRule` with PointAdd(Q, Q) (R311). -/
theorem pdblDoublesAPoint : Obligations.PdblDoublesAPoint := by
  refine ⟨encodedAs_of_decodeOpcode (by decide) fun _ _ _ => rfl, fun s d a => ?_⟩
  have h := runsConfigRule_pdbl d a
  refine ⟨h.noRoom_one, fun va hla ha hd => ⟨fun q hq => ?double, fun hc => ?noncanonical, fun hc hne => ?malformed⟩⟩
  case double => exact h.stores ha hla (operand_none s) rfl hd (pointRule_encodes _ hq)
  case noncanonical => exact h.fails ha hla (operand_none s) rfl hd (pointRule_noncanonical hla _ hc)
  case malformed => exact h.fails ha hla (operand_none s) rfl hd (pointRule_malformed hla _ hc hne)

/-- Settles O42: PVALID runs `pointValidRule`, which answers 1 exactly where the words pass both checks (R312). -/
theorem pvalidJudgesAnyEncoding : Obligations.PvalidJudgesAnyEncoding := by
  refine ⟨encodedAs_of_decodeOpcode (by decide) fun _ _ _ => rfl, fun s d a => ?_⟩
  have h := runsConfigRule_pvalid d a
  refine ⟨h.noRoom_one, fun va hla ha hd => ⟨fun ⟨q, hq⟩ => ?valid, fun hne => ?invalid⟩⟩
  case valid => exact h.stores ha hla (operand_none s) rfl hd (pointValidRule_encodes hq)
  case invalid => exact h.stores ha hla (operand_none s) rfl hd (pointValidRule_not_encodes hla hne)

/-- Settles O43: PMUL runs `pointRule` with ScalarMul by the value of the five scalar words, whatever they are (R313). -/
theorem pmulMultipliesAPoint : Obligations.PmulMultipliesAPoint := by
  refine ⟨encodedAs_of_decodeOpcode (by decide) fun _ _ _ => rfl, fun s d a b => ?_⟩
  have h := runsConfigRule_pmul d a b
  refine ⟨h.noRoom_two, fun va vb hla hlb ha hb hd => ⟨fun q hq => ?multiple, fun hc => ?noncanonical,
    fun hc hne => ?malformed⟩⟩
  case multiple =>
    rw [← scalarAt_eq hlb]
    exact h.stores ha hla hb hlb hd (pointRule_encodes _ hq)
  case noncanonical => exact h.fails ha hla hb hlb hd (pointRule_noncanonical hla _ hc)
  case malformed => exact h.fails ha hla hb hlb hd (pointRule_malformed hla _ hc hne)

/-- Settles O44: PKGEN runs `publicKeyRule`, whose two cases are those of sk modulo GROUP_N (R298, R314). -/
theorem pkgenDerivesThePublicKey : Obligations.PkgenDerivesThePublicKey := by
  refine ⟨encodedAs_of_decodeOpcode (by decide) fun _ _ _ => rfl, fun s d a => ?_⟩
  have h := runsConfigRule_pkgen d a
  refine ⟨h.noRoom_one, fun va hla ha hd => ⟨fun hsk => ?usable, fun hsk => ?degenerate⟩⟩
  case usable => exact h.stores ha hla (operand_none s) rfl hd (publicKeyRule_usable hla hsk)
  case degenerate => exact h.fails ha hla (operand_none s) rfl hd (publicKeyRule_degenerate hla hsk)

end Sys2Proof.Machine
end

section
/-!
The limb lists (spec/30_encoding.md R106, R111; spec/45_schnorr.md R341): a list of words is the number that its words are the digits
of, and the limbs of a number are its digits, 32 or 64 bits each.
-/

namespace Sys2Proof.Machine

/-- The number whose digits to the base 2^64 are the words, least significant first. -/
theorem scalarOf_eq_sum (v : List Nat) :
    scalarOf v = ((List.range v.length).map fun i => 2 ^ (64 * i) * v.getD i 0).sum := by
  induction v with
  | nil => rfl
  | cons w v ih =>
    have hdigit : ∀ i, 2 ^ (64 * (i + 1)) * (w :: v).getD (i + 1) 0 = 2 ^ 64 * (2 ^ (64 * i) * v.getD i 0) := fun i => by
      rw [List.getD_cons_succ]
      ring
    rw [scalarOf, ih, List.length_cons, List.range_succ_eq_map, List.map_cons, List.sum_cons, List.map_map]
    simp only [Function.comp_def, hdigit, List.sum_map_mul_left]
    simp

/-- The `n` lowest limbs of `x`, of `b` bits each: `limbs32` and `scalarWords` at once. -/
def limbs (b n x : Nat) : List Nat := (List.range n).map fun i => (x >>> (b * i)) % 2 ^ b

theorem limbs32_eq_limbs (x : Nat) : limbs32 x = limbs 32 10 x := rfl

theorem scalarWords_eq_limbs (x : Nat) : scalarWords x = limbs 64 5 x := rfl

theorem limbs_length (b n x : Nat) : (limbs b n x).length = n := by simp [limbs]

theorem limbs_lt {b n x y : Nat} (h : y ∈ limbs b n x) : y < 2 ^ b := by
  obtain ⟨i, -, rfl⟩ := List.mem_map.1 h
  exact Nat.mod_lt _ (Nat.two_pow_pos b)

/-- Each digit to the base 2^b extends the residue by b bits. -/
theorem sum_digits (b n x : Nat) :
    ((List.range n).map fun i => 2 ^ (b * i) * (x / 2 ^ (b * i) % 2 ^ b)).sum = x % 2 ^ (b * n) := by
  induction n with
  | zero => simp [Nat.mod_one]
  | succ n ih =>
    rw [List.range_succ, List.map_append, List.sum_append, ih, List.map_singleton, List.sum_singleton, Nat.mul_succ, Nat.pow_add,
      Nat.mod_mul]

theorem sum_limbs (b n x : Nat) : ((List.range n).map fun i => 2 ^ (b * i) * (limbs b n x).getD i 0).sum = x % 2 ^ (b * n) := by
  rw [← sum_digits]
  refine congrArg List.sum (List.map_congr_left fun i hi => ?_)
  rw [limbs, getD_map_range _ (List.mem_range.1 hi), Nat.shiftRight_eq_div_pow]

/-- A number of no more bits than the limbs have is its limbs' value. -/
theorem sum_limbs_of_lt {b n w x : Nat} (hw : b * n = w) (hx : x < 2 ^ w) :
    ((List.range n).map fun i => 2 ^ (b * i) * (limbs b n x).getD i 0).sum = x := by
  rw [sum_limbs, hw, Nat.mod_eq_of_lt hx]

theorem scalarOf_scalarWords {x : Nat} (hx : x < 2 ^ 320) : scalarOf (scalarWords x) = x := by
  rw [scalarOf_eq_sum, scalarWords_length]
  exact sum_limbs_of_lt (w := 320) rfl hx

theorem scalarWords_lt {x y : Nat} (h : y ∈ scalarWords x) : y < 2 ^ 64 := by
  rw [scalarWords_eq_limbs] at h
  exact limbs_lt h

/-! The limbs as words (R111). -/

theorem numbers_words {xs : List Nat} (h : ∀ x ∈ xs, x < 2 ^ 64) : numbers (words xs) = xs := by
  rw [numbers, words, List.map_map]
  exact (List.map_congr_left fun x hx => (BitVec.toNat_ofNat x 64).trans (Nat.mod_eq_of_lt (h x hx))).trans (List.map_id xs)

theorem scalarValue_words_scalarWords {x : Nat} (hx : x < 2 ^ 320) : scalarValue (words (scalarWords x)) = x := by
  rw [← scalarAt_eq (by simp), scalarAt, numbers_words fun _ => scalarWords_lt, scalarOf_scalarWords hx]

/-- Settles O54: a limb list is the list of its number's digits (`sum_limbs`), and 320 bits are ten limbs of 32 or five of 64. -/
theorem limbsRecomposeTheNumber : Obligations.LimbsRecomposeTheNumber := by
  refine ⟨scalarOf_eq_sum, fun x hx => ⟨limbs_length 32 10 x, fun y hy => ?_, sum_limbs_of_lt (w := 320) rfl hx, scalarWords_length x,
    fun _ => scalarWords_lt, scalarOf_scalarWords hx⟩⟩
  rw [limbs32_eq_limbs] at hy
  exact limbs_lt hy

end Sys2Proof.Machine
end

section
/-!
Signing and verifying as functions (spec/45_schnorr.md R343 to R346): which nonce try Sign uses and what it answers then, and which
words Verify rejects before it compares the two sides of its equation.
-/

namespace Sys2Proof.Machine

/-! The nonce (R343). -/

/-- Try `j` gives no nonce: k = 0 or R = O. -/
def UnusableTry (c : Config) (sk : Nat) (m : List Nat) (j : Nat) : Prop :=
  nonceAt c sk m j = 0 ∨ scalarMul c (nonceAt c sk m j) c.gen = .identity

section Nonce

variable {c : Config} {sk : Nat} {m : List Nat}

theorem nonce_of_first_usable {j : Nat} (hj : j < 2 ^ 32) (hfirst : ∀ l, l < j → UnusableTry c sk m l)
    (hk : nonceAt c sk m j ≠ 0) (hr : scalarMul c (nonceAt c sk m j) c.gen ≠ .identity) :
    nonce c sk m = some (nonceAt c sk m j, scalarMul c (nonceAt c sk m j) c.gen) :=
  nonceFrom_some c sk m NONCE_MAX_TRIES 0 j (Nat.zero_le j) (by simpa using hj) (fun l _ => hfirst l) hk hr

theorem nonce_of_none_usable (h : ∀ j, j < 2 ^ 32 → UnusableTry c sk m j) : nonce c sk m = none :=
  nonceFrom_none c sk m NONCE_MAX_TRIES 0 fun l _ hl => h l (by simpa using hl)

/-- Whatever try it is found by, R is k·GEN and not O. -/
theorem nonceFrom_eq_some {k : Nat} {r : Point} {tries j : Nat} (h : nonceFrom c sk m tries j = some (k, r)) :
    r = scalarMul c k c.gen ∧ r ≠ .identity := by
  induction tries generalizing j with
  | zero => cases h
  | succ tries ih =>
    rw [nonceFrom] at h
    dsimp only at h
    split at h
    · exact ih h
    · split at h
      · exact ih h
      · next hr =>
        cases h
        exact ⟨rfl, hr⟩

theorem nonce_eq_some {k : Nat} {r : Point} (h : nonce c sk m = some (k, r)) : r = scalarMul c k c.gen ∧ r ≠ .identity :=
  nonceFrom_eq_some h

end Nonce

/-! The hash inputs over a message of words (R343, R344): its length is the number of its words. -/

theorem nonceAt_numbers (c : Config) (sk : Nat) (m : List Word) (j : Nat) : nonceAt c sk (numbers m) j =
    scalarOf (sponge c ([1] ++ limbs32 sk ++ [m.length] ++ numbers m ++ [j]) 5) % c.groupN := by
  rw [nonceAt, nonceInput, numbers_length, hashToQuintic]

theorem challenge_numbers (c : Config) (r pk : Point) (m : List Word) : challenge c r pk (numbers m) =
    scalarOf (sponge c ([2] ++ encPoint r ++ encPoint pk ++ [m.length] ++ numbers m) 4) % c.groupN := by
  rw [challenge, numbers_length, hashNoPad]

/-! Sign (R345). -/

/-- Enc(R) and the words of s = (k + e·sk) mod GROUP_N, for a key already reduced (R345). -/
def signatureOf (c : Config) (m : List Nat) (sk k : Nat) (r : Point) : List Nat :=
  encPoint r ++ scalarWords ((k + challenge c r (scalarMul c sk c.gen) m * sk) % c.groupN)

theorem words_signatureOf (c : Config) (m : List Nat) (sk k : Nat) (r : Point) : words (signatureOf c m sk k r) =
    words (encPoint r) ++ words (scalarWords ((k + challenge c r (scalarMul c sk c.gen) m * sk) % c.groupN)) :=
  List.map_append

section Sign

variable {c : Config} {m : List Nat} {sk : Nat}

theorem signMessage_of_key_zero (h : sk % c.groupN = 0) : signMessage c m sk = .error .degenerateScalar := by
  rw [signMessage, if_pos h]

theorem signMessage_of_nonce_none (hn : nonce c (sk % c.groupN) m = none) :
    signMessage c m sk = .error .degenerateScalar := by
  rw [signMessage, hn, ite_self]

theorem signMessage_of_nonce_some {k : Nat} {r : Point} (h : sk % c.groupN ≠ 0)
    (hn : nonce c (sk % c.groupN) m = some (k, r)) :
    signMessage c m sk = .ok (signatureOf c m (sk % c.groupN) k r) := by
  rw [signMessage, if_neg h, hn, signatureOf]

theorem signMessage_eq_ok {sig : List Nat} (h : signMessage c m sk = .ok sig) :
    ∃ k r, r = scalarMul c k c.gen ∧ r ≠ .identity ∧ sig = signatureOf c m (sk % c.groupN) k r := by
  by_cases h0 : sk % c.groupN = 0
  · cases (signMessage_of_key_zero h0).symm.trans h
  · cases hn : nonce c (sk % c.groupN) m with
    | none => cases (signMessage_of_nonce_none hn).symm.trans h
    | some kr =>
      obtain ⟨k, r⟩ := kr
      obtain ⟨hr, hr0⟩ := nonce_eq_some hn
      cases (signMessage_of_nonce_some h0 hn).symm.trans h
      exact ⟨k, r, hr, hr0, rfl⟩

end Sign

/-! Verify (R346). -/

section Verify

variable {c : Config} {m pkv sig : List Word}

theorem verifyMessage_of_encodes {pk : Point} (h : EncodesPoint c pkv pk) :
    verifyMessage c m pkv sig = .ok (verdict c m pk sig) := by
  simp [verifyMessage, pointCanonical_of_encodes h, pointWellFormed_of_encodes h, pointAt_of_encodes h]

variable (hpk : pkv.length = 11)
include hpk

theorem verifyMessage_noncanonical (hc : ¬CanonicalCoords pkv) : verifyMessage c m pkv sig = .error .noncanonical := by
  simp [verifyMessage, pointCanonical_of_not hpk hc]

theorem verifyMessage_malformed (hc : CanonicalCoords pkv) (h : ∀ q, ¬EncodesPoint c pkv q) :
    verifyMessage c m pkv sig = .error .malformedPoint := by
  simp [verifyMessage, (pointCanonical_iff hpk).2 hc, pointWellFormed_of_not_encodes hpk hc h]

end Verify

/-- What Verify rejects without comparing the two sides of its equation (R346). -/
def RejectedUnchecked (c : Config) (m : List Word) (pk : Point) (rv sv : List Word) : Prop :=
  pk = .identity ∨ ¬AllCanonical m ∨ (∀ q, ¬EncodesPoint c rv q) ∨ EncodesPoint c rv .identity ∨ c.groupN ≤ scalarValue sv

section Verdict

variable {c : Config} {m rv sv : List Word} {pk : Point} (hrv : rv.length = 11) (hsv : sv.length = 5)
include hrv hsv

theorem verdict_rejected (h : RejectedUnchecked c m pk rv sv) : verdict c m pk (rv ++ sv) = 0 := by
  rw [verdict, List.take_left' hrv, List.drop_left' hrv, scalarAt_eq hsv]
  rcases h with h | h | h | h | h
  · rw [if_pos h]
  · simp [canonical_of_not_all h]
  · by_cases hc : CanonicalCoords rv
    · simp [pointWellFormed_of_not_encodes hrv hc h]
    · simp [pointCanonical_of_not hrv hc]
  · simp [pointAt_of_encodes h]
  · simp [h]

theorem verdict_checked {r : Point} (hpk : pk ≠ .identity) (hm : AllCanonical m) (hr : EncodesPoint c rv r)
    (hr0 : r ≠ .identity) (hs : scalarValue sv < c.groupN) : verdict c m pk (rv ++ sv) =
      if scalarMul c (scalarValue sv) c.gen = pointAdd c r (scalarMul c (challenge c r pk (numbers m)) pk) then 1 else 0 := by
  rw [verdict, List.take_left' hrv, List.drop_left' hrv, scalarAt_eq hsv, pointAt_of_encodes hr,
    pointCanonical_of_encodes hr, pointWellFormed_of_encodes hr, canonical_of_all hm]
  simp [hpk, hr0, Nat.not_le.2 hs]

end Verdict

end Sys2Proof.Machine
end

section
/-!
The signature commands (spec/45_schnorr.md R350, R351): each is the execution frame around a function of the PLEN message words and of
the words at SB, and it stores or signals what the function answers.
-/

namespace Sys2Proof.Machine

/-- The command `i` runs `rule` on the PLEN words at `a` and the `nb` words at `b`, for a result of `nd` words at `d`; PLEN is 1 to
WMEM_WORDS (R102). -/
structure RunsMessageRule (i : Instr) (a b nb d nd : Nat) (rule : Config → List Word → List Word → Except ErrCode (List Word)) :
    Prop where
  exec_eq : ∀ s, exec i s = runCommand i s (rule s.config)
  shape_eq : ∀ L, shapeOf L i = ⟨⟨a, L⟩, ⟨b, nb⟩, ⟨d, nd⟩⟩
  length_legal : ∀ w L, lengthLegal w L i = (decide (1 ≤ L) && decide (L ≤ w))

/-- The completion for what a function answers: the words stored at `d`, or the error signalled (R115). -/
def completeWith (s : State) (d : Nat) : Except ErrCode (List Nat) → Outcome
  | .ok r => .next (finish s d r)
  | .error e => .next (s.completeError e)

namespace RunsMessageRule

variable {i : Instr} {a b nb d nd : Nat} {rule : Config → List Word → List Word → Except ErrCode (List Word)} {s : State}
  (h : RunsMessageRule i a b nb d nd rule)
include h

theorem length_legal_of_le (h1 : 1 ≤ s.plen.toNat) (hL : s.plen.toNat ≤ s.config.wmemWords) :
    lengthLegal s.config.wmemWords s.plen.toNat i = true := by
  simp [h.length_legal, h1, hL]

theorem badLength (hL : s.plen.toNat = 0 ∨ s.config.wmemWords < s.plen.toNat) :
    exec i s = .next (s.completeError .badLength) := by
  refine exec_badLength ?_
  rcases hL with hL | hL <;> simp [h.length_legal, hL]

theorem noRoom (hnb : 0 < nb) (hnd : 0 < nd) (h1 : 1 ≤ s.plen.toNat) (hL : s.plen.toNat ≤ s.config.wmemWords)
    (hroom : ¬Room s a s.plen.toNat ∨ ¬Room s b nb ∨ ¬Room s d nd) : exec i s = .next (s.completeError .addrRange) := by
  rw [h.exec_eq]
  refine runCommand_noRoom (h.length_legal_of_le h1 hL) ?_
  rw [h.shape_eq]
  exact hroom.imp (⟨h1, ·⟩) (Or.imp (⟨hnb, ·⟩) (⟨hnd, ·⟩))

/-- A message in WMEM is no longer than WMEM, so the length check passes. -/
theorem completes {m v : List Word} (hm : Operand s a m) (hlm : m.length = s.plen.toNat) (h1 : 1 ≤ m.length)
    (hv : Operand s b v) (hlv : v.length = nb) (hd : Room s d nd) {x : Except ErrCode (List Nat)}
    (hx : rule s.config m v = x.map words) : exec i s = completeWith s d x := by
  have hm0 : m ≠ [] := List.ne_nil_of_length_pos h1
  have hL : s.plen.toNat ≤ s.config.wmemWords := hlm ▸ (Nat.le_add_left _ a).trans (hm.1.resolve_left hm0)
  have hsh := h.shape_eq s.plen.toNat
  rw [h.exec_eq, runCommand_operands (h.length_legal_of_le (hlm ▸ h1) hL) (by rwa [hsh]) (by rwa [hsh]) (by rwa [hsh]) (by rwa [hsh])
    (by rwa [hsh]), hx, hsh]
  cases x <;> rfl

end RunsMessageRule

/-! SIGN (R350). -/

/-- The rule of SIGN. -/
def signRule (c : Config) (va vb : List Word) : Except ErrCode (List Word) :=
  if !canonical va then .error .noncanonical else (signMessage c (numbers va) (scalarAt vb)).map words

theorem runsMessageRule_sign (d a b : Nat) : RunsMessageRule (.sign d a b) a b 5 d 16 signRule := by
  refine ⟨fun s => congrArg (runCommand (.sign d a b) s) (funext₂ fun va vb => ?_), fun _ => rfl, fun _ _ => rfl⟩
  rw [signRule]
  cases signMessage s.config (numbers va) (scalarAt vb) <;> rfl

/-- Settles O45: SIGN completes with what `signMessage` answers, and that is decided by the first usable try. -/
theorem signStoresTheSignature : Obligations.SignStoresTheSignature := by
  refine ⟨encodedAs_of_decodeOpcode (by decide) fun _ _ _ => rfl, fun s d a b => ?_⟩
  have h := runsMessageRule_sign d a b
  refine ⟨h.badLength, h.noRoom (by decide) (by decide), fun va vb hla h1 hlb ha hb hd sk k R hsk hk hR => ?_⟩
  obtain rfl : k = nonceAt s.config sk (numbers va) := funext fun j => (hk j).trans (nonceAt_numbers ..).symm
  obtain rfl : R = fun j => scalarMul s.config (nonceAt s.config sk (numbers va) j) s.config.gen := funext hR
  subst hsk
  have hsign (hca : AllCanonical va) :
      exec (.sign d a b) s = completeWith s d (signMessage s.config (numbers va) (scalarValue vb)) := by
    refine h.completes ha hla h1 hb hlb hd ?_
    simp [signRule, canonical_of_all hca, scalarAt_eq hlb]
  refine ⟨hsign, fun hca h0 j hj hfirst hkj hRj => ?signature, fun hca hnone => ?degenerate, fun hca => ?noncanonical⟩
  case signature =>
    rw [hsign hca, signMessage_of_nonce_some h0 (nonce_of_first_usable hj hfirst hkj hRj), ← challenge_numbers]
    rfl
  case degenerate =>
    have hdeg : signMessage s.config (numbers va) (scalarValue vb) = .error .degenerateScalar :=
      hnone.elim signMessage_of_key_zero fun hn => signMessage_of_nonce_none (nonce_of_none_usable hn)
    rw [hsign hca, hdeg]
    rfl
  case noncanonical =>
    refine h.completes ha hla h1 hb hlb hd (x := .error .noncanonical) ?_
    simp [signRule, canonical_of_not_all hca, Except.map]

/-! VERIFY (R351). -/

/-- The rule of VERIFY. -/
def verifyRule (c : Config) (va vb : List Word) : Except ErrCode (List Word) :=
  (verifyMessage c va (vb.take POINT_WORDS) (vb.drop POINT_WORDS)).map fun v => words [v]

theorem runsMessageRule_verify (d a b : Nat) : RunsMessageRule (.verify d a b) a b 27 d 1 verifyRule := by
  refine ⟨fun s => congrArg (runCommand (.verify d a b) s) (funext₂ fun va vb => ?_), fun _ => rfl, fun _ _ => rfl⟩
  rw [verifyRule]
  cases verifyMessage s.config va (vb.take POINT_WORDS) (vb.drop POINT_WORDS) <;> rfl

/-- Settles O46: VERIFY completes with what `verifyMessage` answers: the two errors of the public key, or the verdict. -/
theorem verifyStoresTheVerdict : Obligations.VerifyStoresTheVerdict := by
  refine ⟨encodedAs_of_decodeOpcode (by decide) fun _ _ _ => rfl, fun s d a b => ?_⟩
  have h := runsMessageRule_verify d a b
  refine ⟨h.badLength, h.noRoom (by decide) (by decide), fun m pkv rv sv hlm h1 hpk hrv hsv hm hv hd => ?_⟩
  have hverify : exec (.verify d a b) s =
      completeWith s d ((verifyMessage s.config m pkv (rv ++ sv)).map fun v => [v]) := by
    refine h.completes hm hlm h1 hv (by simp [hpk, hrv, hsv]) hd ?_
    rw [verifyRule, List.append_assoc, List.take_left' hpk, List.drop_left' hpk]
    cases verifyMessage s.config m pkv (rv ++ sv) <;> rfl
  refine ⟨?answers, fun hc => ?noncanonical, fun hc hne => ?malformed, fun pk hpke => ?verdict⟩
  case answers =>
    rw [hverify]
    cases verifyMessage s.config m pkv (rv ++ sv) <;> rfl
  case noncanonical =>
    rw [hverify, verifyMessage_noncanonical hpk hc]
    rfl
  case malformed =>
    rw [hverify, verifyMessage_malformed hpk hc hne]
    rfl
  case verdict =>
    rw [hverify, verifyMessage_of_encodes hpke]
    refine ⟨fun hrej => ?_, fun R hpk0 hca hR hR0 hs => ?_⟩
    · rw [verdict_rejected hrv hsv hrej]
      rfl
    · rw [verdict_checked hrv hsv hpk0 hca hR hR0 hs, challenge_numbers]
      rfl

end Sys2Proof.Machine
end

section
/-!
The signature equation (spec/45_schnorr.md R347; spec/44_group.md R294 to R296): on a point of prime order GROUP_N whose multiples add as
integers do, ScalarMul by k + e·sk is what Verify computes from R = k·Q, e and pk = sk·Q.
-/

namespace Sys2Proof.Machine

/-! The multiples of a multiple. -/

section Multiples

variable {c : Config} {q : Point} (hq : MultiplesAdd c q)
include hq

theorem pointTimes_pointTimes (a n : Nat) : pointTimes c a (pointTimes c n q) = pointTimes c (a * n) q := by
  induction a with
  | zero => rw [Nat.zero_mul]; rfl
  | succ a ih => rw [pointTimes, ih, hq, Nat.succ_mul]

theorem multiplesAdd_pointTimes (n : Nat) : MultiplesAdd c (pointTimes c n q) := fun a b => by
  simp only [pointTimes_pointTimes hq, hq (a * n) (b * n), Nat.add_mul]

variable (h0 : 0 < c.groupN) (hN : c.groupN < 2 ^ 320) (hord : pointTimes c c.groupN q = .identity)
include h0 hN hord

theorem scalarMul_scalarMul (e n : Nat) : scalarMul c e (scalarMul c n q) = scalarMul c (e * n) q := by
  have hordn : pointTimes c c.groupN (pointTimes c n q) = .identity := by
    rw [pointTimes_pointTimes hq, pointTimes_groupN_mul hq hord]
  rw [scalarMul_eq_pointTimes hq h0 hN hord, scalarMul_eq_pointTimes hq h0 hN hord,
    scalarMul_eq_pointTimes (multiplesAdd_pointTimes hq n) h0 hN hordn, pointTimes_pointTimes hq]

/-- (k + e·n)·Q = k·Q + e·(n·Q). -/
theorem scalarMul_signature (k e n : Nat) : scalarMul c ((k + e * n) % c.groupN) q =
    pointAdd c (scalarMul c k q) (scalarMul c e (scalarMul c n q)) := by
  obtain ⟨-, hadd⟩ := scalarMulLaws.2 c q hq h0 hN hord k (e * n)
  rw [scalarMul_mod, hadd, scalarMul_scalarMul hq h0 hN hord]

/-- Where the order is prime, a scalar that is not 0 modulo GROUP_N has an inverse, so its multiple is O only for Q = O. -/
theorem scalarMul_ne_identity (hprime : c.groupN.Prime) (hq0 : q ≠ .identity) {n : Nat} (hn : n % c.groupN ≠ 0) :
    scalarMul c n q ≠ .identity := by
  intro hO
  have hcoprime : n.Coprime c.groupN :=
    (hprime.coprime_iff_not_dvd.2 fun hdvd => hn (Nat.mod_eq_zero_of_dvd hdvd)).symm
  obtain ⟨u, -, hu⟩ := Nat.exists_mul_mod_eq_one_of_coprime hcoprime hprime.one_lt
  refine hq0 ?_
  calc q = scalarMul c (u * n) q := by rw [← scalarMul_mod, Nat.mul_comm, hu, scalarMul_one q hprime.two_le]
    _ = .identity := by rw [← scalarMul_scalarMul hq h0 hN hord, hO, scalarMul_identity]

end Multiples

/-- Settles O60: the public key and R encode multiples of GEN other than O, and s meets the equation (`scalarMul_signature`). -/
theorem signThenVerifyAccepts : Obligations.SignThenVerifyAccepts := by
  intro c m sk sig hgen h2 hN hprime hord hadd hin hca _ hsk hsign
  have h0 : 0 < c.groupN := Nat.zero_lt_of_lt h2
  have hencodes (n : Nat) : EncodesPoint c (words (encPoint (scalarMul c n c.gen))) (scalarMul c n c.gen) :=
    ⟨scalarMul_eq_pointTimes hadd h0 hN hord n ▸ hin n, rfl⟩
  obtain ⟨k, r, rfl, hr0, rfl⟩ := signMessage_eq_ok hsign
  have hpk0 := scalarMul_ne_identity hadd h0 hN hord hprime hgen hsk
  rw [verifyMessage_of_encodes (hencodes sk), words_signatureOf, scalarMul_mod]
  generalize hs : (k + challenge c (scalarMul c k c.gen) (scalarMul c sk c.gen) (numbers m) * (sk % c.groupN)) % c.groupN = s
  have hlt : s < c.groupN := hs ▸ Nat.mod_lt _ h0
  have hvalue := scalarValue_words_scalarWords (hlt.trans hN)
  rw [verdict_checked (by simp) (by simp) hpk0 hca (hencodes k) hr0 (hvalue.trans_lt hlt), hvalue, if_pos]
  rw [← hs, scalarMul_signature hadd h0 hN hord, scalarMul_mod]

end Sys2Proof.Machine
end

section
/-!
The exceptional ends of a command (spec/60_exceptions.md R380, R381, R388, R389): the fault at an unspecified source word, and what
a completion, with an error or without, leaves in STATUS.
-/

namespace Sys2Proof.Machine

/-! The read phase and the source ranges. -/

/-- A successful read phase met written words only. -/
theorem Memory.read_ne_none_of_readRange_ok {m : Memory} {a n x : Nat} {vs : List Word} (h : m.readRange a n = .ok vs)
    (hlo : a ≤ x) (hhi : x < a + n) : m.read x ≠ none := by
  have hread := (Memory.readRange_inv m a n vs h).2 (x - a) (by omega)
  rw [Nat.add_sub_cancel' hlo] at hread
  simp [hread]

/-- A range that passes the check has every word inside WMEM (R112). -/
theorem Range.lt_of_inside {n x : Nat} {r : Range} (h : r.inside n = true) (hlo : r.base ≤ x) (hhi : x < r.base + r.len) :
    x < n := by
  have h : r.len = 0 ∨ r.base + r.len ≤ n := by simpa [Range.inside] using h
  omega

section Faults

variable {i : Instr} {s : State} {x : Nat}

theorem lt_wmemWords_of_sourceUnspecified (hx : SourceUnspecified s i x)
    (hr : (shapeOf s.plen.toNat i).inside s.config.wmemWords = true) : x < s.config.wmemWords := by
  have hr : ((shapeOf s.plen.toNat i).a.inside s.config.wmemWords = true ∧
      (shapeOf s.plen.toNat i).b.inside s.config.wmemWords = true) ∧
      (shapeOf s.plen.toNat i).d.inside s.config.wmemWords = true := by simpa [Shape.inside] using hr
  obtain ⟨⟨ha, hb⟩, -⟩ := hr
  rcases hx with ⟨-, hx | hx⟩
  · exact Range.lt_of_inside ha hx.1 hx.2
  · exact Range.lt_of_inside hb hx.1 hx.2

/-- With the checks passed, the read phase does not get past an unspecified source word (R110). -/
theorem runCommand_fault_of_source_unspecified {rule : List Word → List Word → Except ErrCode (List Word)}
    (hl : lengthLegal s.config.wmemWords s.plen.toNat i = true)
    (hr : (shapeOf s.plen.toNat i).inside s.config.wmemWords = true) (hx : SourceUnspecified s i x) :
    ∃ y, runCommand i s rule = .fault (.uninitRead y) := by
  cases ha : s.wmem.readRange (shapeOf s.plen.toNat i).a.base (shapeOf s.plen.toNat i).a.len with
  | error y => exact ⟨y, by simp [runCommand, hl, hr, ha]⟩
  | ok va =>
    cases hb : s.wmem.readRange (shapeOf s.plen.toNat i).b.base (shapeOf s.plen.toNat i).b.len with
    | error y => exact ⟨y, by simp [runCommand, hl, hr, ha, hb]⟩
    | ok vb =>
      obtain ⟨hnone, hx | hx⟩ := hx
      · exact absurd hnone (Memory.read_ne_none_of_readRange_ok ha hx.1 hx.2)
      · exact absurd hnone (Memory.read_ne_none_of_readRange_ok hb hx.1 hx.2)

/-- The only fault of a command is at an unspecified source word (R388). -/
theorem exec_fault {f : Fault} (h : exec i s = .fault f) : ∃ x, f = .uninitRead x ∧ SourceUnspecified s i x := by
  rcases exec_cases i s with ⟨c, -, he⟩ | ⟨x, he, hx⟩ | ⟨r, -, -, he⟩ <;> cases he.symm.trans h
  exact ⟨x, rfl, hx⟩

theorem exec_ne_refused (i : Instr) (s : State) (r : Refusal) : exec i s ≠ .refused r := by
  intro h
  rcases exec_cases i s with ⟨c, -, he⟩ | ⟨x, he, -⟩ | ⟨v, -, -, he⟩ <;> cases he.symm.trans h

/-- A command faults only once its range check has passed (R112). -/
theorem shape_inside_of_exec_fault {f : Fault} (h : exec i s = .fault f) :
    (shapeOf s.plen.toNat i).inside s.config.wmemWords = true := by
  refine Bool.of_not_eq_false fun hr => ?_
  cases hl : lengthLegal s.config.wmemWords s.plen.toNat i with
  | false => cases (exec_badLength hl).symm.trans h
  | true => cases (exec_addrRange hl hr).symm.trans h

/-- With every word written no command faults: the word the fault names would lie inside WMEM (R389). -/
theorem exec_ne_fault_of_fullyWritten (hfull : FullyWritten s) (f : Fault) : exec i s ≠ .fault f := by
  intro h
  obtain ⟨x, -, hx⟩ := exec_fault h
  obtain ⟨v, hv⟩ := hfull x (lt_wmemWords_of_sourceUnspecified hx (shape_inside_of_exec_fault h))
  cases hx.1.symm.trans hv

end Faults

/-- Settles O21: the read phase of every command stops at an unspecified source word (`runCommand_fault_of_source_unspecified`), and
`exec_cases` has no other fault and no refusal (R388). -/
theorem unspecifiedSourceWordFaults : Obligations.UnspecifiedSourceWordFaults := by
  refine fun s i => ⟨fun hl hr ⟨x, hx⟩ => ?_, fun f hf => exec_fault hf, exec_ne_refused i s⟩
  obtain ⟨rule, he, -⟩ := exec_runCommand i s s rfl
  obtain ⟨y, hy⟩ := runCommand_fault_of_source_unspecified (rule := rule) hl hr hx
  have hfault := he.trans hy
  obtain ⟨z, hz, hsource⟩ := exec_fault hfault
  cases hz
  exact ⟨y, hsource, hfault⟩

/-! The two completions (R115, R381). -/

/-- STATUS after a completion, with or without an error (R44). -/
def Completed (t : State) : Prop :=
  t.status.busy = false ∧ t.status.done = true ∧ (t.status.err = true ↔ t.status.errCode ≠ .none)

theorem completed_completeOk (s : State) : Completed s.completeOk :=
  ⟨rfl, rfl, (statusConsistent_completedOk s.status).2.1⟩

theorem completed_completeError (s : State) {c : ErrCode} (hc : c ≠ .none) : Completed (s.completeError c) :=
  ⟨rfl, rfl, (statusConsistent_completedError s.status hc).2.1⟩

theorem exec_completes_of_fullyWritten {s : State} (hfull : FullyWritten s) (i : Instr) :
    ∃ t, exec i s = .next t ∧ Completed t := by
  rcases exec_cases i s with ⟨c, hc, he⟩ | ⟨x, he, -⟩ | ⟨r, -, -, he⟩
  · exact ⟨_, he, completed_completeError s hc⟩
  · exact absurd he (exec_ne_fault_of_fullyWritten hfull _)
  · exact ⟨_, he, completed_completeOk _⟩

/-- Settles O22: an illegal word completes with ILLEGAL_CMD, a legal one by `exec_completes_of_fullyWritten` (R389). -/
theorem everyCommandCompletesOnWrittenMemory : Obligations.EveryCommandCompletesOnWrittenMemory := by
  intro s hbusy hfull
  rw [engineTurn_busy hbusy]
  rcases engineStep_cases s with ⟨e, -, he⟩ | ⟨i, -, he⟩ <;> rw [he]
  · exact ⟨_, rfl, completed_completeError s (by simp)⟩
  · exact exec_completes_of_fullyWritten hfull i

/-- A command ends with ERR set only through an error completion, which stores no word (R381). -/
theorem exec_next_err {i : Instr} {s t : State} (h : exec i s = .next t) (herr : t.status.err = true) :
    ∃ c, c ≠ .none ∧ t = s.completeError c := by
  rcases exec_cases i s with ⟨c, hc, he⟩ | ⟨x, he, -⟩ | ⟨r, -, -, he⟩ <;> cases he.symm.trans h
  · exact ⟨c, hc, rfl⟩
  · exact absurd herr (by simp)

/-- Settles O23: the fields of `State.completeError` and the code in the STATUS register (`Status.word_errCode`), and for commands
`exec_next_err` (R381). -/
theorem errorCompletionChangesOnlyStatus : Obligations.ErrorCompletionChangesOnlyStatus := by
  refine ⟨fun s c => ⟨rfl, ?_⟩, fun s t i h herr => exec_next_err h herr⟩
  rw [csrValue_status, Status.word_errCode, State.completeError_status, Status.completedError_errCode]

end Sys2Proof.Machine
end

section
/-!
The resets and the latch of LEN (spec/70_reset_and_hazards.md R420, R421, R434): what either reset leaves of WMEM, and that a command
in flight runs on PLEN alone.
-/

namespace Sys2Proof.Machine

/-! The soft reset and the command in flight (R421). -/

theorem abandonedRange_legal {s : State} {i : Instr} (h : decode s.cmd = .ok i) :
    abandonedRange s = (shapeOf s.plen.toNat i).d := by
  rw [abandonedRange, h]

theorem abandonedRange_illegal {s : State} {e : DecodeError} (h : decode s.cmd = .error e) : abandonedRange s = ⟨0, 0⟩ := by
  rw [abandonedRange, h]

theorem softReset_wmem_idle {s : State} (h : s.status.busy = false) : (softReset s).wmem = s.wmem := by
  rw [softReset_wmem, h]; rfl

theorem softReset_read_busy {s : State} (h : s.status.busy = true) (x : Nat) :
    (softReset s).wmem.read x =
      if (abandonedRange s).base ≤ x ∧ x < (abandonedRange s).base + (abandonedRange s).len then none else s.wmem.read x := by
  rw [softReset_wmem, if_pos h, Memory.read_eraseRange]

/-- Settles O14: the registers by the field lemmas of `softReset`, WMEM by `softReset_read_busy` with the abandoned range that the
decoder gives, which is empty for an illegal word (R421). -/
theorem softResetAbandonsTheCommandInFlight : Obligations.SoftResetAbandonsTheCommandInFlight := by
  refine fun s => ⟨softReset_cmd s, softReset_len s, softReset_plen s, Status.word_zero, softReset_config s,
    fun hidle x => ?idle, fun e hbusy hd x => ?illegal, fun i hbusy hd x => ?legal⟩
  case idle => rw [softReset_wmem_idle hidle]
  case illegal =>
    rw [softReset_read_busy hbusy, abandonedRange_illegal hd]
    exact if_neg fun hx => Nat.not_lt_zero x hx.2
  case legal => rw [softReset_read_busy hbusy, abandonedRange_legal hd]

/-! Acceptance of a CMD write by an idle engine (R75). -/

theorem hostAct_csrWrite_cmd_idle {s : State} (v : Word) (h : s.status.busy = false) :
    hostAct (.csrWrite 0 v) s = .next (s.accept v) := by
  rw [hostAct_csrWrite_cmd, writeCmd_idle v h]

/-- Settles O15: the field lemmas of `hardwareReset`; the engine it leaves is idle, so it accepts (R420). -/
theorem hardwareResetFromAnyState : Obligations.HardwareResetFromAnyState := by
  intro s
  refine ⟨hardwareReset s, rfl, rfl, hardwareReset_cmd s, hardwareReset_len s, Status.word_zero, hardwareReset_plen s, ?cfg,
    fun a => ?memory, hardwareReset_config s, fun v => ?accepts⟩
  case cfg => rw [csrValue_cfg, csrValue_cfg, hardwareReset_config]
  case memory => rw [hardwareReset_wmem, Memory.read_nil]
  case accepts =>
    have hidle : (hardwareReset s).status.busy = false := Status.zero_busy
    exact ⟨_, hostAct_csrWrite_cmd_idle v hidle, Status.accepted_busy _, State.accept_cmd _ v⟩

/-! A command in flight and LEN (R434): the execution frame reads PLEN, so a later value of LEN passes through it. -/

theorem runCommand_withLen {i : Instr} {s t : State} {rule : List Word → List Word → Except ErrCode (List Word)} (v : Word)
    (h : runCommand i s rule = .next t) : runCommand i { s with len := v } rule = .next { t with len := v } := by
  cases hl : lengthLegal s.config.wmemWords s.plen.toNat i with
  | false => cases (runCommand_badLength hl).symm.trans h; exact runCommand_badLength hl
  | true =>
    cases hr : (shapeOf s.plen.toNat i).inside s.config.wmemWords with
    | false => cases (runCommand_addrRange hl hr).symm.trans h; exact runCommand_addrRange hl hr
    | true =>
      cases ha : s.wmem.readRange (shapeOf s.plen.toNat i).a.base (shapeOf s.plen.toNat i).a.len with
      | error x => simp [runCommand, hl, hr, ha] at h
      | ok va =>
        cases hb : s.wmem.readRange (shapeOf s.plen.toNat i).b.base (shapeOf s.plen.toNat i).b.len with
        | error x => simp [runCommand, hl, hr, ha, hb] at h
        | ok vb =>
          rw [runCommand_rule hl hr ha hb] at h
          refine (runCommand_rule (s := { s with len := v }) hl hr ha hb).trans ?_
          cases hc : rule va vb <;> rw [hc] at h <;> cases h <;> rfl

/-- The rule of a command does not see LEN either: it knows the operands and the configuration only (`exec_runCommand`). -/
theorem exec_withLen {i : Instr} {s t : State} (v : Word) (h : exec i s = .next t) :
    exec i { s with len := v } = .next { t with len := v } := by
  obtain ⟨rule, hs, hlen⟩ := exec_runCommand i s { s with len := v } rfl
  exact hlen.trans (runCommand_withLen v (hs.symm.trans h))

theorem exec_keeps_len {i : Instr} {s t : State} (h : exec i s = .next t) : t.len = s.len := by
  obtain ⟨-, hlen, -⟩ := commandFrame s t i h
  exact hlen

/-- The host's write to LEN (index 1 of R32), which does not look at BUSY. -/
theorem hostAct_csrWrite_len (s : State) (v : Word) : hostAct (.csrWrite 1 v) s = .next { s with len := v } := rfl

/-- Settles O12: acceptance is what copies LEN into PLEN (`State.accept`), and a command in flight neither sees LEN nor changes it
(`exec_withLen`, `exec_keeps_len`; R434). -/
theorem lenIsLatchedAtAcceptance : Obligations.LenIsLatchedAtAcceptance :=
  ⟨hostAct_csrWrite_len,
    fun s v hidle => ⟨s.accept v, hostAct_csrWrite_cmd_idle v hidle, s.accept_plen v, s.accept_len v⟩,
    fun _ _ _ v h => exec_withLen v h,
    fun _ _ _ h => exec_keeps_len h⟩

end Sys2Proof.Machine
end
